-- ==== Sys2Proof/Word.lean ====
section
/-! DEFINITION. The word types of the oxcable DSP block: the widths the spec fixes (00_scope.md R12,
20_memory.md R70) and the complex pair of 00_scope.md R21. -/

namespace Sys2Proof

/-- One byte of the window (20_memory.md R71). -/
abbrev Byte := BitVec 8

/-- A 32-bit bus word: a register, a DMEM word, a binary32 pattern or a Q2.30 pattern (R12). -/
abbrev Word := BitVec 32

/-- A 64-bit counter: TIME, start_t, end_t, next_t (R12). -/
abbrev Time := BitVec 64

/-- A byte offset inside the block's 32 MiB window, 0x0000000 to 0x1FFFFFF (R36, R70). -/
abbrev Offset := BitVec 25

/-- A complex binary32 value, a pair `(re, im)` (R21). -/
structure Complex32 where
  re : Word
  im : Word
deriving DecidableEq, Repr

end Sys2Proof
end

