-- ==== Sys2Proof/Syntax.lean ====
section
/-! DEFINITION. The commands of the block, one constructor per row of spec/opcode_table.json
(30_encoding.md R95), and the transactions the outside can put to it: the host's bus accesses
(20_memory.md R73, 30_encoding.md R101) and the platform's reset (70_reset_and_hazards.md R280). -/

namespace Sys2Proof

/-- The commands of the opcode map (30_encoding.md R95). Only OSC_INIT and OSC_TICK carry
immediates; every other operand lies in ARG0 to ARG3 or ENV_IN (R94). -/
inductive Instr where
  /-- NOP, 40_control.md R115. -/
  | nop
  /-- STEP, 40_control.md R116. -/
  | step
  /-- FFT_CONFIG, 42_fft.md R163. -/
  | fftConfig
  /-- FFT_FWD, 42_fft.md R168. -/
  | fftFwd
  /-- FFT_INV, 42_fft.md R169. -/
  | fftInv
  /-- RB_INIT, 41_ring_buffer.md R140. -/
  | rbInit
  /-- RB_PUSH, 41_ring_buffer.md R141. -/
  | rbPush
  /-- RB_GET, 41_ring_buffer.md R142. -/
  | rbGet
  /-- RB_UPDATE, 41_ring_buffer.md R143. -/
  | rbUpdate
  /-- ENV_NOTE_DOWN, 43_envelope.md R198. -/
  | envNoteDown
  /-- ENV_NOTE_UP, 43_envelope.md R199. -/
  | envNoteUp
  /-- ENV_TICK, 43_envelope.md R200. -/
  | envTick
  /-- OSC_INIT with its WAVE and AA fields (format W, 30_encoding.md R92), 44_oscillator.md R221. -/
  | oscInit (wave : BitVec 3) (aa : Bool)
  /-- OSC_SET_FREQ, 44_oscillator.md R222. -/
  | oscSetFreq
  /-- OSC_SET_TRANSPOSE, 44_oscillator.md R223. -/
  | oscSetTranspose
  /-- OSC_SET_BEND, 44_oscillator.md R224. -/
  | oscSetBend
  /-- OSC_TICK with its LFO field (format L, 30_encoding.md R93), 44_oscillator.md R225. -/
  | oscTick (lfo : Bool)
deriving DecidableEq, Repr

/-- What can arrive at the block from outside, in arrival order (20_memory.md R80). -/
inductive HostEvent where
  /-- `MemRead(offset, bytes)` (00_scope.md R16). -/
  | read (offset : Offset) (bytes : Nat)
  /-- `MemWrite(offset, bytes, data)` (00_scope.md R16). Only `bytes = 4` is ever admitted, so the
  data is a word. -/
  | write (offset : Offset) (bytes : Nat) (data : Word)
  /-- The platform asserts reset between two accesses (70_reset_and_hazards.md R280). -/
  | reset
  /-- The platform asserts reset while the CMD write of `data` stalls the bus (R280). -/
  | resetDuring (data : Word)
deriving DecidableEq, Repr

/-- How the bus answers one access. -/
inductive BusResponse where
  /-- A write completed with a normal response. -/
  | ack
  /-- A read completed and returned this word. -/
  | data (value : Word)
  /-- An error response (00_scope.md R16). -/
  | error
deriving DecidableEq, Repr, Inhabited

end Sys2Proof
end

