-- ==== Sys2Proof/WellFormed.lean ====
section
/-! DEFINITION. Which terms of `Instr` are commands of the block: the only operand with a restricted
range is OSC_INIT's waveform code (30_encoding.md R92, R96). -/

namespace Sys2Proof

/-- A command whose fields are legal: WAVE is 0 to 5 (30_encoding.md R92); AA and LFO are single bits
and every other command has no field. -/
def Instr.wellFormed : Instr → Bool
  | .nop => true
  | .step => true
  | .fftConfig => true
  | .fftFwd => true
  | .fftInv => true
  | .rbInit => true
  | .rbPush => true
  | .rbGet => true
  | .rbUpdate => true
  | .envNoteDown => true
  | .envNoteUp => true
  | .envTick => true
  | .oscInit wave _ => decide (wave.toNat ≤ 5)
  | .oscSetFreq => true
  | .oscSetTranspose => true
  | .oscSetBend => true
  | .oscTick _ => true

end Sys2Proof
end

