-- ==== Sys2Proof/Decode.lean ====
section
/-! DEFINITION. Decoding and encoding of command words (30_encoding.md R90 to R98). -/

namespace Sys2Proof

/-- Why a word decodes to ILLEGAL (30_encoding.md R97). -/
inductive IllegalWord where
  /-- An opcode not in the opcode map (R97 (a)). -/
  | reservedOpcode (opc : Nat)
  /-- A listed opcode with a nonzero RSVD bit (R97 (b)). -/
  | reservedBits (opc : Nat)
  /-- OSC_INIT with WAVE = 6 or 7 (R97 (c)). -/
  | reservedWave (wave : Nat)
deriving DecidableEq, Repr

/-- OPC, bits [7:0] (R90). -/
def opcodeField (w : Word) : Nat := (w.extractLsb' 0 8).toNat

/-- The format-N commands by opcode (R91, R95). -/
def formatN : List (Nat × Instr) :=
  [(0x00, .nop), (0x01, .step), (0x10, .fftConfig), (0x11, .fftFwd), (0x12, .fftInv),
   (0x20, .rbInit), (0x21, .rbPush), (0x22, .rbGet), (0x23, .rbUpdate),
   (0x30, .envNoteDown), (0x31, .envNoteUp), (0x32, .envTick),
   (0x41, .oscSetFreq), (0x42, .oscSetTranspose), (0x43, .oscSetBend)]

/-- `decode(w)` (R96), with the reason where the word is ILLEGAL. The RSVD field is bits [31:8] in format
N (R91), bits [31:12] in format W (R92) and bits [31:9] in format L (R93). -/
def decode (w : Word) : Except IllegalWord Instr :=
  match formatN.lookup (opcodeField w) with
  | some i => if w.extractLsb' 8 24 = 0 then .ok i else .error (.reservedBits (opcodeField w))
  | none =>
    if opcodeField w = 0x40 then
      if w.extractLsb' 12 20 = 0 then
        if (w.extractLsb' 8 3).toNat ≤ 5 then .ok (.oscInit (w.extractLsb' 8 3) (w.getLsbD 11))
        else .error (.reservedWave (w.extractLsb' 8 3).toNat)
      else .error (.reservedBits 0x40)
    else if opcodeField w = 0x44 then
      if w.extractLsb' 9 23 = 0 then .ok (.oscTick (w.getLsbD 8)) else .error (.reservedBits 0x44)
    else .error (.reservedOpcode (opcodeField w))

/-- A command word from the four bytes the bus carries, the least significant first (20_memory.md R71);
every command is exactly one word (R90). -/
def decodeBytes : List Byte → Option Instr
  | [b0, b1, b2, b3] => (decode (b3 ++ b2 ++ b1 ++ b0 : Word)).toOption
  | _ => none

/-- The four bytes of a word in the order of their addresses (20_memory.md R71). -/
def wordBytes (w : Word) : List Byte :=
  [w.extractLsb' 0 8, w.extractLsb' 8 8, w.extractLsb' 16 8, w.extractLsb' 24 8]

/-- The instruction the decoder reads from the `nbits` low bits of `w`, every higher bit 0. No command
is longer than 32 bits (R90). -/
def decodeTableWord (nbits w : Nat) : Option Instr :=
  if w % 2 ^ nbits < 2 ^ 32 then decodeBytes (wordBytes (BitVec.ofNat 32 (w % 2 ^ nbits))) else none

/-- A single bit as a word field. -/
def bitField (b : Bool) : Word := if b then 1 else 0

/-- The command word of an instruction (R95): format N, format W with WAVE at bit 8 and AA at bit 11
(R92), format L with LFO at bit 8 (R93). -/
def encode : Instr → Word
  | .nop => 0x00000000
  | .step => 0x00000001
  | .fftConfig => 0x00000010
  | .fftFwd => 0x00000011
  | .fftInv => 0x00000012
  | .rbInit => 0x00000020
  | .rbPush => 0x00000021
  | .rbGet => 0x00000022
  | .rbUpdate => 0x00000023
  | .envNoteDown => 0x00000030
  | .envNoteUp => 0x00000031
  | .envTick => 0x00000032
  | .oscInit wave aa => 0x00000040 + (wave.setWidth 32 <<< 8) + (bitField aa <<< 11)
  | .oscSetFreq => 0x00000041
  | .oscSetTranspose => 0x00000042
  | .oscSetBend => 0x00000043
  | .oscTick lfo => 0x00000044 + (bitField lfo <<< 8)

end Sys2Proof
end

