-- ==== Sys2Proof/Config.lean ====
section
/-! DEFINITION. What an implementation of the block fixes (the parameters of 00_scope.md R6 to R10 and
BLOCK_BASE of 20_memory.md R78, an argument of the model held in `State`), and the free values: opaque
constants nothing in Lean can evaluate, one for each value the spec leaves open. -/

namespace Sys2Proof

/-- The implementation parameters, each OPEN in the spec (00_scope.md R6 to R10, 20_memory.md R78). -/
structure Params where
  /-- LOG2_PMAX (R6). -/
  log2Pmax : Nat
  /-- DMEM_SIZE, in complex elements (R7). -/
  dmemSize : Nat
  /-- RB_MAX, in samples (R8). -/
  rbMax : Nat
  /-- ENV_NCH (R9). -/
  envNch : Nat
  /-- SAMPLE_RATE, in samples per second (R10). -/
  sampleRate : Nat
  /-- BLOCK_BASE, the window's base in the host's address space (R78). -/
  blockBase : Nat
deriving DecidableEq, Repr

/-- The ranges the spec gives the parameters (R6 to R10, R78). -/
abbrev Params.Legal (p : Params) : Prop :=
  p.log2Pmax ≤ 21 ∧ (2 ^ p.log2Pmax ≤ p.dmemSize ∧ p.dmemSize ≤ 2 ^ 21) ∧
    (1 ≤ p.rbMax ∧ p.rbMax ≤ 2 ^ 24) ∧ (1 ≤ p.envNch ∧ p.envNch ≤ 8) ∧
    (1 ≤ p.sampleRate ∧ p.sampleRate ≤ 2 ^ 24) ∧ p.blockBase % 2 ^ 25 = 0

/-- The parameter set PS of 95_test_vectors.md (Conventions), with BLOCK_BASE at 0.
DESIGN CHOICE (log entry 1): `State.reset` uses it; every statement holds for every `Params`. -/
def Params.ps : Params where
  log2Pmax := 4
  dmemSize := 16
  rbMax := 16
  envNch := 1
  sampleRate := 44100
  blockBase := 0

/-- The source of the white-noise draws (R11), before the range of R11 is imposed: a free value for
each draw (log entry 4). -/
opaque Config.noiseRaw : Nat → Word

/-- What a ring-buffer slot holds that nothing has written since reset (10_state.md R48,
70_reset_and_hazards.md R283): a free value for each slot (log entry 5). -/
opaque Config.unwrittenSlot : Nat → Word

/-- The response of an access that reset abandons (70_reset_and_hazards.md R280): a free value for each
such access (log entry 6). -/
opaque Config.abandonedResponse : Nat → BusResponse

end Sys2Proof
end

