-- ==== Sys2Proof/Machine/Binary32.lean ====
section
/-! DEFINITION. The binary32 and Q2.30 arithmetic of 00_scope.md R14, R17, R18, R20 to R22: operands are
taken to exact integers, the exact result is formed, and it is rounded once. -/

namespace Sys2Proof.Machine

/-! ### Constants (00_scope.md R20) -/

/-- ONE, 1.0. -/
def one32 : Word := 0x3F800000
/-- ZERO, +0.0. -/
def zero32 : Word := 0x00000000
/-- 0.5, the constant of 44_oscillator.md R232. -/
def half32 : Word := 0x3F000000
/-- TWELVE, 12.0. -/
def twelve32 : Word := 0x41400000
/-- PI_F32. -/
def pi32 : Word := 0x40490FDB
/-- TWO_PI_F32. -/
def twoPi32 : Word := 0x40C90FDB
/-- The canonical quiet NaN of R18. -/
def canonicalNaN : Word := 0x7FC00000

/-! ### Fields of a binary32 pattern -/

/-- The sign bit, bit 31. -/
def signBit (v : Word) : Bool := v.msb

/-- Bits 30 to 0: the pattern of the absolute value. -/
def magnitude (v : Word) : Nat := v.toNat % 2 ^ 31

/-- Exponent all ones and a nonzero fraction. -/
def isNaN32 (v : Word) : Bool := decide (0x7F800000 < magnitude v)

/-- Exponent all ones and a zero fraction. -/
def isInf32 (v : Word) : Bool := decide (magnitude v = 0x7F800000)

/-- Either zero. -/
def isZero32 (v : Word) : Bool := decide (magnitude v = 0)

/-- The absolute value of a finite pattern as a count of units of 2^-149, the least subnormal: every
finite binary32 value is a whole number of them. -/
def units (v : Word) : Nat :=
  let e := magnitude v / 2 ^ 23
  let f := magnitude v % 2 ^ 23
  if e = 0 then f else (2 ^ 23 + f) * 2 ^ (e - 1)

/-- A finite pattern's value as a signed count of units of 2^-149. -/
def signedUnits (v : Word) : Int := if signBit v then -(units v : Int) else units v

/-- The pattern with this sign and this magnitude pattern. -/
def packSign (sign : Bool) (mag : Nat) : Word :=
  BitVec.ofNat 32 (mag + if sign then 2 ^ 31 else 0)

/-- An infinity of this sign. -/
def inf32 (sign : Bool) : Word := packSign sign 0x7F800000

/-! ### Rounding (R17) -/

/-- The integer nearest to `n / d`, ties to even. -/
def roundQuot (n d : Nat) : Nat :=
  if d < 2 * (n % d) ∨ (2 * (n % d) = d ∧ n / d % 2 = 1) then n / d + 1 else n / d

/-- The magnitude pattern of the nonnegative rational `n / d` rounded to binary32, to nearest, ties to
even, with subnormals, and with overflow to infinity. The value is `(n·2^149 / d)` units; `k` is how
many of their low bits the 24-bit significand cannot hold, and `k·2^23 + m` is the pattern whose
significand is `m` units of `2^k`, also where `m` rounds up to `2^24`. -/
def roundMag (n d : Nat) : Nat :=
  let k := Nat.log2 (n * 2 ^ 149 / d) - 23
  min 0x7F800000 (k * 2 ^ 23 + roundQuot (n * 2 ^ 149) (d * 2 ^ k))

/-- `f32(n / d)` for an exact rational: rounded to nearest even, an exact zero is +0.0 (R17). -/
def f32OfRat (n : Int) (d : Nat) : Word :=
  if n = 0 then zero32 else packSign (decide (n < 0)) (roundMag n.natAbs d)

/-! ### Operations (R17, R18) -/

/-- `neg32`: flips bit 31 and nothing else. -/
def neg32 (a : Word) : Word := a ^^^ 0x80000000

/-- `add32`: the exact sum rounded once; an exact zero sum is +0.0 unless both operands are -0.0. -/
def add32 (a b : Word) : Word :=
  if isNaN32 a || isNaN32 b then canonicalNaN
  else if isInf32 a then (if isInf32 b && (signBit a != signBit b) then canonicalNaN else a)
  else if isInf32 b then b
  else if signedUnits a + signedUnits b = 0 then packSign (signBit a && signBit b) 0
  else f32OfRat (signedUnits a + signedUnits b) (2 ^ 149)

/-- `sub32`: IEEE 754 defines `a - b` as `a + (-b)`. -/
def sub32 (a b : Word) : Word :=
  if isNaN32 a || isNaN32 b then canonicalNaN else add32 a (neg32 b)

/-- `mul32`: the exact product rounded once, its sign the exclusive or of the signs. -/
def mul32 (a b : Word) : Word :=
  let sign := signBit a != signBit b
  if isNaN32 a || isNaN32 b then canonicalNaN
  else if isInf32 a || isInf32 b then
    (if isZero32 a || isZero32 b then canonicalNaN else inf32 sign)
  else packSign sign (roundMag (units a * units b) (2 ^ 298))

/-- `div32`: the exact quotient rounded once; a nonzero finite value over zero is an infinity. -/
def div32 (a b : Word) : Word :=
  let sign := signBit a != signBit b
  if isNaN32 a || isNaN32 b then canonicalNaN
  else if isInf32 a then (if isInf32 b then canonicalNaN else inf32 sign)
  else if isInf32 b then packSign sign 0
  else if isZero32 b then (if isZero32 a then canonicalNaN else inf32 sign)
  else packSign sign (roundMag (units a) (units b))

/-- The order key of a pattern that is not a NaN: infinities included, the two zeros equal. -/
def orderKey (v : Word) : Int := if signBit v then -(magnitude v : Int) else magnitude v

/-- `lt32`: the ordered comparison, false when an operand is a NaN. -/
def lt32 (a b : Word) : Bool := !isNaN32 a && !isNaN32 b && decide (orderKey a < orderKey b)

/-- `ge32`: the ordered comparison, false when an operand is a NaN. -/
def ge32 (a b : Word) : Bool := !isNaN32 a && !isNaN32 b && decide (orderKey b ≤ orderKey a)

/-! ### Complex values (R21, 42_fft.md R162, R164) -/

/-- CZERO. -/
def czero : Complex32 := ⟨zero32, zero32⟩

/-- `cadd`. -/
def cadd (a b : Complex32) : Complex32 := ⟨add32 a.re b.re, add32 a.im b.im⟩

/-- `csub`. -/
def csub (a b : Complex32) : Complex32 := ⟨sub32 a.re b.re, sub32 a.im b.im⟩

/-- `conj`. -/
def conj32 (a : Complex32) : Complex32 := ⟨a.re, neg32 a.im⟩

/-- `cmul`, the twiddle multiplier (42_fft.md R162): four rounded products, then one rounded
subtraction and one rounded addition. -/
def cmul (w u : Complex32) : Complex32 :=
  ⟨sub32 (mul32 w.re u.re) (mul32 w.im u.im), add32 (mul32 w.re u.im) (mul32 w.im u.re)⟩

/-! ### Integers and fixed point (R14, R22) -/

/-- `clamp(v, lo, hi)` (R14). -/
def clampInt (v lo hi : Int) : Int := min (max v lo) hi

/-- `u32` of an integer (R14). -/
def u32OfInt (v : Int) : Word := BitVec.ofInt 32 v

/-- `s32`: a pattern read as two's complement (R14). -/
def s32 (v : Word) : Int := v.toInt

/-- `u32(clamp(v, -2^31, 2^31 - 1))`: saturation to 32 signed bits (43_envelope.md R194, R202). -/
def saturate32 (v : Int) : Word := u32OfInt (clampInt v (-(2 ^ 31)) (2 ^ 31 - 1))

/-- `trunc_div(a, b)`: the quotient rounded toward zero (R14). -/
def truncDiv (a : Int) (b : Nat) : Int := a.tdiv b

/-- The Q2.30 pattern of 1.0 (R22). -/
def oneQ30 : Word := 0x40000000

/-- `q30_to_f32(q) = f32(s32(q) / 2^30)` (R22). -/
def q30ToF32 (q : Word) : Word := f32OfRat (s32 q) (2 ^ 30)

/-- Imposes R11's range on a drawn pattern: a value in [-1.0, 1.0] is kept, bit for bit, either zero
included; any other pattern, a NaN among them, gives +0.0. So every permitted draw stays possible. -/
def unitRange (v : Word) : Word := if magnitude v ≤ 0x3F800000 then v else zero32

end Sys2Proof.Machine
end

