-- ==== Sys2Proof/Machine/State.lean ====
section
/-! DEFINITION. The machine's state (10_state.md), plain data: every register, the four stores no address
reaches, DMEM, and beside them the model's own fields (the events that wait at the bus, the last bus
response, the number of free values taken). Its reset (10_state.md R64). -/

namespace Sys2Proof.Machine

/-- Why the model stops with a fault. -/
inductive Fault where
  /-- A host access of another width than 32 bits, at an offset that is no multiple of 4, or at an
  unmapped offset: `raise BusError(addr)` (20_memory.md R73, R74). Raised by the bus; the spec calls
  it a fault of the host agent (00_scope.md R16). Safe: the block itself changes nothing. -/
  | busError (offset : Offset)
  /-- A host read or a transform's input read of a DMEM word that nothing has written since reset
  (70_reset_and_hazards.md R283). Raised by the bus and by FFT_FWD and FFT_INV. Safe: the hardware
  reads some value and goes on. -/
  | unwrittenDmem (offset : Nat)
deriving DecidableEq, Repr

/-- Why the model gives no transition. -/
inductive Refusal where
  /-- The command has no meaning in the model yet. Raised by `exec` alone. Safe. -/
  | notModelled (mnemonic : String)
  /-- RB_PUSH when `end_t` would reach 2^64, which is outside the spec (41_ring_buffer.md R141,
  93_implementation_defined.md U11). Raised by RB_PUSH. Safe: no transition is assumed. -/
  | pushCountExhausted
deriving DecidableEq, Repr

/-- The result codes 0 to 7; codes 8 to 15 are never written (60_exceptions.md R260). -/
inductive ResultCode where
  | ok | notAvailable | notFound | outTooShort | illegal | badArg | noContext | range
deriving DecidableEq, Repr

/-- STATUS (10_state.md R32): CODE and the sticky ERR. Its other bits read 0 and ignore writes. -/
structure Status where
  code : ResultCode
  err : Bool
deriving DecidableEq, Repr

/-- The transform context `(VALID = 1, b, P = 2^b, REV, TW)` (10_state.md R40 to R44). -/
structure FftContext where
  /-- FFT_CTRL.LOG2P, `b`. -/
  log2p : Nat
  /-- The bit-reversal table REV. -/
  rev : List Nat
  /-- The twiddle table TW. -/
  tw : List Complex32
deriving DecidableEq, Repr

/-- The transform unit: the context, absent while FFT_CTRL.VALID is 0, and the work buffer WB
(10_state.md R45), the elements past the list's end never written. -/
structure FftUnit where
  context : Option FftContext
  wb : List Complex32
deriving DecidableEq, Repr

/-- The ring buffer (10_state.md R47, R48). -/
structure RingBuffer where
  /-- Capacity `C`, RB_CAP. -/
  cap : Word
  startT : Time
  endT : Time
  /-- RBMEM: the slots written since reset, by rising slot index. -/
  slots : List (Nat × Word)
deriving DecidableEq, Repr

/-- The envelope states (10_state.md R49). -/
inductive EnvPhase where
  | silent | attack | decay | sustain | release
deriving DecidableEq, Repr

/-- The envelope (10_state.md R49 to R55). -/
structure Envelope where
  /-- ENV_STAT.STATE. -/
  phase : EnvPhase
  /-- ENV_STAT.SCHED. -/
  sched : Bool
  nextT : Time
  /-- ENV_LEVEL, Q2.30. -/
  level : Word
  /-- ENV_DELTA, Q2.30, signed. -/
  delta : Word
  attack : Word
  decay : Word
  /-- ENV_SUSTAIN, Q2.30. -/
  sustain : Word
  release : Word
  /-- ENV_IN; the channels from ENV_NCH on do not exist and stay 0. -/
  input : Vector Word 8
  /-- ENV_OUT; the channels from ENV_NCH on do not exist and stay 0. -/
  output : Vector Word 8
deriving DecidableEq, Repr

/-- The waveforms (10_state.md R56). -/
inductive Waveform where
  | sine | saw | square | triangle | whiteNoise | pulseTrain
deriving DecidableEq, Repr

/-- The oscillator (10_state.md R56 to R61). -/
structure Oscillator where
  /-- OSC_CFG.WAVE. -/
  wave : Waveform
  /-- OSC_CFG.AA. -/
  aa : Bool
  phase : Word
  inc : Word
  transpose : Word
  bend : Word
  lfoInt : Word
  prev : Word
  out : Word
deriving DecidableEq, Repr

/-- The bus side, the model's own: the events that have not yet been served, in arrival order
(20_memory.md R80), and the response of the latest access. -/
structure HostPort where
  pending : List HostEvent
  response : Option BusResponse
deriving DecidableEq, Repr

/-- The state of the block. -/
structure State where
  /-- The implementation parameters, read in PARAM0 to PARAM3 (10_state.md R35); nothing changes them. -/
  params : Params
  /-- ARG0 to ARG3 and RES0 (10_state.md R30). -/
  arg0 : Word
  arg1 : Word
  arg2 : Word
  arg3 : Word
  res0 : Word
  status : Status
  /-- TIME (10_state.md R37). -/
  time : Time
  fft : FftUnit
  ring : RingBuffer
  env : Envelope
  osc : Oscillator
  /-- DMEM's bytes by window offset (10_state.md R46): the bytes written since reset, by rising offset;
  an unlisted byte has no value. -/
  dmem : List Host.Cell
  /-- How many free values have been taken, the model's own: the index of the next one. -/
  draws : Nat
  port : HostPort
deriving DecidableEq, Repr

/-- The ring buffer after reset: empty, capacity RB_MAX (R64). -/
def RingBuffer.reset (p : Params) : RingBuffer where
  cap := BitVec.ofNat 32 p.rbMax
  startT := 0
  endT := 0
  slots := []

/-- The envelope after reset (R64). -/
def Envelope.reset : Envelope where
  phase := .silent
  sched := false
  nextT := 0
  level := 0
  delta := 0
  attack := 0
  decay := 0
  sustain := 0
  release := 0
  input := Vector.replicate 8 0
  output := Vector.replicate 8 0

/-- The oscillator after reset: Sine, naive, multipliers 1.0 (R64). -/
def Oscillator.reset : Oscillator where
  wave := .sine
  aa := false
  phase := zero32
  inc := zero32
  transpose := one32
  bend := one32
  lfoInt := zero32
  prev := zero32
  out := zero32

/-- The block right after reset under the parameters `p` (R64), nothing waiting at the bus. -/
def State.resetWith (p : Params) : State where
  params := p
  arg0 := 0
  arg1 := 0
  arg2 := 0
  arg3 := 0
  res0 := 0
  status := { code := .ok, err := false }
  time := 0
  fft := { context := none, wb := [] }
  ring := RingBuffer.reset p
  env := Envelope.reset
  osc := Oscillator.reset
  dmem := []
  draws := 0
  port := { pending := [], response := none }

/-- The block right after reset, with the parameter set PS of 95_test_vectors.md (log entry 1). -/
def State.reset : State := State.resetWith Params.ps

end Sys2Proof.Machine
end

