-- ==== Sys2Proof/Machine/Flags.lean ====
section
/-! DEFINITION. The status flags, the only flags of the block (10_state.md R63): the result codes'
numbers, `status(code)` (60_exceptions.md R262), and the words in which STATUS, FFT_CTRL, ENV_STAT and
OSC_CFG are read. -/

namespace Sys2Proof.Machine

/-- The code's number in STATUS.CODE (60_exceptions.md R260). -/
def ResultCode.number : ResultCode → Nat
  | .ok => 0
  | .notAvailable => 1
  | .notFound => 2
  | .outTooShort => 3
  | .illegal => 4
  | .badArg => 5
  | .noContext => 6
  | .range => 7

/-- The codes that set ERR are those from 3 on (R262). -/
def ResultCode.setsErr (c : ResultCode) : Bool := decide (3 ≤ c.number)

/-- `status(code)` (R262): CODE takes the code; ERR is set by a code from 3 on and else kept. -/
def Status.record (st : Status) (c : ResultCode) : Status where
  code := c
  err := st.err || c.setsErr

/-- A host write to STATUS (10_state.md R32): bit 8 = 1 clears ERR, every other bit is ignored. -/
def Status.hostWrite (st : Status) (v : Word) : Status where
  code := st.code
  err := st.err && !v.getLsbD 8

/-- A flag as a number. -/
def flagNat (b : Bool) : Nat := if b then 1 else 0

/-- STATUS as read: CODE in [3:0], ERR in [8] (R32). -/
def Status.toWord (st : Status) : Word := BitVec.ofNat 32 (st.code.number + 2 ^ 8 * flagNat st.err)

/-- FFT_CTRL as read: VALID in [0], LOG2P in [12:8], both 0 without a context (10_state.md R40). -/
def FftUnit.ctrlWord (u : FftUnit) : Word :=
  match u.context with
  | none => 0
  | some c => BitVec.ofNat 32 (1 + 2 ^ 8 * c.log2p)

/-- FFT_SIZE as read: the padded size, or 0 without a context (10_state.md R41). -/
def FftUnit.sizeWord (u : FftUnit) : Word :=
  match u.context with
  | none => 0
  | some c => BitVec.ofNat 32 (2 ^ c.log2p)

/-- The state codes of ENV_STAT.STATE (10_state.md R49). -/
def EnvPhase.number : EnvPhase → Nat
  | .silent => 0
  | .attack => 1
  | .decay => 2
  | .sustain => 3
  | .release => 4

/-- ENV_STAT as read: STATE in [2:0], SCHED in [3] (10_state.md R49, R50). -/
def Envelope.statWord (e : Envelope) : Word := BitVec.ofNat 32 (e.phase.number + 2 ^ 3 * flagNat e.sched)

/-- The waveform codes of OSC_CFG.WAVE (10_state.md R56). -/
def Waveform.number : Waveform → Nat
  | .sine => 0
  | .saw => 1
  | .square => 2
  | .triangle => 3
  | .whiteNoise => 4
  | .pulseTrain => 5

/-- The waveform a WAVE field selects; codes 6 and 7 select none (30_encoding.md R92, R97). -/
def waveformOfCode (code : BitVec 3) : Option Waveform :=
  match code.toNat with
  | 0 => some .sine
  | 1 => some .saw
  | 2 => some .square
  | 3 => some .triangle
  | 4 => some .whiteNoise
  | 5 => some .pulseTrain
  | _ => none

/-- OSC_CFG as read: WAVE in [2:0], AA in [3] (10_state.md R56). -/
def Oscillator.cfgWord (o : Oscillator) : Word := BitVec.ofNat 32 (o.wave.number + 2 ^ 3 * flagNat o.aa)

end Sys2Proof.Machine
end

