-- ==== Sys2Proof/Machine/Ops.lean ====
section
/-! DEFINITION. The shared operations over memory and registers: the sparse stores in canonical form, the
words of DMEM (20_memory.md R71, R77), the ring-buffer slots, the envelope frames, the report of a
result (60_exceptions.md R262), the illegal word (30_encoding.md R97), reset (70_reset_and_hazards.md
R280) and the free draws. The block takes no trap and returns from none (60_exceptions.md R267, R268):
`State.report` is all that a failing command does. -/

namespace Sys2Proof.Machine

/-! ### Sparse stores: lists of keyed values, keys strictly rising -/

/-- The value at a key, if the store lists one. -/
def findKey {β : Type} : List (Nat × β) → Nat → Option β
  | [], _ => none
  | (k, v) :: rest, a => if a = k then some v else findKey rest a

/-- The store with this value at this key; rising keys stay rising. -/
def putKey {β : Type} : List (Nat × β) → Nat → β → List (Nat × β)
  | [], a, b => [(a, b)]
  | (k, v) :: rest, a, b =>
    if a < k then (a, b) :: (k, v) :: rest
    else if a = k then (a, b) :: rest
    else (k, v) :: putKey rest a b

/-- Every key of the store is above `a`. -/
def keysAbove {β : Type} (a : Nat) : List (Nat × β) → Bool
  | [] => true
  | (k, _) :: rest => decide (a < k) && keysAbove a rest

/-- The canonical form: the keys strictly rise. -/
def keysRise {β : Type} : List (Nat × β) → Bool
  | [] => true
  | (k, _) :: rest => keysAbove k rest && keysRise rest

/-! ### DMEM -/

/-- DMEM as a store of bytes by window offset. An unlisted byte has no value: nothing has written it
since reset (10_state.md R46; log entry 2). -/
abbrev Memory := List Host.Cell

/-- DMEM's canonical form: offsets strictly rising. No entry can equal what an unlisted offset reads as,
since that is no value. -/
def Memory.wf (m : Memory) : Bool := keysRise m

/-- The byte at an offset, if anything has written it. -/
def Memory.readByte (m : Memory) (a : Nat) : Option Byte := findKey m a

/-- One byte stored. -/
def Memory.writeByte (m : Memory) (a : Nat) (b : Byte) : Memory := putKey m a b

/-- Byte `k` of a word: bits [8k+7:8k] (20_memory.md R71). -/
def byteOf (v : Word) (k : Nat) : Byte := v.extractLsb' (8 * k) 8

/-- A word from its four bytes, the least significant first (20_memory.md R71). -/
def wordOfBytes (b0 b1 b2 b3 : Byte) : Word := b3 ++ b2 ++ b1 ++ b0

/-- The little-endian word at an offset, if all of it is written. -/
def Memory.readWord (m : Memory) (a : Nat) : Option Word :=
  match m.readByte a, m.readByte (a + 1), m.readByte (a + 2), m.readByte (a + 3) with
  | some b0, some b1, some b2, some b3 => some (wordOfBytes b0 b1 b2 b3)
  | _, _, _, _ => none

/-- A little-endian word stored (20_memory.md R71). -/
def Memory.writeWord (m : Memory) (a : Nat) (v : Word) : Memory :=
  (((m.writeByte a (byteOf v 0)).writeByte (a + 1) (byteOf v 1)).writeByte (a + 2) (byteOf v 2)).writeByte
    (a + 3) (byteOf v 3)

/-- The offset where DMEM begins (10_state.md R36). -/
def dmemBase : Nat := 0x1000000

/-- The offset of `DMEM[i].re` (10_state.md R46). -/
def reOffset (i : Nat) : Nat := dmemBase + 8 * i

/-- The offset of `DMEM[i].im` (10_state.md R46). -/
def imOffset (i : Nat) : Nat := dmemBase + 8 * i + 4

/-- A DMEM word, or the fault of a word nothing has written (70_reset_and_hazards.md R283). -/
def Memory.loadWord (m : Memory) (a : Nat) : Except Fault Word :=
  match m.readWord a with
  | some v => .ok v
  | none => .error (.unwrittenDmem a)

/-- `DMEM[i]` as a transform reads it, the real part first. -/
def Memory.loadElement (m : Memory) (i : Nat) : Except Fault Complex32 :=
  match m.loadWord (reOffset i) with
  | .error f => .error f
  | .ok re =>
    match m.loadWord (imOffset i) with
    | .error f => .error f
    | .ok im => .ok ⟨re, im⟩

/-- `DMEM[i] <- x`. -/
def Memory.storeElement (m : Memory) (i : Nat) (x : Complex32) : Memory :=
  (m.writeWord (reOffset i) x.re).writeWord (imOffset i) x.im

/-- `DMEM[i], DMEM[i+1], … <- ys`, in order. -/
def Memory.storeElements (m : Memory) : Nat → List Complex32 → Memory
  | _, [] => m
  | i, y :: ys => Memory.storeElements (m.storeElement i y) (i + 1) ys

/-! ### Ring-buffer slots (10_state.md R48) -/

/-- `RBMEM[j]`: a slot nothing has written holds an unspecified value (log entry 5). -/
def RingBuffer.readSlot (r : RingBuffer) (j : Nat) : Word := (findKey r.slots j).getD (Config.unwrittenSlot j)

/-- `RBMEM[j] <- v`. -/
def RingBuffer.writeSlot (r : RingBuffer) (j : Nat) (v : Word) : RingBuffer :=
  { r with slots := putKey r.slots j v }

/-! ### Envelope frames (10_state.md R55) -/

/-- Channel `c` of a frame; a channel past the eighth does not exist. -/
def frameGet (f : Vector Word 8) (c : Nat) : Word := f.toList.getD c 0

/-- The frame with channel `c` replaced; a channel past the eighth does not exist. -/
def frameSet (f : Vector Word 8) (c : Nat) (v : Word) : Vector Word 8 := f.setIfInBounds c v

/-- The frame with channels 0 to `n - 1` replaced by `g` of their numbers. -/
def frameFill (f : Vector Word 8) (n : Nat) (g : Nat → Word) : Vector Word 8 :=
  (List.range n).foldl (fun acc c => frameSet acc c (g c)) f

/-! ### Results -/

/-- `status(code)` (60_exceptions.md R262): every command ends with exactly one (40_control.md R112). -/
def State.report (s : State) (c : ResultCode) : State := { s with status := s.status.record c }

/-- `R[RES0] <- v`. -/
def State.setRes (s : State) (v : Word) : State := { s with res0 := v }

/-- What a word that decodes to ILLEGAL executes as (30_encoding.md R97): `status(ILLEGAL)`, nothing
else. -/
def State.illegal (s : State) : State := s.report .illegal

/-- The bus response of an access that completed. -/
def State.respond (s : State) (r : BusResponse) : State := { s with port := { s.port with response := some r } }

/-! ### Reset and free draws -/

/-- The reset event (70_reset_and_hazards.md R280): every piece of the block's state takes its reset
value; the parameters, the events still waiting at the bus and the count of free draws are not the
block's state and stay. -/
def State.afterReset (s : State) : State :=
  { State.resetWith s.params with draws := s.draws, port := s.port }

/-- One white-noise sample, NOISE (00_scope.md R11): the draw of index `n`, free in [-1.0, 1.0]. -/
def noiseSample (n : Nat) : Word := unitRange (Config.noiseRaw n)

/-- A free value is taken: the next draw has the next index. -/
def State.countDraw (s : State) : State := { s with draws := s.draws + 1 }

/-! ### The window (20_memory.md R78) -/

/-- The offset inside the window of an address of the host, if the window holds it. -/
def Params.windowOffset (p : Params) (address : Nat) : Option Offset :=
  if p.blockBase ≤ address ∧ address < p.blockBase + 2 ^ 25 then
    some (BitVec.ofNat 25 (address - p.blockBase))
  else none

end Sys2Proof.Machine
end

