-- ==== Sys2Proof/Machine/Operands.lean ====
section
/-! DEFINITION. The operand forms of 30_encoding.md R94: unsigned 32-bit integers, 64-bit times in two
ARG registers, binary32 patterns and DMEM element indices, and the operands each command reads. -/

namespace Sys2Proof.Machine

/-- A `u32` operand, also a DMEM element index. -/
def operandU32 (w : Word) : Nat := w.toNat

/-- A `t64` operand, `{ARG(i+1), ARGi}`. -/
def operandT64 (lo hi : Word) : Time := hi ++ lo

/-- An `f32` operand: the register's pattern, bit for bit. -/
def operandF32 (w : Word) : Word := w

/-- The operands of FFT_FWD and FFT_INV. -/
structure TransformOperands where
  /-- ARG0, the first input element. -/
  src : Nat
  /-- ARG1, the input length `L`. -/
  len : Nat
  /-- ARG2, the first output element. -/
  dst : Nat
  /-- ARG3, the output length `M`. -/
  outLen : Nat
deriving DecidableEq, Repr

/-- The operands of a transform command as the ARG registers hold them. -/
def State.transformOperands (s : State) : TransformOperands where
  src := operandU32 s.arg0
  len := operandU32 s.arg1
  dst := operandU32 s.arg2
  outLen := operandU32 s.arg3

/-- The time operand of RB_GET and RB_UPDATE. -/
def State.timeOperand (s : State) : Time := operandT64 s.arg0 s.arg1

/-- The modulation input of OSC_TICK: ARG0 when LFO = 1, none otherwise. -/
def State.lfoOperand (s : State) (lfo : Bool) : Option Word := if lfo then some (operandF32 s.arg0) else none

end Sys2Proof.Machine
end

