-- ==== Sys2Proof/Machine/Bus.lean ====
section
/-! DEFINITION. The host's side of the block: the register map (10_state.md R36), host reads and writes
(40_control.md R110, R111), the bus checks (20_memory.md R73, R74; 60_exceptions.md R264), the execution
of a command word (40_control.md R112) and the reset event (70_reset_and_hazards.md R280). What runs a
decoded command is a parameter here, `exec` in Step.lean. -/

namespace Sys2Proof.Machine

/-- The mapped registers and DMEM words (10_state.md R36). -/
inductive Reg where
  | cmd | status | arg0 | arg1 | arg2 | arg3 | res0 | timeLo | timeHi
  | param0 | param1 | param2 | param3 | fftCtrl | fftSize
  | rbCap | rbStartLo | rbStartHi | rbEndLo | rbEndHi
  | envStat | envLevel | envDelta | envNextLo | envNextHi
  | envAttack | envDecay | envSustain | envRelease
  | envIn (c : Nat) | envOut (c : Nat)
  | oscCfg | oscPhase | oscInc | oscTranspose | oscBend | oscLfoInt | oscPrev | oscOut
  | dmemRe (i : Nat) | dmemIm (i : Nat)
deriving DecidableEq, Repr

/-- The fixed rows of the register map (10_state.md R36). -/
def registerMap : List (Nat × Reg) :=
  [(0x000, .cmd), (0x004, .status), (0x008, .arg0), (0x00C, .arg1), (0x010, .arg2), (0x014, .arg3),
   (0x018, .res0), (0x020, .timeLo), (0x024, .timeHi),
   (0x030, .param0), (0x034, .param1), (0x038, .param2), (0x03C, .param3),
   (0x100, .fftCtrl), (0x104, .fftSize),
   (0x200, .rbCap), (0x208, .rbStartLo), (0x20C, .rbStartHi), (0x210, .rbEndLo), (0x214, .rbEndHi),
   (0x300, .envStat), (0x304, .envLevel), (0x308, .envDelta), (0x310, .envNextLo), (0x314, .envNextHi),
   (0x318, .envAttack), (0x31C, .envDecay), (0x320, .envSustain), (0x324, .envRelease),
   (0x400, .oscCfg), (0x404, .oscPhase), (0x408, .oscInc), (0x40C, .oscTranspose), (0x410, .oscBend),
   (0x414, .oscLfoInt), (0x418, .oscPrev), (0x41C, .oscOut)]

/-- What an aligned offset names, if it is mapped (10_state.md R36, 20_memory.md R74): an ENV_IN or
ENV_OUT channel below ENV_NCH, a DMEM word of an element below DMEM_SIZE, or a fixed row. -/
def regAt (p : Params) (a : Nat) : Option Reg :=
  if 0x340 ≤ a ∧ a < 0x340 + 4 * p.envNch then some (.envIn ((a - 0x340) / 4))
  else if 0x360 ≤ a ∧ a < 0x360 + 4 * p.envNch then some (.envOut ((a - 0x360) / 4))
  else if dmemBase ≤ a ∧ a < dmemBase + 8 * p.dmemSize then
    if (a - dmemBase) % 8 = 0 then some (.dmemRe ((a - dmemBase) / 8))
    else some (.dmemIm ((a - dmemBase) / 8))
  else findKey registerMap a

/-- Bits [31:0] of a 64-bit value, the `_LO` register (20_memory.md R71). -/
def loWord (t : Time) : Word := t.extractLsb' 0 32

/-- Bits [63:32] of a 64-bit value, the `_HI` register (20_memory.md R71). -/
def hiWord (t : Time) : Word := t.extractLsb' 32 32

/-- The 32-bit content of a register or DMEM word (40_control.md R111): CMD reads 0 (10_state.md R34),
PARAM0 packs LOG2_PMAX and ENV_NCH (10_state.md R35), and a DMEM word nothing has written faults
(70_reset_and_hazards.md R283). No read has a side effect (20_memory.md R76). -/
def readReg (s : State) : Reg → Except Fault Word
  | .cmd => .ok 0
  | .status => .ok s.status.toWord
  | .arg0 => .ok s.arg0
  | .arg1 => .ok s.arg1
  | .arg2 => .ok s.arg2
  | .arg3 => .ok s.arg3
  | .res0 => .ok s.res0
  | .timeLo => .ok (loWord s.time)
  | .timeHi => .ok (hiWord s.time)
  | .param0 => .ok (BitVec.ofNat 32 (s.params.log2Pmax % 2 ^ 5 + 2 ^ 8 * (s.params.envNch % 2 ^ 8)))
  | .param1 => .ok (BitVec.ofNat 32 s.params.dmemSize)
  | .param2 => .ok (BitVec.ofNat 32 s.params.rbMax)
  | .param3 => .ok (BitVec.ofNat 32 s.params.sampleRate)
  | .fftCtrl => .ok s.fft.ctrlWord
  | .fftSize => .ok s.fft.sizeWord
  | .rbCap => .ok s.ring.cap
  | .rbStartLo => .ok (loWord s.ring.startT)
  | .rbStartHi => .ok (hiWord s.ring.startT)
  | .rbEndLo => .ok (loWord s.ring.endT)
  | .rbEndHi => .ok (hiWord s.ring.endT)
  | .envStat => .ok s.env.statWord
  | .envLevel => .ok s.env.level
  | .envDelta => .ok s.env.delta
  | .envNextLo => .ok (loWord s.env.nextT)
  | .envNextHi => .ok (hiWord s.env.nextT)
  | .envAttack => .ok s.env.attack
  | .envDecay => .ok s.env.decay
  | .envSustain => .ok s.env.sustain
  | .envRelease => .ok s.env.release
  | .envIn c => .ok (frameGet s.env.input c)
  | .envOut c => .ok (frameGet s.env.output c)
  | .oscCfg => .ok s.osc.cfgWord
  | .oscPhase => .ok s.osc.phase
  | .oscInc => .ok s.osc.inc
  | .oscTranspose => .ok s.osc.transpose
  | .oscBend => .ok s.osc.bend
  | .oscLfoInt => .ok s.osc.lfoInt
  | .oscPrev => .ok s.osc.prev
  | .oscOut => .ok s.osc.out
  | .dmemRe i => Memory.loadWord s.dmem (reOffset i)
  | .dmemIm i => Memory.loadWord s.dmem (imOffset i)

/-- The legal sustain level a write of `v` stores: `clamp(s32(v), 0, 0x40000000)` (10_state.md R54). -/
def clampSustain (v : Word) : Word := u32OfInt (clampInt (s32 v) 0 0x40000000)

/-- A host write to a register other than CMD, or to a DMEM word (40_control.md R110): the RW registers
store the word, STATUS clears ERR by bit 8, ENV_SUSTAIN clamps, and the RO registers ignore the write
(10_state.md R38). CMD holds no state of its own (10_state.md R34). -/
def writeReg (s : State) (v : Word) : Reg → State
  | .cmd => s
  | .status => { s with status := s.status.hostWrite v }
  | .arg0 => { s with arg0 := v }
  | .arg1 => { s with arg1 := v }
  | .arg2 => { s with arg2 := v }
  | .arg3 => { s with arg3 := v }
  | .envAttack => { s with env := { s.env with attack := v } }
  | .envDecay => { s with env := { s.env with decay := v } }
  | .envSustain => { s with env := { s.env with sustain := clampSustain v } }
  | .envRelease => { s with env := { s.env with release := v } }
  | .envIn c => { s with env := { s.env with input := frameSet s.env.input c v } }
  | .oscLfoInt => { s with osc := { s.osc with lfoInt := v } }
  | .dmemRe i => { s with dmem := Memory.writeWord s.dmem (reOffset i) v }
  | .dmemIm i => { s with dmem := Memory.writeWord s.dmem (imOffset i) v }
  | .res0 => s
  | .timeLo => s
  | .timeHi => s
  | .param0 => s
  | .param1 => s
  | .param2 => s
  | .param3 => s
  | .fftCtrl => s
  | .fftSize => s
  | .rbCap => s
  | .rbStartLo => s
  | .rbStartHi => s
  | .rbEndLo => s
  | .rbEndHi => s
  | .envStat => s
  | .envLevel => s
  | .envDelta => s
  | .envNextLo => s
  | .envNextHi => s
  | .envOut _ => s
  | .oscCfg => s
  | .oscPhase => s
  | .oscInc => s
  | .oscTranspose => s
  | .oscBend => s
  | .oscPrev => s
  | .oscOut => s

/-- What runs a decoded command. -/
abbrev Runner := Instr → State → Host.Outcome State Fault Refusal

/-- `execute(decode(w))` (40_control.md R112): the decoded command, or ILLEGAL (30_encoding.md R97). -/
def executeWord (run : Runner) (w : Word) (s : State) : Host.Outcome State Fault Refusal :=
  match decode w with
  | .ok i => run i s
  | .error _ => .next s.illegal

/-- The register an access reaches, or none where the bus answers with an error: the access is not 32
bits wide, not at a multiple of 4, or at an unmapped offset (20_memory.md R73, R74). -/
def accessTarget (p : Params) (offset : Offset) (bytes : Nat) : Option Reg :=
  if bytes = 4 ∧ offset.toNat % 4 = 0 then regAt p offset.toNat else none

/-- A host read (40_control.md R111). -/
def hostRead (offset : Offset) (bytes : Nat) (s : State) : Host.Outcome State Fault Refusal :=
  match accessTarget s.params offset bytes with
  | none => .fault (.busError offset)
  | some r =>
    match readReg s r with
    | .ok v => .next (s.respond (.data v))
    | .error f => .fault f

/-- A host write (40_control.md R110): a write to CMD executes the word as one indivisible step
(10_state.md R33). -/
def hostWrite (run : Runner) (offset : Offset) (bytes : Nat) (v : Word) (s : State) :
    Host.Outcome State Fault Refusal :=
  match accessTarget s.params offset bytes with
  | none => .fault (.busError offset)
  | some .cmd => executeWord run v (s.respond .ack)
  | some r => .next ((writeReg s v r).respond .ack)

/-- A command that reset abandons (70_reset_and_hazards.md R280): the state is the reset state, and the
stalled access gets a free response (log entry 6). -/
def abandon (s : State) : State := (s.afterReset.respond (Config.abandonedResponse s.draws)).countDraw

/-- One event at the bus. -/
def serve (run : Runner) (e : HostEvent) (s : State) : Host.Outcome State Fault Refusal :=
  match e with
  | .read offset bytes => hostRead offset bytes s
  | .write offset bytes v => hostWrite run offset bytes v s
  | .reset => .next s.afterReset
  | .resetDuring _ => .next (abandon s)

/-- The waiting events replaced. -/
def State.setPending (s : State) (es : List HostEvent) : State := { s with port := { s.port with pending := es } }

/-- The next event in arrival order is served (20_memory.md R80); with none waiting the block waits
(70_reset_and_hazards.md R281). -/
def nextEvent (run : Runner) (s : State) : Host.Outcome State Fault Refusal :=
  match s.port.pending with
  | [] => .next s
  | e :: es => serve run e (s.setPending es)

/-- The CMD write of a word. -/
def cmdWrite (w : Word) : HostEvent := .write 0 4 w

end Sys2Proof.Machine
end

