-- ==== Sys2Proof/Machine/Control.lean ====
section
/-! DEFINITION. The control commands NOP and STEP (40_control.md). -/

namespace Sys2Proof.Machine

/-- NOP (40_control.md R115). -/
def execNop (s : State) : Host.Outcome State Fault Refusal := .next (s.report .ok)

/-- `TIME <- u64(TIME + 1)` (10_state.md R37, 40_control.md R117). -/
def State.advanceTime (s : State) : State := { s with time := s.time + 1 }

/-- STEP (40_control.md R116). At 2^64 - 1 TIME wraps to 0 (R117; log entry 7). -/
def execStep (s : State) : Host.Outcome State Fault Refusal := .next (s.advanceTime.report .ok)

end Sys2Proof.Machine
end

