-- ==== Sys2Proof/Machine/Env.lean ====
section
/-! DEFINITION. The ADSR envelope (43_envelope.md): state entry, the note events and the tick. -/

namespace Sys2Proof.Machine

/-- `eff(d) = max(1, d)` (43_envelope.md R192). -/
def effDuration (d : Word) : Nat := max 1 d.toNat

/-- The row of R193 for a state that schedules a transition: its target level and its duration
register; none for Sustain and Silent. -/
def Envelope.ramp (e : Envelope) : EnvPhase → Option (Word × Word)
  | .attack => some (oneQ30, e.attack)
  | .decay => some (e.sustain, e.decay)
  | .release => some (0, e.release)
  | .sustain => none
  | .silent => none

/-- The per-tick delta of a ramp from `level` to `target` in `d` ticks (43_envelope.md R194). -/
def rampDelta (target level : Word) (d : Nat) : Word := saturate32 (truncDiv (s32 target - s32 level) d)

/-- `u64(T + d)` (43_envelope.md R195). -/
def scheduleAt (t : Time) (d : Nat) : Time := BitVec.ofNat 64 (t.toNat + d)

/-- `enter(s, T)` (43_envelope.md R195). ENV_LEVEL is not written. -/
def Envelope.enter (e : Envelope) (p : EnvPhase) (t : Time) : Envelope :=
  match e.ramp p with
  | none => { e with phase := p, delta := 0, sched := false, nextT := 0 }
  | some (target, duration) =>
    { e with
      phase := p
      delta := rampDelta target e.level (effDuration duration)
      nextT := scheduleAt t (effDuration duration)
      sched := true }

/-- The successor of a state (43_envelope.md R196). -/
def EnvPhase.succ : EnvPhase → EnvPhase
  | .attack => .decay
  | .decay => .sustain
  | .sustain => .release
  | .release => .silent
  | .silent => .silent

/-- The scheduled transition, if it is due at this tick: exact equality, only with SCHED = 1
(43_envelope.md R201). -/
def Envelope.transition (e : Envelope) (t : Time) : Envelope :=
  if e.sched && decide (t = e.nextT) then e.enter e.phase.succ t else e

/-- The level addition, saturating (43_envelope.md R202). -/
def Envelope.addDelta (e : Envelope) : Envelope :=
  { e with level := saturate32 (s32 e.level + s32 e.delta) }

/-- `ENV_OUT[c] <- mul32(ENV_IN[c], q30_to_f32(ENV_LEVEL))` for every channel (43_envelope.md R200). -/
def Envelope.applyLevel (e : Envelope) (nch : Nat) : Envelope :=
  { e with output := frameFill e.output nch (fun c => mul32 (frameGet e.input c) (q30ToF32 e.level)) }

/-- One processed frame (43_envelope.md R200). -/
def Envelope.tick (e : Envelope) (nch : Nat) (t : Time) : Envelope := ((e.transition t).addDelta).applyLevel nch

/-- The envelope replaced. -/
def State.setEnv (s : State) (e : Envelope) : State := { s with env := e }

/-- ENV_NOTE_DOWN (43_envelope.md R198). -/
def execEnvNoteDown (s : State) : Host.Outcome State Fault Refusal :=
  .next ((s.setEnv (s.env.enter .attack s.time)).report .ok)

/-- ENV_NOTE_UP (43_envelope.md R199). -/
def execEnvNoteUp (s : State) : Host.Outcome State Fault Refusal :=
  .next ((s.setEnv (s.env.enter .release s.time)).report .ok)

/-- ENV_TICK (43_envelope.md R200). -/
def execEnvTick (s : State) : Host.Outcome State Fault Refusal :=
  .next ((s.setEnv (s.env.tick s.params.envNch s.time)).report .ok)

end Sys2Proof.Machine
end

