-- ==== Sys2Proof/Machine/Elementary.lean ====
section
/-! DEFINITION. The correctly rounded real functions of 00_scope.md R19 and the twiddle factors of
42_fft.md R160. A real number is enclosed between two integers in units of 2^-384; when both ends of
the enclosure round to one binary32 pattern, that pattern is the rounding of the real number between
them. Otherwise an exact floor of the number decides (log entry 3). -/

namespace Sys2Proof.Machine

/-- An enclosure of a real number `x`: `lo ≤ x · 2^384 ≤ hi`. -/
structure Enclosure where
  lo : Int
  hi : Int
deriving DecidableEq, Repr

/-- The fixed-point precision of the enclosures, in bits. -/
def encBits : Nat := 384

/-- One in units of an enclosure, 2^384. -/
def encScale : Nat := 2 ^ 384

/-- The number of terms of the exponential series an enclosure takes: at arguments of absolute value at
most 1 the terms after these sum to less than 2^-384. -/
def expTerms : Nat := 84

/-- The least integer not below `a / d`. -/
def ceilDiv (a : Int) (d : Nat) : Int := -((-a) / (d : Int))

/-- The exact integer `n`. -/
def encInt (n : Int) : Enclosure := ⟨n * encScale, n * encScale⟩

/-- The rational `n / d`. -/
def encRat (n : Int) (d : Nat) : Enclosure := ⟨n * encScale / (d : Int), ceilDiv (n * encScale) d⟩

/-- The sum. -/
def encAdd (a b : Enclosure) : Enclosure := ⟨a.lo + b.lo, a.hi + b.hi⟩

/-- The difference. -/
def encSub (a b : Enclosure) : Enclosure := ⟨a.lo - b.hi, a.hi - b.lo⟩

/-- The product: the extreme products of the ends, rounded outward. -/
def encMul (a b : Enclosure) : Enclosure :=
  ⟨min (min (a.lo * b.lo) (a.lo * b.hi)) (min (a.hi * b.lo) (a.hi * b.hi)) / (encScale : Int),
   ceilDiv (max (max (a.lo * b.lo) (a.lo * b.hi)) (max (a.hi * b.lo) (a.hi * b.hi))) encScale⟩

/-- The quotient by a positive integer, rounded outward. -/
def encDivNat (a : Enclosure) (d : Nat) : Enclosure := ⟨a.lo / (d : Int), ceilDiv a.hi d⟩

/-- The enclosure widened by one unit on each side. -/
def encWiden (a : Enclosure) : Enclosure := ⟨a.lo - 1, a.hi + 1⟩

/-! ### The exponential series -/

/-- `1 + x/j·(1 + x/(j+1)·(1 + …))` to `n` nested factors: with `j = 1` the exponential series of `x` up
to `x^n / n!`. -/
def expSeries (x : Enclosure) : Nat → Nat → Enclosure
  | 0, _ => encInt 1
  | n + 1, j => encAdd (encInt 1) (encDivNat (encMul x (expSeries x n (j + 1))) j)

/-- The same series at the imaginary argument `i·x`: its real and imaginary parts. -/
def cisSeries (x : Enclosure) : Nat → Nat → Enclosure × Enclosure
  | 0, _ => (encInt 1, encInt 0)
  | n + 1, j =>
    let z := cisSeries x n (j + 1)
    (encSub (encInt 1) (encDivNat (encMul x z.2) j), encDivNat (encMul x z.1) j)

/-- `exp x` for `|x| ≤ 1`. -/
def encExp (x : Enclosure) : Enclosure := encWiden (expSeries x expTerms 1)

/-- `(cos x, sin x)` for `|x| ≤ 1`. -/
def encCis (x : Enclosure) : Enclosure × Enclosure :=
  let z := cisSeries x expTerms 1
  (encWiden z.1, encWiden z.2)

/-- `(cos 2x, sin 2x)` from `(cos x, sin x)`. -/
def doubleAngle (z : Enclosure × Enclosure) : Enclosure × Enclosure :=
  let m := encMul z.1 z.2
  (encSub (encMul z.1 z.1) (encMul z.2 z.2), encAdd m m)

/-- The angle doubled `n` times. -/
def doubleAngles : Nat → Enclosure × Enclosure → Enclosure × Enclosure
  | 0, z => z
  | n + 1, z => doubleAngles n (doubleAngle z)

/-- `(cos (n/d), sin (n/d))` for `n/d ≥ 0`: the angle is halved until it is below 1, and the series'
value doubled back as often. -/
def encCisRat (n d : Nat) : Enclosure × Enclosure :=
  let h := Nat.log2 (n / d) + 1
  doubleAngles h (encCis (encRat n (d * 2 ^ h)))

/-! ### π and ln 2 -/

/-- `1/d - 1/(3·d^3) + 1/(5·d^5) - …`, the terms with exponents `2j+1, …, 2(j+n)-1` of the arctangent
series of `1/d`, each with the sign the series gives it. -/
def arctanInvTerms (d : Nat) : Nat → Nat → Enclosure
  | 0, _ => encInt 0
  | n + 1, j =>
    encAdd (encRat (if j % 2 = 0 then 1 else -1) ((2 * j + 1) * d ^ (2 * j + 1)))
      (arctanInvTerms d n (j + 1))

/-- `arctan (1/d)` for `d ≥ 5`: after 90 terms the rest is below 2^-384. -/
def encArctanInv (d : Nat) : Enclosure := encWiden (arctanInvTerms d 90 0)

/-- Four copies of an enclosure's number. -/
def encFour (a : Enclosure) : Enclosure := ⟨4 * a.lo, 4 * a.hi⟩

/-- π by Machin's formula, `π/4 = 4·arctan(1/5) - arctan(1/239)`. -/
def encPi : Enclosure := encFour (encSub (encFour (encArctanInv 5)) (encArctanInv 239))

/-- `1/(j·2^j) + … `, `n` terms of the series of `ln 2 = -ln(1 - 1/2)`. -/
def lnTwoTerms : Nat → Nat → Enclosure
  | 0, _ => encInt 0
  | n + 1, j => encAdd (encRat 1 (j * 2 ^ j)) (lnTwoTerms n (j + 1))

/-- `ln 2`: after 400 terms the rest is below 2^-384. -/
def encLnTwo : Enclosure := encWiden (lnTwoTerms 400 1)

/-! ### Exact floors

The scaled floor `⌊x · 2^151⌋` of a real number `x` that is no multiple of 2^-151 fixes `f32(x)`: every
boundary between two roundings is a multiple of 2^-150. The three floors below are exact for every
operand. They decide only where an enclosure is too wide to, and none is evaluated elsewhere. -/

/-- `f32(x)` of the real number `x` that is no multiple of 2^-151, from `u = ⌊x · 2^151⌋`. -/
def roundFloor (u : Int) : Word := f32OfRat (2 * u + 1) (2 ^ 152)

/-- The greatest `m` from `m₀` to `m₀ + 2^k - 1` of which `holds`, for a test that holds of `m₀` and, once it
fails, fails from there on. -/
def greatestHolding (holds : Nat → Bool) : Nat → Nat → Nat
  | 0, m => m
  | k + 1, m => greatestHolding holds k (if holds (m + 2 ^ k) then m + 2 ^ k else m)

/-- The floor of `x · 2^151` for the number `x` that `value n` approaches within `error n`: the first
approximation that settles it does. Where `x · 2^151` is no integer, one does. -/
def floorSearch (value error : Nat → ℚ) (n : Nat) : Int :=
  if ⌊(value n - error n) * 2 ^ 151⌋ = ⌊(value n + error n) * 2 ^ 151⌋ then ⌊(value n - error n) * 2 ^ 151⌋
  else floorSearch value error (n + 1)
partial_fixpoint

/-- `(i·x)^m / m!`: its real and imaginary parts. -/
def cisTerm (x : ℚ) : Nat → ℚ × ℚ
  | 0 => (1, 0)
  | m + 1 => (-((cisTerm x m).2 * x / (m + 1)), (cisTerm x m).1 * x / (m + 1))

/-- The first `n` terms of the exponential series of `i·x`: those of `(cos x, sin x)`. -/
def cisSum (x : ℚ) : Nat → ℚ × ℚ
  | 0 => (0, 0)
  | n + 1 => ((cisSum x n).1 + (cisTerm x n).1, (cisSum x n).2 + (cisTerm x n).2)

/-- What the terms from the `n`-th on sum to at most, once `n + 1 ≥ 2·|x|`: `2·|x|^n / n!`. -/
def cisError (x : ℚ) (n : Nat) : ℚ := 2 * |x| ^ n / n.factorial

/-- The number of terms from which `cisError` bounds the rest. -/
def cisStart (x : ℚ) : Nat := ⌈2 * |x|⌉₊

/-- `⌊cos x · 2^151⌋` for a rational `x ≠ 0`. -/
def cosFloor (x : ℚ) : Int := floorSearch (fun n => (cisSum x n).1) (cisError x) (cisStart x)

/-- `⌊sin x · 2^151⌋` for a rational `x ≠ 0`. -/
def sinFloor (x : ℚ) : Int := floorSearch (fun n => (cisSum x n).2) (cisError x) (cisStart x)

/-- `⌊2^(n + f/2^149) · 2^151⌋` for `f < 2^149` and `-151 ≤ n`: the integers up to it are those whose
`2^149`-th power is at most `2^(f + (n + 151)·2^149)`. -/
def expTwoFloor (n : Int) (f : Nat) : Int :=
  let e := (n + 151).toNat
  greatestHolding (fun m => decide (m ^ 2 ^ 149 ≤ 2 ^ (f + e * 2 ^ 149))) (e + 1) 0

/-- `cos(π·j/2^c)` against the rational `q/d`, for `j ≤ 2^c` and `d > 0`. In the first quadrant both are
nonnegative or `q/d` is the less; the squares compare as the numbers do, and `2·cos² - 1` is the cosine
of the doubled angle. In the second quadrant the same holds of the negated numbers. -/
def compareCos : Nat → Nat → Int → Nat → Ordering
  | 0, j, q, d => compare (if j = 0 then (d : Int) else -d) q
  | c + 1, j, q, d =>
    if j ≤ 2 ^ c then if q < 0 then .gt else compareCos c j (2 * q ^ 2 - d ^ 2) (d ^ 2)
    else if 0 ≤ q then .lt else (compareCos c (2 ^ (c + 1) - j) (2 * q ^ 2 - d ^ 2) (d ^ 2)).swap

/-- `⌊cos(2π·k/2^b) · 2^151⌋` for `b ≥ 1`: the angle or its explement, at most π, against the multiples of
2^-151 from -1 on. -/
def turnFloor (b k : Nat) : Int :=
  let j := k % 2 ^ b
  let folded := if j ≤ 2 ^ (b - 1) then j else 2 ^ b - j
  greatestHolding (fun m => compareCos (b - 1) folded ((m : Int) - 2 ^ 151) (2 ^ 151) != .lt) 153 0 - 2 ^ 151

/-! ### Rounding an enclosed real number -/

/-- `f32(x)` for the real number `x` with `lo/d ≤ x ≤ hi/d`: the pattern both ends round to, or, where they
round to different ones, the pattern that the exact floor of `x · 2^151` gives. -/
def roundEnclosed (lo hi : Int) (d : Nat) (floor : Unit → Int) : Word :=
  if f32OfRat lo d = f32OfRat hi d then f32OfRat lo d else roundFloor (floor ())

/-- `f32` of an enclosed number. -/
def roundEnc (a : Enclosure) (floor : Unit → Int) : Word := roundEnclosed a.lo a.hi encScale floor

/-- `f32` of the negation of an enclosed number; the floor is that of the negation. -/
def roundEncNeg (a : Enclosure) (floor : Unit → Int) : Word := roundEnclosed (-a.hi) (-a.lo) encScale floor

/-! ### The functions of R19 -/

/-- `sin32(a)` (R19): the sine of a finite operand's exact value, rounded once; an exact zero is +0.0;
a NaN or an infinity gives the canonical NaN. -/
def sin32 (a : Word) : Word :=
  if isNaN32 a || isInf32 a then canonicalNaN
  else if isZero32 a then zero32
  else
    let s := (encCisRat (units a) (2 ^ 149)).2
    if signBit a then roundEncNeg s fun _ => sinFloor (signedUnits a / 2 ^ 149)
    else roundEnc s fun _ => sinFloor (signedUnits a / 2 ^ 149)

/-- `cos32(a)` (R19): the cosine of a finite operand's exact value, rounded once. -/
def cos32 (a : Word) : Word :=
  if isNaN32 a || isInf32 a then canonicalNaN
  else if isZero32 a then one32
  else roundEnc (encCisRat (units a) (2 ^ 149)).1 fun _ => cosFloor (signedUnits a / 2 ^ 149)

/-- `2^(f/2^149)` for `f < 2^149`, as `exp(f·ln 2 / 2^149)`. -/
def encExpTwo (f : Nat) : Enclosure := encExp (encMul (encRat f (2 ^ 149)) encLnTwo)

/-- `exp2_32(a)` (R19). With the operand `n + f` (`n` an integer, `0 ≤ f < 1`) the value is `2^n·2^f`. At
128 and above it exceeds the largest binary32 value by more than half a unit; below -151 it is under
half the least subnormal; at an integer it is exact. -/
def exp2_32 (a : Word) : Word :=
  if isNaN32 a then canonicalNaN
  else if isInf32 a then (if signBit a then zero32 else a)
  else
    let n : Int := signedUnits a / 2 ^ 149
    let f : Nat := (signedUnits a % 2 ^ 149).toNat
    if 128 ≤ n then inf32 false
    else if n < -151 then zero32
    else if f = 0 then f32OfRat (2 ^ n.toNat) (2 ^ (-n).toNat)
    else
      let e := encExpTwo f
      roundEnclosed (e.lo * 2 ^ n.toNat) (e.hi * 2 ^ n.toNat) (encScale * 2 ^ (-n).toNat)
        fun _ => expTwoFloor n f

/-! ### Twiddle factors (42_fft.md R160) -/

/-- `TW[k] = (f32(cos(2πk/P)), f32(-sin(2πk/P)))`, `P` a power of two. The quarter turns are exact, with
zero parts +0.0 (R160, R161). Elsewhere the angle `2πk/P` is doubled three times from `πk/(4P)`, which is
below 1; and `-sin(2πk/P)` is the cosine a quarter turn on. -/
def twiddle (p k : Nat) : Complex32 :=
  if 4 * k % p = 0 then
    match 4 * k / p % 4 with
    | 0 => ⟨one32, zero32⟩
    | 1 => ⟨zero32, neg32 one32⟩
    | 2 => ⟨neg32 one32, zero32⟩
    | _ => ⟨zero32, one32⟩
  else
    let z := doubleAngles 3 (encCis (encDivNat (encMul (encInt k) encPi) (4 * p)))
    ⟨roundEnc z.1 fun _ => turnFloor (Nat.log2 p) k, roundEncNeg z.2 fun _ => turnFloor (Nat.log2 p) (k + p / 4)⟩

end Sys2Proof.Machine
end

