-- ==== Sys2Proof/Machine/Fft.lean ====
section
/-! DEFINITION. The spectral transform engine (42_fft.md): padded size, bit reversal, the context's
tables, the butterfly network and the three transform commands. -/

namespace Sys2Proof.Machine

/-! ### Helpers (42_fft.md R150, R151, R159, R164) -/

/-- The least `b` with `2^b ≥ n`. -/
def paddedLog (n : Nat) : Nat := if n ≤ 1 then 0 else Nat.log2 (n - 1) + 1

/-- `padded(N)`, the least power of two not below `N` (R150). -/
def padded (n : Nat) : Nat := 2 ^ paddedLog n

/-- `ilog(2^b) = b` (R151). -/
def ilog (p : Nat) : Nat := Nat.log2 p

/-- `bitrev_b(v)`: bit `j` of the result is bit `b - 1 - j` of `v` (R159). -/
def bitrev : Nat → Nat → Nat
  | 0, _ => 0
  | b + 1, v => v % 2 * 2 ^ b + bitrev b (v / 2)

/-- The butterfly (R164): the one product serves both outputs. -/
def butterfly (lower upper w : Complex32) : Complex32 × Complex32 :=
  let t := cmul w upper
  (cadd lower t, csub lower t)

/-! ### The context (10_state.md R42 to R44, 42_fft.md R163) -/

/-- REV for `P = 2^b`. -/
def revTable (b : Nat) : List Nat := (List.range (2 ^ b)).map (bitrev b)

/-- TW for `P = 2^b`. -/
def twTable (b : Nat) : List Complex32 := (List.range (2 ^ b)).map (twiddle (2 ^ b))

/-- The context of padded size `2^b`. -/
def fftContext (b : Nat) : FftContext where
  log2p := b
  rev := revTable b
  tw := twTable b

/-- The padded size `P` of a context. -/
def FftContext.size (c : FftContext) : Nat := 2 ^ c.log2p

/-- The context replaced whole (10_state.md R43). -/
def State.setContext (s : State) (c : FftContext) : State := { s with fft := { s.fft with context := some c } }

/-- FFT_CONFIG (42_fft.md R163). -/
def execFftConfig (s : State) : Host.Outcome State Fault Refusal :=
  let p := padded (operandU32 s.arg0)
  if 2 ^ s.params.log2Pmax < p then .next (s.report .badArg)
  else .next (((s.setContext (fftContext (ilog p))).setRes (BitVec.ofNat 32 p)).report .ok)

/-! ### The network (42_fft.md R165 to R167) -/

/-- What the load puts into WB for table entry `j`: the input element, conjugated by the inverse
transform, or the padding CZERO, never conjugated (R165, R166). -/
def loadPoint (m : Memory) (src lr : Nat) (inverse : Bool) (j : Nat) : Except Fault Complex32 :=
  if j < lr then
    match m.loadElement (src + j) with
    | .error f => .error f
    | .ok x => .ok (if inverse then conj32 x else x)
  else .ok czero

/-- The bit-reversed copy with padding (R165): one WB element for each entry of REV, in order; the
first unwritten DMEM word read is the fault. -/
def loadInput (m : Memory) (src lr : Nat) (inverse : Bool) : List Nat → Except Fault (List Complex32)
  | [] => .ok []
  | j :: js =>
    match loadPoint m src lr inverse j with
    | .error f => .error f
    | .ok x =>
      match loadInput m src lr inverse js with
      | .error f => .error f
      | .ok xs => .ok (x :: xs)

/-- `(WB[lo], WB[hi]) <- butterfly(WB[lo], WB[hi], TW[k·stride])` with `lo = g + k`, `hi = lo + half`. -/
def butterflyAt (tw : List Complex32) (half stride g k : Nat) (wb : List Complex32) : List Complex32 :=
  let lo := g + k
  let hi := lo + half
  let r := butterfly (wb.getD lo czero) (wb.getD hi czero) (tw.getD (k * stride) czero)
  (wb.set lo r.1).set hi r.2

/-- The pairs of one group, `k` from 0 to `half - 1`. -/
def groupPass (tw : List Complex32) (half stride g : Nat) (wb : List Complex32) : List Complex32 :=
  (List.range half).foldl (fun acc k => butterflyAt tw half stride g k acc) wb

/-- The groups `0, n, 2n, …, P - n` of the stage with group size `n`. -/
def stagePass (tw : List Complex32) (p n : Nat) (wb : List Complex32) : List Complex32 :=
  (List.range (p / n)).foldl (fun acc q => groupPass tw (n / 2) (p / n) (q * n) acc) wb

/-- The stages with group size 2, 4, …, `P = 2^b`. -/
def network (tw : List Complex32) (b : Nat) (wb : List Complex32) : List Complex32 :=
  (List.range b).foldl (fun acc j => stagePass tw (2 ^ b) (2 ^ (j + 1)) acc) wb

/-- The transform core (R165): all input is read before the first output is written. -/
def transformCore (m : Memory) (c : FftContext) (src len : Nat) (inverse : Bool) :
    Except Fault (List Complex32) :=
  match loadInput m src (min len c.size) inverse c.rev with
  | .error f => .error f
  | .ok wb => .ok (network c.tw c.log2p wb)

/-- The checks of R170, in order: the context of a transform that may run, or the code of the first
check that fails. -/
def transformChecks (p : Params) (u : FftUnit) (o : TransformOperands) : Except ResultCode FftContext :=
  match u.context with
  | none => .error .noContext
  | some c =>
    if o.outLen < c.size then .error .outTooShort
    else if p.dmemSize < o.src + min o.len c.size then .error .range
    else if p.dmemSize < o.dst + c.size then .error .range
    else .ok c

/-- WB after a transform: the `P` elements it computed, what lies past them kept (10_state.md R45). -/
def FftUnit.setWork (u : FftUnit) (ys : List Complex32) : FftUnit :=
  { u with wb := ys ++ u.wb.drop ys.length }

/-- WB and the output elements of DMEM written (R167). -/
def State.writeOutput (s : State) (dst : Nat) (work out : List Complex32) : State :=
  { s with fft := s.fft.setWork work, dmem := Memory.storeElements s.dmem dst out }

/-- A transform command: the checks, the core, and the output through `out` (R168, R169). -/
def transform (inverse : Bool) (out : FftContext → Complex32 → Complex32) (s : State) :
    Host.Outcome State Fault Refusal :=
  let o := s.transformOperands
  match transformChecks s.params s.fft o with
  | .error code => .next (s.report code)
  | .ok c =>
    match transformCore s.dmem c o.src o.len inverse with
    | .error f => .fault f
    | .ok ys => .next ((s.writeOutput o.dst ys (ys.map (out c))).report .ok)

/-- The inverse transform's output: conjugated, then each part multiplied by `f32(1/P)` (R169). -/
def scaleInverse (c : FftContext) (y : Complex32) : Complex32 :=
  let z := conj32 y
  let f := f32OfRat 1 c.size
  ⟨mul32 z.re f, mul32 z.im f⟩

/-- FFT_FWD (42_fft.md R168). -/
def execFftFwd (s : State) : Host.Outcome State Fault Refusal := transform false (fun _ y => y) s

/-- FFT_INV (42_fft.md R169). -/
def execFftInv (s : State) : Host.Outcome State Fault Refusal := transform true scaleInverse s

end Sys2Proof.Machine
end

