-- ==== Sys2Proof/Machine/Osc.lean ====
section
/-! DEFINITION. The antialiased oscillator (44_oscillator.md): its configuration commands, the phase
accumulator, the six waveforms and the PolyBLEP correction. -/

namespace Sys2Proof.Machine

/-- The oscillator replaced. -/
def State.setOsc (s : State) (o : Oscillator) : State := { s with osc := o }

/-! ### Configuration (44_oscillator.md R221 to R224) -/

/-- A waveform and mode selected, and the oscillator restarted (R221). -/
def Oscillator.init (o : Oscillator) (w : Waveform) (aa : Bool) : Oscillator :=
  { o with wave := w, aa := aa, phase := zero32, prev := zero32, out := zero32 }

/-- OSC_INIT (44_oscillator.md R221). A waveform code of 6 or 7 never decodes to this command
(30_encoding.md R96); such a term does what its word does, `status(ILLEGAL)` (R97). -/
def execOscInit (wave : BitVec 3) (aa : Bool) (s : State) : Host.Outcome State Fault Refusal :=
  match waveformOfCode wave with
  | some w => .next ((s.setOsc (s.osc.init w aa)).report .ok)
  | none => .next s.illegal

/-- The base increment of a frequency: `div32(mul32(TWO_PI_F32, fr), SR_F32)` (R222). -/
def baseIncrement (sampleRate : Nat) (fr : Word) : Word := div32 (mul32 twoPi32 fr) (f32OfRat sampleRate 1)

/-- OSC_SET_FREQ (44_oscillator.md R222). -/
def execOscSetFreq (s : State) : Host.Outcome State Fault Refusal :=
  .next ((s.setOsc { s.osc with inc := baseIncrement s.params.sampleRate (operandF32 s.arg0) }).report .ok)

/-- The multiplier of a number of semitones: `exp2_32(div32(s, TWELVE))` (R223, R224). -/
def semitones (x : Word) : Word := exp2_32 (div32 x twelve32)

/-- OSC_SET_TRANSPOSE (44_oscillator.md R223). -/
def execOscSetTranspose (s : State) : Host.Outcome State Fault Refusal :=
  .next ((s.setOsc { s.osc with transpose := semitones (operandF32 s.arg0) }).report .ok)

/-- OSC_SET_BEND (44_oscillator.md R224). -/
def execOscSetBend (s : State) : Host.Outcome State Fault Refusal :=
  .next ((s.setOsc { s.osc with bend := semitones (operandF32 s.arg0) }).report .ok)

/-! ### The tick (44_oscillator.md R225 to R229) -/

/-- The LFO factor of a modulation input (R227). -/
def lfoFactor (o : Oscillator) (x : Word) : Word := exp2_32 (mul32 x o.lfoInt)

/-- The effective increment (R226): with no modulation input the factor is not multiplied. -/
def Oscillator.effInc (o : Oscillator) (input : Option Word) : Word :=
  let e := match input with
    | some x => mul32 o.inc (lfoFactor o x)
    | none => o.inc
  mul32 (mul32 e o.bend) o.transpose

/-- The phase wrap: one conditional subtraction (R229). -/
def wrapPhase (p : Word) : Word := if ge32 p twoPi32 then sub32 p twoPi32 else p

/-- The phase after the advance and the wrap (R228, R229). -/
def Oscillator.advance (o : Oscillator) (e : Word) : Word := wrapPhase (add32 o.phase e)

/-! ### Waveforms (44_oscillator.md R230 to R239) -/

/-- The PolyBLEP correction (R233). -/
def blep (t dt : Word) : Word :=
  if lt32 t dt then
    let x := div32 t dt
    sub32 (sub32 (add32 x x) (mul32 x x)) one32
  else if lt32 (sub32 one32 dt) t then
    let x := div32 (sub32 t one32) dt
    add32 (add32 (add32 (mul32 x x) x) x) one32
  else zero32

/-- Saw (R231). -/
def sawWave (aa : Bool) (p t dt : Word) : Word :=
  let y := sub32 (div32 p pi32) one32
  if aa then sub32 y (blep t dt) else y

/-- `t + 0.5` wrapped to [0, 1) (R232). -/
def halfTurn (t : Word) : Word :=
  let u := add32 t half32
  if ge32 u one32 then sub32 u one32 else u

/-- Square (R232). -/
def squareWave (aa : Bool) (p t dt : Word) : Word :=
  let y := if lt32 p pi32 then one32 else neg32 one32
  if aa then sub32 (add32 y (blep t dt)) (blep (halfTurn t) dt) else y

/-- Triangle (R235): the leaky integrator, two rounded products and one rounded sum. -/
def triangleWave (aa : Bool) (p t dt e prev : Word) : Word :=
  add32 (mul32 e (squareWave aa p t dt)) (mul32 (sub32 one32 e) prev)

/-- Pulse train (R238). -/
def pulseWave (p e : Word) : Word := if lt32 p e then one32 else zero32

/-- The output of a tick: the waveform at phase `p` with effective increment `e`; `noise` is the draw a
white-noise tick takes (R225, R230 to R239). -/
def Oscillator.sample (o : Oscillator) (p e noise : Word) : Word :=
  let t := div32 p twoPi32
  let dt := div32 e twoPi32
  match o.wave with
  | .sine => sin32 p
  | .saw => sawWave o.aa p t dt
  | .square => squareWave o.aa p t dt
  | .triangle => triangleWave o.aa p t dt e o.prev
  | .whiteNoise => noise
  | .pulseTrain => pulseWave p e

/-- One tick of the oscillator (R225): the phase, and the output in both OSC_OUT and OSC_PREV (R236). -/
def Oscillator.tick (o : Oscillator) (input : Option Word) (noise : Word) : Oscillator :=
  let e := o.effInc input
  let p := o.advance e
  let y := o.sample p e noise
  { o with phase := p, out := y, prev := y }

/-- A white-noise tick takes one draw, every other tick none (R237). -/
def State.drawFor (s : State) : State := if s.osc.wave = .whiteNoise then s.countDraw else s

/-- OSC_TICK (44_oscillator.md R225). -/
def execOscTick (lfo : Bool) (s : State) : Host.Outcome State Fault Refusal :=
  .next (((s.setOsc (s.osc.tick (s.lfoOperand lfo) (noiseSample s.draws))).drawFor).report .ok)

end Sys2Proof.Machine
end

