-- ==== Sys2Proof/Machine/Ring.lean ====
section
/-! DEFINITION. The time-indexed ring buffer (41_ring_buffer.md). -/

namespace Sys2Proof.Machine

/-- A time is in the window when `start_t ≤ t < end_t`, unsigned (41_ring_buffer.md R130). -/
def RingBuffer.inWindow (r : RingBuffer) (t : Time) : Bool :=
  decide (r.startT.toNat ≤ t.toNat) && decide (t.toNat < r.endT.toNat)

/-- `slot(t) = t mod C` (41_ring_buffer.md R131). -/
def RingBuffer.slot (r : RingBuffer) (t : Time) : Nat := t.toNat % r.cap.toNat

/-- The buffer emptied, with capacity `c` (41_ring_buffer.md R140); RBMEM is not cleared. -/
def RingBuffer.init (r : RingBuffer) (c : Word) : RingBuffer := { r with cap := c, startT := 0, endT := 0 }

/-- The window is as long as the capacity. -/
def RingBuffer.full (r : RingBuffer) : Bool := decide (r.endT.toNat = r.startT.toNat + r.cap.toNat)

/-- One push (41_ring_buffer.md R141). -/
def RingBuffer.push (r : RingBuffer) (v : Word) : RingBuffer :=
  { r.writeSlot (r.slot r.endT) v with
    startT := if r.full then r.startT + 1 else r.startT
    endT := r.endT + 1 }

/-- The ring buffer replaced. -/
def State.setRing (s : State) (r : RingBuffer) : State := { s with ring := r }

/-- RB_INIT (41_ring_buffer.md R140). -/
def execRbInit (s : State) : Host.Outcome State Fault Refusal :=
  let c := operandU32 s.arg0
  if c = 0 ∨ s.params.rbMax < c then .next (s.report .badArg)
  else .next ((s.setRing (s.ring.init s.arg0)).report .ok)

/-- RB_PUSH (41_ring_buffer.md R141). A push that would take `end_t` to 2^64 is outside the spec
(93_implementation_defined.md U11; log entry 8). -/
def execRbPush (s : State) : Host.Outcome State Fault Refusal :=
  if s.ring.endT.toNat + 1 = 2 ^ 64 then .refused .pushCountExhausted
  else .next ((s.setRing (s.ring.push (operandF32 s.arg0))).report .ok)

/-- RB_GET (41_ring_buffer.md R142). -/
def execRbGet (s : State) : Host.Outcome State Fault Refusal :=
  let t := s.timeOperand
  if s.ring.inWindow t then .next ((s.setRes (s.ring.readSlot (s.ring.slot t))).report .ok)
  else .next (s.report .notAvailable)

/-- RB_UPDATE (41_ring_buffer.md R143). -/
def execRbUpdate (s : State) : Host.Outcome State Fault Refusal :=
  let t := s.timeOperand
  if s.ring.inWindow t then
    .next ((s.setRing (s.ring.writeSlot (s.ring.slot t) (operandF32 s.arg2))).report .ok)
  else .next (s.report .notFound)

end Sys2Proof.Machine
end

