-- ==== Sys2Proof/Machine/Dispatch.lean ====
section
/-! DEFINITION. `exec`: one arm per command, each a direct call of the command's meaning
(40_control.md R112). -/

namespace Sys2Proof.Machine

def exec (i : Instr) (s : State) : Host.Outcome State Fault Refusal :=
  match i with
  | .nop => Sys2Proof.Machine.execNop s
  | .step => Sys2Proof.Machine.execStep s
  | .fftConfig => Sys2Proof.Machine.execFftConfig s
  | .fftFwd => Sys2Proof.Machine.execFftFwd s
  | .fftInv => Sys2Proof.Machine.execFftInv s
  | .rbInit => Sys2Proof.Machine.execRbInit s
  | .rbPush => Sys2Proof.Machine.execRbPush s
  | .rbGet => Sys2Proof.Machine.execRbGet s
  | .rbUpdate => Sys2Proof.Machine.execRbUpdate s
  | .envNoteDown => Sys2Proof.Machine.execEnvNoteDown s
  | .envNoteUp => Sys2Proof.Machine.execEnvNoteUp s
  | .envTick => Sys2Proof.Machine.execEnvTick s
  | .oscInit wave aa => Sys2Proof.Machine.execOscInit wave aa s
  | .oscSetFreq => Sys2Proof.Machine.execOscSetFreq s
  | .oscSetTranspose => Sys2Proof.Machine.execOscSetTranspose s
  | .oscSetBend => Sys2Proof.Machine.execOscSetBend s
  | .oscTick lfo => Sys2Proof.Machine.execOscTick lfo s

end Sys2Proof.Machine
end

