-- ==== Sys2Proof/Machine/Step.lean ====
section
/-! DEFINITION. One step of the machine: the next event at the bus is served (20_memory.md R80), a CMD
write running its command by `exec`. -/

namespace Sys2Proof.Machine

/-- One step. -/
def step (s : State) : Host.Outcome State Fault Refusal := nextEvent exec s

/-- `s` with the CMD write of the command word `w` (its bits from `nbits` on 0) as the next event, ahead
of those already waiting: the very next step runs that command (log entry 9). -/
def State.withFetchWord (s : State) (nbits w : Nat) : State :=
  s.setPending (cmdWrite (BitVec.ofNat 32 (w % 2 ^ nbits)) :: s.port.pending)

end Sys2Proof.Machine
end

