-- ==== Sys2Proof/Safety.lean ====
section
/-! DEFINITION. The terms the statements use: what a safe outcome is, the invariant of the machine, the
envelope's pass discipline, and the spec's own notion of rounding a real number to binary32. -/

namespace Sys2Proof.Machine

/-! ### Outcomes -/

/-- A safe outcome goes on: neither a fault nor a refusal. -/
def Goes (o : Host.Outcome State Fault Refusal) : Prop := ∃ t, o = .next t

/-! ### The invariant of the machine -/

/-- The ring buffer between commands (10_state.md R47, R48): a legal capacity, a window no longer than it,
the slots in canonical form, and every in-window time's slot written. -/
def RingBuffer.Inv (maxCap : Nat) (r : RingBuffer) : Prop :=
  (1 ≤ r.cap.toNat ∧ r.cap.toNat ≤ maxCap) ∧
    (r.startT.toNat ≤ r.endT.toNat ∧ r.endT.toNat ≤ r.startT.toNat + r.cap.toNat) ∧
    keysRise r.slots = true ∧
    ∀ t, r.inWindow t = true → (findKey r.slots (r.slot t)).isSome = true

/-- The envelope between commands: the sustain level legal (10_state.md R54); a transition scheduled
exactly in Attack, Decay and Release (43_envelope.md R195); with none scheduled, next_t and DELTA are 0;
the channels that do not exist are 0. -/
def Envelope.Inv (nch : Nat) (e : Envelope) : Prop :=
  e.sustain.toNat ≤ 0x40000000 ∧
    (e.sched = false ↔ e.phase = .sustain ∨ e.phase = .silent) ∧
    (e.sched = false → e.nextT = 0 ∧ e.delta = 0) ∧
    ∀ c, nch ≤ c → frameGet e.input c = 0 ∧ frameGet e.output c = 0

/-- The transform unit between commands: a context holds the tables of its size, within PMAX
(10_state.md R40 to R44), and WB at most PMAX elements (10_state.md R45). -/
def FftUnit.Inv (log2Pmax : Nat) (u : FftUnit) : Prop :=
  (∀ c, u.context = some c → c.log2p ≤ log2Pmax ∧ c = fftContext c.log2p) ∧ u.wb.length ≤ 2 ^ log2Pmax

/-- DMEM between commands: the canonical form, only bytes DMEM has, and words written whole
(10_state.md R46, 20_memory.md R77). -/
def Memory.Inv (size : Nat) (m : Memory) : Prop :=
  m.wf = true ∧
    ∀ a, (m.readByte a).isSome = true →
      (dmemBase ≤ a ∧ a < dmemBase + 8 * size) ∧
        ∀ k, k < 4 → (m.readByte (a / 4 * 4 + k)).isSome = true

/-- After every oscillator command OSC_PREV and OSC_OUT hold one sample (10_state.md R61). -/
def Oscillator.Inv (o : Oscillator) : Prop := o.prev = o.out

/-- What holds of the block between any two events. -/
def State.Inv (s : State) : Prop :=
  s.params.Legal ∧ s.ring.Inv s.params.rbMax ∧ s.env.Inv s.params.envNch ∧
    s.fft.Inv s.params.log2Pmax ∧ Memory.Inv s.params.dmemSize s.dmem ∧ s.osc.Inv

/-! ### The envelope's pass discipline (43_envelope.md R203, 70_reset_and_hazards.md R291) -/

/-- A level in [0, 1.0]. -/
def levelInRange (v : Word) : Prop := 0 ≤ s32 v ∧ s32 v ≤ 0x40000000

/-- The envelope is on schedule before the ENV_TICK of tick `t`: its level is in range, and with `k` ticks
left to the scheduled transition the level stays in range for all `k` additions; with none scheduled it
is held. -/
def Envelope.OnSchedule (e : Envelope) (t : Time) : Prop :=
  levelInRange e.level ∧
    (e.sched = true → ∃ k : Nat, k < 2 ^ 32 ∧ e.nextT = scheduleAt t k ∧
      ∀ j : Nat, j ≤ k → 0 ≤ s32 e.level + j * s32 e.delta ∧ s32 e.level + j * s32 e.delta ≤ 0x40000000) ∧
    (e.sched = false → e.delta = 0)

/-- One ENV_TICK in every pass: before each STEP exactly one since the last STEP or reset. `ticked` says
whether the current pass has had its ENV_TICK. Every other event may come at any time. -/
def oneTickPerPass (ticked : Bool) : List HostEvent → Bool
  | [] => true
  | .write 0 4 v :: es =>
    if v = encode .envTick then !ticked && oneTickPerPass true es
    else if v = encode .step then ticked && oneTickPerPass false es
    else oneTickPerPass ticked es
  | .write _ _ _ :: es => oneTickPerPass ticked es
  | .read _ _ :: es => oneTickPerPass ticked es
  | .reset :: es => oneTickPerPass false es
  | .resetDuring _ :: es => oneTickPerPass false es

/-- What the discipline keeps between two events of a pass that has had its ENV_TICK (`ticked`) or not: the
envelope is on schedule for the next tick to process, and the waiting events keep the discipline. -/
def State.InPass (ticked : Bool) (s : State) : Prop :=
  s.params.Legal ∧ s.env.sustain.toNat ≤ 0x40000000 ∧
    s.env.OnSchedule (if ticked then s.time + 1 else s.time) ∧ oneTickPerPass ticked s.port.pending = true

/-- The envelope after `enter(p, T)` out of `e₀` at the tick `t`: by an event before that tick's ENV_TICK, or
by the automatic transition due inside it (43_envelope.md R204). -/
def EntersAt (e₀ e : Envelope) (p : EnvPhase) (t : Time) : Prop :=
  e = e₀.enter p t ∨ (e = e₀ ∧ e₀.sched = true ∧ e₀.nextT = t ∧ e₀.phase.succ = p)

/-! ### Runs of commands -/

/-- A command after an outcome, if it goes on. -/
def andThen (o : Host.Outcome State Fault Refusal) (i : Instr) : Host.Outcome State Fault Refusal :=
  match o with
  | .next s => exec i s
  | .fault f => .fault f
  | .refused r => .refused r

/-- `n` passes of ENV_TICK, STEP (40_control.md R114). -/
def envPasses : Nat → State → Host.Outcome State Fault Refusal
  | 0, s => .next s
  | n + 1, s => andThen (andThen (envPasses n s) .envTick) .step

/-- The values pushed one after another, each written to ARG0 before its RB_PUSH. -/
def pushAll : List Word → State → Host.Outcome State Fault Refusal
  | [], s => .next s
  | v :: vs, s =>
    match exec .rbPush { s with arg0 := v } with
    | .next t => pushAll vs t
    | .fault f => .fault f
    | .refused r => .refused r

/-! ### The register map as the spec prints it (10_state.md R36) -/

/-- The offsets of the registers with a fixed row. -/
def fixedOffsets : List Nat :=
  [0x000, 0x004, 0x008, 0x00C, 0x010, 0x014, 0x018, 0x020, 0x024, 0x030, 0x034, 0x038, 0x03C, 0x100, 0x104,
   0x200, 0x208, 0x20C, 0x210, 0x214, 0x300, 0x304, 0x308, 0x310, 0x314, 0x318, 0x31C, 0x320, 0x324,
   0x400, 0x404, 0x408, 0x40C, 0x410, 0x414, 0x418, 0x41C]

/-- The mapped offsets: a fixed row, a channel below ENV_NCH of ENV_IN or ENV_OUT, or a word of an element
below DMEM_SIZE. -/
def MappedOffset (p : Params) (a : Nat) : Prop :=
  a ∈ fixedOffsets ∨ (∃ c, c < p.envNch ∧ (a = 0x340 + 4 * c ∨ a = 0x360 + 4 * c)) ∨
    ∃ i, i < p.dmemSize ∧ (a = 0x1000000 + 8 * i ∨ a = 0x1000004 + 8 * i)

/-! ### Rounding a real number to binary32 (00_scope.md R17) -/

/-- A pattern that is neither a NaN nor an infinity. -/
def isFinite32 (v : Word) : Prop := magnitude v < 0x7F800000

/-- The real number a finite pattern stands for. -/
def ValueOf (v : Word) (x : ℝ) : Prop := isFinite32 v ∧ x = (signedUnits v : ℝ) / 2 ^ 149

/-- `v` is `f32(x)`: the binary32 value nearest to the real number `x`, a tie going to the even
significand; an absolute value from the midpoint above the largest finite one on goes to infinity; the
sign of a nonzero `x` is kept, and an exact zero is +0.0. -/
def RoundsTo (x : ℝ) (v : Word) : Prop :=
  (x = 0 → v = zero32) ∧
    (x ≠ 0 → signBit v = decide (x < 0)) ∧
    ((2 : ℝ) ^ 128 - 2 ^ 103 ≤ |x| → magnitude v = 0x7F800000) ∧
    (|x| < (2 : ℝ) ^ 128 - 2 ^ 103 →
      isFinite32 v ∧
        ∀ w, isFinite32 w →
          |(|x| * 2 ^ 149 - units v)| ≤ |(|x| * 2 ^ 149 - units w)| ∧
            (units w ≠ units v →
              |(|x| * 2 ^ 149 - units v)| = |(|x| * 2 ^ 149 - units w)| → v.getLsbD 0 = false))

end Sys2Proof.Machine
end

