-- ==== Sys2Proof/Certificates/Slice0/Obligations.lean ====
section
/-! DEFINITION. The statements for the provers. Each docstring names the rule of spec/ it formalises. -/

open Sys2Proof Sys2Proof.Machine Host

/-! ### Encoding and decoding -/

/-- 30_encoding.md R95, R96: a word decodes to a command exactly when the command is well formed and the
word is its encoding. -/
def Obligations.DecodeEncodeAgree : Prop :=
  ∀ (w : Word) (i : Instr), decode w = .ok i ↔ i.wellFormed = true ∧ encode i = w

/-- 30_encoding.md R97: the words of its cases (a), (b) and (c) change STATUS alone, to CODE = 4 with ERR
set, and no other word is ILLEGAL. -/
def Obligations.IllegalWordOnlyReports : Prop :=
  ∀ (w : Word) (s : State) (es : List HostEvent), s.port.pending = cmdWrite w :: es →
    let opc := w.toNat % 2 ^ 8
    let formatNOpcodes := [0x00, 0x01, 0x10, 0x11, 0x12, 0x20, 0x21, 0x22, 0x23, 0x30, 0x31, 0x32, 0x41, 0x42, 0x43]
    let illegal :=
      (opc ∉ formatNOpcodes ∧ opc ≠ 0x40 ∧ opc ≠ 0x44) ∨
      ((opc ∈ formatNOpcodes ∧ w.toNat / 2 ^ 8 ≠ 0) ∨ (opc = 0x40 ∧ w.toNat / 2 ^ 12 ≠ 0) ∨
        (opc = 0x44 ∧ w.toNat / 2 ^ 9 ≠ 0)) ∨
      (opc = 0x40 ∧ 5 < w.toNat / 2 ^ 8 % 2 ^ 3)
    ((∃ e, decode w = .error e) ↔ illegal) ∧
      (illegal → step s = .next { s with
        status := { code := .illegal, err := true }, port := { pending := es, response := some .ack } })

/-- 30_encoding.md R95: a few words of the opcode map, written out from their fields. -/
def Obligations.SampleWordsDecode : Prop :=
  decode 0x00000001 = .ok .step ∧ decode 0x00000012 = .ok .fftInv ∧ decode 0x00000023 = .ok .rbUpdate ∧
    decode 0x00000032 = .ok .envTick ∧ decode 0x00000D40 = .ok (.oscInit 5 true) ∧
    decode 0x00000144 = .ok (.oscTick true) ∧ decode 0x00000640 = .error (.reservedWave 6)

/-- 40_control.md R112: a CMD write of a word that decodes runs that command, on the state that has taken
the write off the bus and answers it normally. -/
def Obligations.StepRunsDecodedCommand : Prop :=
  ∀ (s : State) (w : Word) (i : Instr) (es : List HostEvent),
    s.port.pending = cmdWrite w :: es → decode w = .ok i →
      step s = exec i { s with port := { pending := es, response := some .ack } }

/-! ### Control commands -/

/-- 40_control.md R115: NOP writes CODE = 0, keeps ERR, and changes nothing else. -/
def Obligations.NopOnlyReportsOk : Prop :=
  ∀ s : State, exec .nop s = .next { s with status := { code := .ok, err := s.status.err } }

/-- 40_control.md R116, R117: STEP adds one to TIME modulo 2^64, writes CODE = 0, and changes nothing
else. -/
def Obligations.StepAddsOneToTime : Prop :=
  ∀ s : State, ∃ n : Time, n.toNat = (s.time.toNat + 1) % 2 ^ 64 ∧
    exec .step s = .next { s with time := n, status := { code := .ok, err := s.status.err } }

/-! ### The transform engine -/

/-- 42_fft.md R150, R151: the padded size is the least power of two not below the requested size, and the
integer log of `2^k` is `k`. -/
def Obligations.PaddedIsLeastPowerOfTwo : Prop :=
  (∀ n : Nat, ∃ b : Nat, padded n = 2 ^ b ∧ n ≤ 2 ^ b ∧ ∀ c : Nat, n ≤ 2 ^ c → 2 ^ b ≤ 2 ^ c) ∧
    (padded 0 = 1 ∧ padded 1 = 1 ∧ padded 5 = 8 ∧ padded 8 = 8) ∧
    (∀ k : Nat, ilog (2 ^ k) = k) ∧ ilog 1 = 0

/-- 42_fft.md R159: bit reversal is the sum of the reversed bits, an involution within its width, and REV
is its table. -/
def Obligations.BitReversalReversesBits : Prop :=
  (∀ b v : Nat, v < 2 ^ b →
    bitrev b v = ∑ j ∈ Finset.range b, (v / 2 ^ j % 2) * 2 ^ (b - 1 - j) ∧
      bitrev b v < 2 ^ b ∧ bitrev b (bitrev b v) = v) ∧
    bitrev 0 0 = 0 ∧
    (∀ b i : Nat, i < 2 ^ b → (revTable b)[i]? = some (bitrev b i)) ∧
    (∀ b : Nat, (revTable b).length = 2 ^ b) ∧
    revTable 3 = [0, 4, 2, 6, 1, 5, 3, 7]

/-- 42_fft.md R161: the exact twiddle entries at the quarter turns, and the entry at an eighth of a turn, for
every padded size. -/
def Obligations.TwiddleExactEntries : Prop :=
  ∀ b : Nat,
    twiddle (2 ^ b) 0 = ⟨0x3F800000, 0x00000000⟩ ∧
      (1 ≤ b → twiddle (2 ^ b) (2 ^ (b - 1)) = ⟨0xBF800000, 0x00000000⟩) ∧
      (2 ≤ b → twiddle (2 ^ b) (2 ^ (b - 2)) = ⟨0x00000000, 0xBF800000⟩ ∧
        twiddle (2 ^ b) (3 * 2 ^ (b - 2)) = ⟨0x00000000, 0x3F800000⟩) ∧
      (3 ≤ b → twiddle (2 ^ b) (2 ^ (b - 3)) = ⟨0x3F3504F3, 0xBF3504F3⟩)

/-- 42_fft.md R160: for every padded size, TW holds at each index the complex exponential with each part
rounded once. -/
def Obligations.TwiddleIsRoundedRoot : Prop :=
  ∀ b k : Nat, k < 2 ^ b →
    let angle : ℝ := 2 * Real.pi * k / 2 ^ b
    (twTable b)[k]? = some (twiddle (2 ^ b) k) ∧ RoundsTo (Real.cos angle) (twiddle (2 ^ b) k).re ∧
      RoundsTo (-Real.sin angle) (twiddle (2 ^ b) k).im

/-- 42_fft.md R163: FFT_CONFIG builds the context of the least power of two `2^b` not below N, returns
`2^b` in RES0 and changes nothing else; above PMAX it reports BAD_ARG and changes nothing else. -/
def Obligations.FftConfigBuildsContext : Prop :=
  ∀ (s : State) (b : Nat), s.arg0.toNat ≤ 2 ^ b → (∀ c : Nat, s.arg0.toNat ≤ 2 ^ c → b ≤ c) →
    (b ≤ s.params.log2Pmax →
      exec .fftConfig s = .next { s with
        fft := { s.fft with context := some {
          log2p := b
          rev := (List.range (2 ^ b)).map (bitrev b)
          tw := (List.range (2 ^ b)).map (twiddle (2 ^ b)) } }
        res0 := BitVec.ofNat 32 (2 ^ b)
        status := { code := .ok, err := s.status.err } }) ∧
    (s.params.log2Pmax < b →
      exec .fftConfig s = .next { s with status := { code := .badArg, err := true } })

/-- 42_fft.md R170, R171: the checks of FFT_FWD and FFT_INV in their order; a transform that fails one
changes STATUS alone, and one that passes them all reports no failure. -/
def Obligations.TransformChecksInOrder : Prop :=
  ∀ (s : State) (i : Instr), (i = .fftFwd ∨ i = .fftInv) →
    (s.fft.context = none → exec i s = .next { s with status := { code := .noContext, err := true } }) ∧
    ∀ c : FftContext, s.fft.context = some c →
      let p := 2 ^ c.log2p
      let src := s.arg0.toNat
      let len := s.arg1.toNat
      let dst := s.arg2.toNat
      let m := s.arg3.toNat
      (m < p → exec i s = .next { s with status := { code := .outTooShort, err := true } }) ∧
      (p ≤ m → s.params.dmemSize < src + min len p →
        exec i s = .next { s with status := { code := .range, err := true } }) ∧
      (p ≤ m → src + min len p ≤ s.params.dmemSize → s.params.dmemSize < dst + p →
        exec i s = .next { s with status := { code := .range, err := true } }) ∧
      (p ≤ m → src + min len p ≤ s.params.dmemSize → dst + p ≤ s.params.dmemSize →
        ∀ t, exec i s = .next t → t.status = { code := .ok, err := s.status.err })

/-- 42_fft.md R165 to R168: FFT_FWD on readable input completes. Output element `i` is element `i` of the
network run on the bit-reversed, padded or truncated input; WB holds the network's result (as the list of
log entry 12, the model's choice); every byte of DMEM outside the `P` output elements reads as before,
and nothing else changes but STATUS. -/
def Obligations.FftFwdWritesTransform : Prop :=
  ∀ (s : State) (b : Nat) (x : Nat → Complex32), s.fft.context = some (fftContext b) →
    let p := 2 ^ b
    let lr := min s.arg1.toNat p
    p ≤ s.arg3.toNat → s.arg0.toNat + lr ≤ s.params.dmemSize → s.arg2.toNat + p ≤ s.params.dmemSize →
    (∀ j, j < lr →
      Memory.readWord s.dmem (0x1000000 + 8 * (s.arg0.toNat + j)) = some (x j).re ∧
        Memory.readWord s.dmem (0x1000004 + 8 * (s.arg0.toNat + j)) = some (x j).im) →
    ∃ (t : State) (y : List Complex32), exec .fftFwd s = .next t ∧
      y = network (twTable b) b
        ((List.range p).map fun i => if bitrev b i < lr then x (bitrev b i) else ⟨0, 0⟩) ∧
      y.length = p ∧
      (∀ i, i < p → ∀ z, y[i]? = some z →
        Memory.readWord t.dmem (0x1000000 + 8 * (s.arg2.toNat + i)) = some z.re ∧
          Memory.readWord t.dmem (0x1000004 + 8 * (s.arg2.toNat + i)) = some z.im) ∧
      (∀ a, (a < 0x1000000 + 8 * s.arg2.toNat ∨ 0x1000000 + 8 * (s.arg2.toNat + p) ≤ a) →
        Memory.readByte t.dmem a = Memory.readByte s.dmem a) ∧
      t = { s with
        dmem := t.dmem
        fft := { s.fft with wb := y ++ s.fft.wb.drop p }
        status := { code := .ok, err := s.status.err } }

/-- 42_fft.md R165 to R167, R169: FFT_INV on readable input completes. The input is conjugated before the
bit-reversed copy, the padding is not, and each output part is the conjugated result's part times
`f32(1/P)`. WB holds the network's result, before that conjugation and scaling (as the list of log entry
12, the model's choice); every byte of DMEM outside the `P` output elements reads as before, and nothing
else changes but STATUS. -/
def Obligations.FftInvWritesTransform : Prop :=
  ∀ (s : State) (b : Nat) (x : Nat → Complex32), s.fft.context = some (fftContext b) →
    let p := 2 ^ b
    let lr := min s.arg1.toNat p
    p ≤ s.arg3.toNat → s.arg0.toNat + lr ≤ s.params.dmemSize → s.arg2.toNat + p ≤ s.params.dmemSize →
    (∀ j, j < lr →
      Memory.readWord s.dmem (0x1000000 + 8 * (s.arg0.toNat + j)) = some (x j).re ∧
        Memory.readWord s.dmem (0x1000004 + 8 * (s.arg0.toNat + j)) = some (x j).im) →
    ∃ (t : State) (y : List Complex32), exec .fftInv s = .next t ∧
      y = network (twTable b) b
        ((List.range p).map fun i =>
          if bitrev b i < lr then ⟨(x (bitrev b i)).re, neg32 (x (bitrev b i)).im⟩ else ⟨0, 0⟩) ∧
      y.length = p ∧
      (∀ i, i < p → ∀ z, y[i]? = some z →
        Memory.readWord t.dmem (0x1000000 + 8 * (s.arg2.toNat + i)) = some (mul32 z.re (f32OfRat 1 p)) ∧
          Memory.readWord t.dmem (0x1000004 + 8 * (s.arg2.toNat + i)) =
            some (mul32 (neg32 z.im) (f32OfRat 1 p))) ∧
      (∀ a, (a < 0x1000000 + 8 * s.arg2.toNat ∨ 0x1000000 + 8 * (s.arg2.toNat + p) ≤ a) →
        Memory.readByte t.dmem a = Memory.readByte s.dmem a) ∧
      t = { s with
        dmem := t.dmem
        fft := { s.fft with wb := y ++ s.fft.wb.drop p }
        status := { code := .ok, err := s.status.err } }

/-- 42_fft.md R165: the network runs the stages with group size 2, 4, …, `P` in that order (none for `P = 1`),
and a stage with group size `n = 2^(j+1)` replaces every pair `(lo, lo + n/2)` of the work buffer by its
butterfly with the twiddle `k·(P/n)`; the pairs are disjoint, so each butterfly reads what the stage
began with. The product, the sum and the difference are those of R162 and R164. -/
def Obligations.StageIsButterflies : Prop :=
  (∀ (b : Nat) (tw wb : List Complex32) (stage : Nat → List Complex32), stage 0 = wb →
    (∀ j, j < b → stage (j + 1) = stagePass tw (2 ^ b) (2 ^ (j + 1)) (stage j)) → network tw b wb = stage b) ∧
  ∀ (b j : Nat) (tw wb : List Complex32), j < b → wb.length = 2 ^ b →
    let n := 2 ^ (j + 1)
    let out := stagePass tw (2 ^ b) n wb
    out.length = 2 ^ b ∧
      ∀ g k, g * n < 2 ^ b → k < n / 2 →
        let lower := wb.getD (g * n + k) ⟨0, 0⟩
        let upper := wb.getD (g * n + k + n / 2) ⟨0, 0⟩
        let w := tw.getD (k * (2 ^ b / n)) ⟨0, 0⟩
        let t : Complex32 := ⟨sub32 (mul32 w.re upper.re) (mul32 w.im upper.im),
          add32 (mul32 w.re upper.im) (mul32 w.im upper.re)⟩
        out[g * n + k]? = some ⟨add32 lower.re t.re, add32 lower.im t.im⟩ ∧
          out[g * n + k + n / 2]? = some ⟨sub32 lower.re t.re, sub32 lower.im t.im⟩

/-- 42_fft.md R172: a unit impulse of size 8, given with L = 1 or with its zeros and L = 8, transforms to
(1.0, +0.0) in all eight bins. -/
def Obligations.ImpulseHasFlatSpectrum : Prop :=
  ∀ s : State, s.fft.context = some (fftContext 3) →
    8 ≤ s.arg3.toNat → s.arg0.toNat + s.arg1.toNat ≤ s.params.dmemSize → s.arg2.toNat + 8 ≤ s.params.dmemSize →
    (s.arg1 = 1 ∨ s.arg1 = 8) →
    (∀ j, j < s.arg1.toNat →
      Memory.readWord s.dmem (0x1000000 + 8 * (s.arg0.toNat + j)) = some (if j = 0 then 0x3F800000 else 0) ∧
        Memory.readWord s.dmem (0x1000004 + 8 * (s.arg0.toNat + j)) = some 0) →
    ∃ t, exec .fftFwd s = .next t ∧ ∀ i, i < 8 →
      Memory.readWord t.dmem (0x1000000 + 8 * (s.arg2.toNat + i)) = some 0x3F800000 ∧
        Memory.readWord t.dmem (0x1000004 + 8 * (s.arg2.toNat + i)) = some 0

/-- 42_fft.md R169: scaling by `f32(1/P) = 2^-b` is division by `P`, for every pattern. -/
def Obligations.InverseScaleIsDivision : Prop :=
  ∀ (x : Word) (b : Nat), b ≤ 21 → mul32 x (f32OfRat 1 (2 ^ b)) = div32 x (f32OfRat (2 ^ b) 1)

/-! ### The ring buffer -/

/-- 41_ring_buffer.md R140: RB_INIT with a capacity from 1 to RB_MAX empties the window and sets the
capacity, leaving RBMEM; any other capacity reports BAD_ARG and changes nothing else. -/
def Obligations.RbInitSetsCapacity : Prop :=
  ∀ s : State,
    (1 ≤ s.arg0.toNat → s.arg0.toNat ≤ s.params.rbMax →
      exec .rbInit s = .next { s with
        ring := { cap := s.arg0, startT := 0, endT := 0, slots := s.ring.slots }
        status := { code := .ok, err := s.status.err } }) ∧
    (s.arg0.toNat = 0 ∨ s.params.rbMax < s.arg0.toNat →
      exec .rbInit s = .next { s with status := { code := .badArg, err := true } })

/-- 41_ring_buffer.md R141, R131: RB_PUSH stores the value in slot `end_t mod C`, moves the start only when
the window is full, moves the end by one, and changes nothing else but STATUS. A push that would take
`end_t` to 2^64 is outside the spec (93_implementation_defined.md U11; log entry 8) and is refused. -/
def Obligations.RbPushAppends : Prop :=
  ∀ s : State,
    (s.ring.endT.toNat + 1 < 2 ^ 64 →
      ∃ r : RingBuffer,
        exec .rbPush s = .next { s with ring := r, status := { code := .ok, err := s.status.err } } ∧
        r.cap = s.ring.cap ∧ r.endT.toNat = s.ring.endT.toNat + 1 ∧
        (s.ring.endT.toNat = s.ring.startT.toNat + s.ring.cap.toNat → r.startT = s.ring.startT + 1) ∧
        (s.ring.endT.toNat ≠ s.ring.startT.toNat + s.ring.cap.toNat → r.startT = s.ring.startT) ∧
        (∀ j, r.readSlot j =
          if j = s.ring.endT.toNat % s.ring.cap.toNat then s.arg0 else s.ring.readSlot j)) ∧
    (s.ring.endT.toNat + 1 = 2 ^ 64 → exec .rbPush s = .refused .pushCountExhausted)

/-- 41_ring_buffer.md R142, R130: RB_GET of a time in the window returns slot `t mod C` in RES0; of any
other time it reports NOT_AVAILABLE. Nothing else changes. -/
def Obligations.RbGetReadsWindow : Prop :=
  ∀ s : State,
    let t := s.arg0.toNat + 2 ^ 32 * s.arg1.toNat
    (s.ring.startT.toNat ≤ t → t < s.ring.endT.toNat →
      exec .rbGet s = .next { s with
        res0 := s.ring.readSlot (t % s.ring.cap.toNat), status := { code := .ok, err := s.status.err } }) ∧
    (t < s.ring.startT.toNat ∨ s.ring.endT.toNat ≤ t →
      exec .rbGet s = .next { s with status := { code := .notAvailable, err := s.status.err } })

/-- 41_ring_buffer.md R143, R130: RB_UPDATE of a time in the window overwrites slot `t mod C`; of any other
time it reports NOT_FOUND and stores nothing. Nothing else changes. -/
def Obligations.RbUpdateOverwritesWindow : Prop :=
  ∀ s : State,
    let t := s.arg0.toNat + 2 ^ 32 * s.arg1.toNat
    (s.ring.startT.toNat ≤ t → t < s.ring.endT.toNat →
      ∃ r : RingBuffer,
        exec .rbUpdate s = .next { s with ring := r, status := { code := .ok, err := s.status.err } } ∧
        r.cap = s.ring.cap ∧ r.startT = s.ring.startT ∧ r.endT = s.ring.endT ∧
        (∀ j, r.readSlot j = if j = t % s.ring.cap.toNat then s.arg2 else s.ring.readSlot j)) ∧
    (t < s.ring.startT.toNat ∨ s.ring.endT.toNat ≤ t →
      exec .rbUpdate s = .next { s with status := { code := .notFound, err := s.status.err } })

/-- 41_ring_buffer.md R131: the slot of a time is the time modulo the capacity, and two different times of a
window no longer than the capacity have different slots. -/
def Obligations.WindowSlotsDiffer : Prop :=
  (∀ (r : RingBuffer) (t : Time), r.slot t = t.toNat % r.cap.toNat) ∧
  ∀ (r : RingBuffer) (t₁ t₂ : Time), r.endT.toNat ≤ r.startT.toNat + r.cap.toNat →
    r.inWindow t₁ = true → r.inWindow t₂ = true → t₁ ≠ t₂ → r.slot t₁ ≠ r.slot t₂

/-- 41_ring_buffer.md R145: from an empty buffer of capacity C, after C + k pushes with k ≥ 1, start_t is k
and end_t is C + k, RB_GET is NOT_AVAILABLE for every time below k and returns the `t`-th pushed value
for every time from k to C + k - 1. -/
def Obligations.WindowAfterPushes : Prop :=
  ∀ (s : State) (k : Nat) (vs : List Word), s.ring.startT = 0 → s.ring.endT = 0 → 1 ≤ s.ring.cap.toNat →
    1 ≤ k → vs.length = s.ring.cap.toNat + k → vs.length < 2 ^ 64 →
    ∃ u, pushAll vs s = .next u ∧ u.ring.startT.toNat = k ∧ u.ring.endT.toNat = s.ring.cap.toNat + k ∧
      ∀ lo hi : Word,
        let t := lo.toNat + 2 ^ 32 * hi.toNat
        let g := exec .rbGet { u with arg0 := lo, arg1 := hi }
        (t < k → g = .next { u with
          arg0 := lo, arg1 := hi, status := { code := .notAvailable, err := u.status.err } }) ∧
        (s.ring.cap.toNat + k ≤ t → g = .next { u with
          arg0 := lo, arg1 := hi, status := { code := .notAvailable, err := u.status.err } }) ∧
        (k ≤ t → ∀ v, vs[t]? = some v → g = .next { u with
          arg0 := lo, arg1 := hi, res0 := v, status := { code := .ok, err := u.status.err } })

/-! ### The envelope -/

/-- 43_envelope.md R192, R195 (with the rows of R193 and the delta of R194): entry into each state at tick `T`
from the current level. Attack, Decay and Release take the truncated delta of their target and duration
and schedule `T + d`; Sustain and Silent take delta 0 and schedule nothing. Nothing else changes. -/
def Obligations.EnterWritesState : Prop :=
  ∀ (e : Envelope) (t : Time),
    let ramp := fun (target : Int) (duration : Word) =>
      BitVec.ofInt 32
        (min (max ((target - e.level.toInt).tdiv ((max 1 duration.toNat : Nat) : Int)) (-(2 ^ 31))) (2 ^ 31 - 1))
    let due := fun duration : Word => BitVec.ofNat 64 (t.toNat + max 1 duration.toNat)
    e.enter .attack t =
      { e with phase := .attack, sched := true, delta := ramp (2 ^ 30) e.attack, nextT := due e.attack } ∧
    e.enter .decay t =
      { e with phase := .decay, sched := true, delta := ramp e.sustain.toInt e.decay, nextT := due e.decay } ∧
    e.enter .release t =
      { e with phase := .release, sched := true, delta := ramp 0 e.release, nextT := due e.release } ∧
    e.enter .sustain t = { e with phase := .sustain, sched := false, delta := 0, nextT := 0 } ∧
    e.enter .silent t = { e with phase := .silent, sched := false, delta := 0, nextT := 0 }

/-- 43_envelope.md R198, R199: a note event enters Attack or Release from the current level at
the current tick; ENV_LEVEL, the frames and everything else but STATUS are unchanged. -/
def Obligations.NoteEventsEnterRamps : Prop :=
  ∀ s : State,
    let ramp := fun (target : Int) (duration : Word) =>
      BitVec.ofInt 32
        (min (max ((target - s.env.level.toInt).tdiv ((max 1 duration.toNat : Nat) : Int)) (-(2 ^ 31))) (2 ^ 31 - 1))
    let due := fun duration : Word => BitVec.ofNat 64 (s.time.toNat + max 1 duration.toNat)
    exec .envNoteDown s = .next { s with
      env := { s.env with
        phase := .attack, sched := true, delta := ramp (2 ^ 30) s.env.attack, nextT := due s.env.attack }
      status := { code := .ok, err := s.status.err } } ∧
    exec .envNoteUp s = .next { s with
      env := { s.env with
        phase := .release, sched := true, delta := ramp 0 s.env.release, nextT := due s.env.release }
      status := { code := .ok, err := s.status.err } }

/-- 43_envelope.md R200, R201, R202: ENV_TICK enters the successor state first, only when a transition is
scheduled for exactly this tick, then adds DELTA with saturation, then scales every channel by the
updated level; the channels from ENV_NCH on and everything else but STATUS are unchanged. -/
def Obligations.EnvTickProcessesFrame : Prop :=
  ∀ s : State, s.params.envNch ≤ 8 →
    let e := if s.env.sched = true ∧ s.time = s.env.nextT then s.env.enter s.env.phase.succ s.time else s.env
    let level := BitVec.ofInt 32 (min (max (s.env.level.toInt + e.delta.toInt) (-(2 ^ 31))) (2 ^ 31 - 1))
    ∃ out : Vector Word 8,
      exec .envTick s = .next { s with
        env := { e with level := level, output := out }, status := { code := .ok, err := s.status.err } } ∧
      ∀ c, frameGet out c =
        if c < s.params.envNch then mul32 (frameGet s.env.input c) (f32OfRat level.toInt (2 ^ 30))
        else frameGet s.env.output c

/-- 43_envelope.md R194: `d` additions of a ramp's delta never pass the target, whatever the level and the
target. -/
def Obligations.RampNeverPassesTarget : Prop :=
  ∀ (target level : Word) (d : Nat), 1 ≤ d →
    let sum := (d : Int) * (rampDelta target level d).toInt
    (level.toInt ≤ target.toInt → 0 ≤ sum ∧ sum ≤ target.toInt - level.toInt) ∧
      (target.toInt ≤ level.toInt → target.toInt - level.toInt ≤ sum ∧ sum ≤ 0)

/-- 43_envelope.md R204: after entry to Attack, Decay or Release at tick T0 with a level in [0, 1.0], by an
event before the ENV_TICK of T0 or by the transition due inside it, the ENV_TICK of T0 + j leaves the
level `l + (j+1)·δ` for every `j` below the duration, and the ENV_TICK of T0 + d enters the successor
before its addition: it adds the successor's delta. -/
def Obligations.RampShape : Prop :=
  ∀ (s : State) (e₀ : Envelope) (p : EnvPhase), (p = .attack ∨ p = .decay ∨ p = .release) →
    EntersAt e₀ s.env p s.time → levelInRange e₀.level → e₀.sustain.toNat ≤ 0x40000000 →
    let duration := match p with
      | .attack => e₀.attack
      | .decay => e₀.decay
      | _ => e₀.release
    let d := max 1 duration.toNat
    let δ := (e₀.enter p s.time).delta
    (∀ j, j < d → ∃ t, andThen (envPasses j s) .envTick = .next t ∧
      t.env.phase = p ∧ t.env.delta = δ ∧ t.env.level.toInt = e₀.level.toInt + (j + 1) * δ.toInt) ∧
    ∃ u t, envPasses d s = .next u ∧ exec .envTick u = .next t ∧ t.env.phase = p.succ ∧
      t.env.delta = (u.env.enter p.succ u.time).delta ∧
      u.env.level.toInt = e₀.level.toInt + d * δ.toInt ∧
      t.env.level.toInt = u.env.level.toInt + t.env.delta.toInt

/-- 43_envelope.md R203 for one pass, over every state on schedule: note events before or after the ENV_TICK,
then STEP, leave the envelope on schedule for the next tick, and the addition does not saturate. -/
def Obligations.PassKeepsSchedule : Prop :=
  ∀ s : State, s.env.OnSchedule s.time → s.env.sustain.toNat ≤ 0x40000000 →
    (∀ i, (i = .envNoteDown ∨ i = .envNoteUp) → ∃ t, exec i s = .next t ∧ t.env.OnSchedule t.time) ∧
    ∃ t, exec .envTick s = .next t ∧ t.env.OnSchedule (t.time + 1) ∧
      t.env.level.toInt = s.env.level.toInt + t.env.delta.toInt ∧
      (∃ u, exec .step t = .next u ∧ u.env.OnSchedule u.time) ∧
      ∀ i, (i = .envNoteDown ∨ i = .envNoteUp) →
        ∃ v u, exec i t = .next v ∧ exec .step v = .next u ∧ u.env.OnSchedule u.time

/-- 43_envelope.md R203: as long as every pass has exactly one ENV_TICK, ENV_LEVEL is in [0, 0x40000000] at all
times. Every step, a host access, a command or a reset, keeps the envelope on schedule for the tick it
is to process next, with the level in range; the reset state has it; so it holds throughout every run
from reset, however the host's accesses go on. -/
def Obligations.LevelStaysInRange : Prop :=
  (∀ (s t : State) (ticked : Bool), s.InPass ticked → step s = .next t → ∃ u, t.InPass u) ∧
  (∀ (p : Params) (es : List HostEvent), p.Legal → oneTickPerPass false es = true →
    ((State.resetWith p).setPending es).InPass false) ∧
  ∀ (p : Params) (es : List HostEvent) (n : Nat) (t : State), p.Legal → oneTickPerPass false es = true →
    Host.Core.run Sys2Proof.core n ((State.resetWith p).setPending es) = .next t →
    levelInRange t.env.level ∧ t.env.sustain.toNat ≤ 0x40000000

/-- 43_envelope.md R196: the successors; and Sustain, which schedules nothing, is left only by ENV_NOTE_UP
or ENV_NOTE_DOWN. -/
def Obligations.SustainLeftOnlyByNotes : Prop :=
  (EnvPhase.succ .attack = .decay ∧ EnvPhase.succ .decay = .sustain ∧ EnvPhase.succ .sustain = .release ∧
    EnvPhase.succ .release = .silent ∧ EnvPhase.succ .silent = .silent) ∧
  (∀ (e : Envelope) (t : Time), (e.enter .sustain t).sched = false) ∧
  ∀ (i : Instr) (s t : State), s.env.phase = .sustain → s.env.sched = false → exec i s = .next t →
    i ≠ .envNoteDown → i ≠ .envNoteUp → t.env.phase = .sustain ∧ t.env.sched = false

/-! ### The oscillator -/

/-- 44_oscillator.md R221: OSC_INIT with a waveform code 0 to 5 stores the waveform of that code and the
mode, clears phase, PREV and OUT, and keeps everything else but STATUS. -/
def Obligations.OscInitRestarts : Prop :=
  ∀ (s : State) (code : BitVec 3) (aa : Bool) (w : Waveform),
    (code, w) ∈ [((0 : BitVec 3), Waveform.sine), (1, .saw), (2, .square), (3, .triangle), (4, .whiteNoise),
      (5, .pulseTrain)] →
    exec (.oscInit code aa) s = .next { s with
      osc := { s.osc with wave := w, aa := aa, phase := 0, prev := 0, out := 0 }
      status := { code := .ok, err := s.status.err } }

/-- 44_oscillator.md R222, R223, R224: each set command writes its one register by its formula and nothing
else but STATUS. -/
def Obligations.OscSetCommandsWriteOneRegister : Prop :=
  ∀ s : State,
    exec .oscSetFreq s = .next { s with
      osc := { s.osc with inc := div32 (mul32 0x40C90FDB s.arg0) (f32OfRat s.params.sampleRate 1) }
      status := { code := .ok, err := s.status.err } } ∧
    exec .oscSetTranspose s = .next { s with
      osc := { s.osc with transpose := exp2_32 (div32 s.arg0 0x41400000) }
      status := { code := .ok, err := s.status.err } } ∧
    exec .oscSetBend s = .next { s with
      osc := { s.osc with bend := exp2_32 (div32 s.arg0 0x41400000) }
      status := { code := .ok, err := s.status.err } }

/-- 44_oscillator.md R225, R226, R229 to R232, R235 to R238: OSC_TICK advances and wraps the phase by the
effective increment and writes the waveform's sample to OSC_OUT and OSC_PREV; only a white-noise tick
takes a draw (the free value and the counter of log entry 4, the model's own); nothing else changes but
STATUS. -/
def Obligations.OscTickProducesSample : Prop :=
  ∀ (s : State) (lfo : Bool),
    let o := s.osc
    let e₁ := if lfo then mul32 o.inc (exp2_32 (mul32 s.arg0 o.lfoInt)) else o.inc
    let e := mul32 (mul32 e₁ o.bend) o.transpose
    let p₁ := add32 o.phase e
    let p := if ge32 p₁ 0x40C90FDB then sub32 p₁ 0x40C90FDB else p₁
    let t := div32 p 0x40C90FDB
    let dt := div32 e 0x40C90FDB
    let naive : Word := if lt32 p 0x40490FDB then 0x3F800000 else 0xBF800000
    let u₁ := add32 t 0x3F000000
    let u := if ge32 u₁ 0x3F800000 then sub32 u₁ 0x3F800000 else u₁
    let square := if o.aa then sub32 (add32 naive (blep t dt)) (blep u dt) else naive
    let ramp := sub32 (div32 p 0x40490FDB) 0x3F800000
    let y : Word := match o.wave with
      | .sine => sin32 p
      | .saw => if o.aa then sub32 ramp (blep t dt) else ramp
      | .square => square
      | .triangle => add32 (mul32 e square) (mul32 (sub32 0x3F800000 e) o.prev)
      | .whiteNoise => noiseSample s.draws
      | .pulseTrain => if lt32 p e then 0x3F800000 else 0
    exec (.oscTick lfo) s = .next { s with
      osc := { o with phase := p, out := y, prev := y }
      draws := if o.wave = .whiteNoise then s.draws + 1 else s.draws
      status := { code := .ok, err := s.status.err } }

/-- 44_oscillator.md R233: the correction is the rising quadratic within one `dt` after the discontinuity, the
other quadratic within one `dt` before the next one, zero elsewhere; the first test wins. -/
def Obligations.BlepIsTwoSamplePolynomial : Prop :=
  ∀ t dt : Word,
    let x := div32 t dt
    let z := div32 (sub32 t 0x3F800000) dt
    (lt32 t dt = true → blep t dt = sub32 (sub32 (add32 x x) (mul32 x x)) 0x3F800000) ∧
    (lt32 t dt = false → lt32 (sub32 0x3F800000 dt) t = true →
      blep t dt = add32 (add32 (add32 (mul32 z z) z) z) 0x3F800000) ∧
    (lt32 t dt = false → lt32 (sub32 0x3F800000 dt) t = false → blep t dt = 0)

/-- 00_scope.md R11, 44_oscillator.md R237: a white-noise tick outputs its draw (the free value of log entry
4, brought into range by `unitRange`), a value in [-1.0, 1.0] that is no NaN; and every such value is a
possible draw. -/
def Obligations.NoiseStaysInUnitRange : Prop :=
  (∀ (s : State) (lfo : Bool), s.osc.wave = .whiteNoise → ∃ t, exec (.oscTick lfo) s = .next t ∧
    t.osc.out = unitRange (Config.noiseRaw s.draws) ∧ t.draws = s.draws + 1 ∧
    ge32 t.osc.out 0xBF800000 = true ∧ ge32 0x3F800000 t.osc.out = true ∧ isNaN32 t.osc.out = false) ∧
  ∀ v : Word, ge32 v 0xBF800000 = true → ge32 0x3F800000 v = true → unitRange v = v

/-- 44_oscillator.md R229, 10_state.md R57: a phase in [0, 2π) with an effective increment in [0, 2π) stays
in [0, 2π). -/
def Obligations.PhaseStaysBelowTwoPi : Prop :=
  ∀ (s : State) (lfo : Bool),
    let e := s.osc.effInc (s.lfoOperand lfo)
    ge32 s.osc.phase 0 = true → lt32 s.osc.phase 0x40C90FDB = true →
    ge32 e 0 = true → lt32 e 0x40C90FDB = true →
    ∃ t, exec (.oscTick lfo) s = .next t ∧ ge32 t.osc.phase 0 = true ∧ lt32 t.osc.phase 0x40C90FDB = true

/-- 44_oscillator.md R239: the AA bit has no effect on Sine, WhiteNoise and PulseTrain. -/
def Obligations.AaIgnoredBySmoothWaves : Prop :=
  ∀ (s t u : State) (lfo b : Bool),
    (s.osc.wave = .sine ∨ s.osc.wave = .whiteNoise ∨ s.osc.wave = .pulseTrain) →
    exec (.oscTick lfo) s = .next t → exec (.oscTick lfo) { s with osc := { s.osc with aa := b } } = .next u →
    u = { t with osc := { t.osc with aa := b } }

/-- 44_oscillator.md R226: with bend = transpose = 1.0 and no LFO the effective increment is OSC_INC exactly,
where OSC_INC is no NaN. -/
def Obligations.UnitMultipliersKeepIncrement : Prop :=
  ∀ o : Oscillator, o.bend = 0x3F800000 → o.transpose = 0x3F800000 → isNaN32 o.inc = false →
    o.effInc none = o.inc

/-! ### Numerics -/

/-- 00_scope.md R17: `f32` of a rational number is that number rounded to nearest even. -/
def Obligations.RationalsRoundToNearestEven : Prop :=
  ∀ (n : Int) (d : Nat), 0 < d → RoundsTo ((n : ℝ) / d) (f32OfRat n d)

/-- 00_scope.md R17: on finite operands the sum, difference, product and quotient are the exact results
rounded to nearest even, wherever the exact result is not zero; an exact zero has the sign IEEE 754
gives it (log entry 21, PRESUMED). -/
def Obligations.ArithmeticRoundsExactResult : Prop :=
  ∀ (a b : Word) (x y : ℝ), ValueOf a x → ValueOf b y →
    let zero := fun negative : Bool => if negative then (0x80000000 : Word) else 0
    ((x + y ≠ 0 → RoundsTo (x + y) (add32 a b)) ∧ (x - y ≠ 0 → RoundsTo (x - y) (sub32 a b)) ∧
      (x * y ≠ 0 → RoundsTo (x * y) (mul32 a b)) ∧ (y ≠ 0 → x / y ≠ 0 → RoundsTo (x / y) (div32 a b))) ∧
    (x + y = 0 → add32 a b = zero (signBit a && signBit b)) ∧
    (x - y = 0 → sub32 a b = zero (signBit a && !signBit b)) ∧
    (x * y = 0 → mul32 a b = zero (signBit a != signBit b)) ∧
    (y ≠ 0 → x = 0 → div32 a b = zero (signBit a != signBit b))

/-- 00_scope.md R18: a NaN result of the arithmetic is the canonical NaN, and `neg32` flips bit 31 and keeps
every other bit of any pattern. A NaN operand and the invalid operations of IEEE 754 give a NaN, and its
other operations on infinities and division by zero give signed infinities or zeros (log entry 21,
PRESUMED). -/
def Obligations.NaNResultsAreCanonical : Prop :=
  (∀ a b r : Word, (r = add32 a b ∨ r = sub32 a b ∨ r = mul32 a b ∨ r = div32 a b) →
    (isNaN32 r = true → r = 0x7FC00000) ∧ (isNaN32 a = true ∨ isNaN32 b = true → isNaN32 r = true)) ∧
  (∀ (a : Word) (i : Nat), i < 32 →
    (neg32 a).getLsbD i = if i = 31 then !a.getLsbD 31 else a.getLsbD i) ∧
  ∀ a b : Word, isNaN32 a = false → isNaN32 b = false →
    let infinity := if signBit a = signBit b then (0x7F800000 : Word) else 0xFF800000
    let zero := if signBit a = signBit b then (0 : Word) else 0x80000000
    (isInf32 a = true → add32 a b = if isInf32 b = true ∧ signBit a ≠ signBit b then 0x7FC00000 else a) ∧
    (isInf32 a = true → sub32 a b = if isInf32 b = true ∧ signBit a = signBit b then 0x7FC00000 else a) ∧
    (isInf32 a = false → isInf32 b = true → add32 a b = b ∧ sub32 a b = neg32 b) ∧
    (isInf32 a = true ∨ isInf32 b = true →
      mul32 a b = if isZero32 a = true ∨ isZero32 b = true then 0x7FC00000 else infinity) ∧
    (isInf32 a = true → div32 a b = if isInf32 b = true then 0x7FC00000 else infinity) ∧
    (isInf32 a = false → isInf32 b = true → div32 a b = zero) ∧
    (isInf32 a = false → isZero32 b = true → div32 a b = if isZero32 a = true then 0x7FC00000 else infinity)

/-- 00_scope.md R17: the comparisons order the values of finite operands and are false when an operand is a
NaN. -/
def Obligations.ComparisonsOrderValues : Prop :=
  (∀ (a b : Word) (x y : ℝ), ValueOf a x → ValueOf b y →
    (lt32 a b = true ↔ x < y) ∧ (ge32 a b = true ↔ y ≤ x)) ∧
  ∀ a b : Word, (isNaN32 a = true ∨ isNaN32 b = true) → lt32 a b = false ∧ ge32 a b = false

/-- 00_scope.md R22: `q30_to_f32` rounds the fixed-point value, and is exact below 2^24. -/
def Obligations.FixedPointConversionRounds : Prop :=
  (∀ q : Word, RoundsTo ((q.toInt : ℝ) / 2 ^ 30) (q30ToF32 q)) ∧
  ∀ q : Word, |q.toInt| < 2 ^ 24 → ValueOf (q30ToF32 q) ((q.toInt : ℝ) / 2 ^ 30)

/-- 00_scope.md R19: `sin32` and `cos32` of every finite operand are the correctly rounded functions of its
value, and rounding gives one pattern only; a NaN or an infinity gives the canonical NaN. At -0.0 the
sine is the exact zero, which R17 makes +0.0 (log entry 20, DEDUCED). -/
def Obligations.SineAndCosineCorrectlyRounded : Prop :=
  (∀ (a : Word) (x : ℝ), ValueOf a x →
    (∀ v, RoundsTo (Real.sin x) v ↔ sin32 a = v) ∧ ∀ v, RoundsTo (Real.cos x) v ↔ cos32 a = v) ∧
  ∀ a : Word, ¬ isFinite32 a → sin32 a = 0x7FC00000 ∧ cos32 a = 0x7FC00000

/-- 00_scope.md R19: `exp2_32` of every finite operand is the correctly rounded power of two, and rounding
gives one pattern only; its special operands. -/
def Obligations.ExpTwoCorrectlyRounded : Prop :=
  (∀ (a : Word) (x : ℝ), ValueOf a x → ∀ v, RoundsTo ((2 : ℝ) ^ x) v ↔ exp2_32 a = v) ∧
  (∀ a : Word, isNaN32 a = true → exp2_32 a = 0x7FC00000) ∧
  exp2_32 0x7F800000 = 0x7F800000 ∧ exp2_32 0xFF800000 = 0

/-! ### Status, faults of the bus, reset -/

/-- 60_exceptions.md R262: `status(code)` writes CODE, sets ERR for a code from 3 on and else keeps it; ERR is
cleared by a host write to STATUS with bit 8 = 1 and by reset, and by nothing else. The host's writes are
shown at the bus, the commands' over every command that completes. -/
def Obligations.ErrIsSticky : Prop :=
  (∀ (s : State) (c : ResultCode), s.report c = { s with
    status := { code := c, err := if 3 ≤ c.number then true else s.status.err } }) ∧
  (∀ (s : State) (es : List HostEvent) (v : Word),
    (s.port.pending = .reset :: es ∨ s.port.pending = .resetDuring v :: es) →
      ∃ t, step s = .next t ∧ t.status.err = false) ∧
  (∀ (i : Instr) (s t : State), exec i s = .next t →
    (3 ≤ t.status.code.number → t.status.err = true) ∧
      (t.status.code.number < 3 → t.status.err = s.status.err)) ∧
  (∀ (s : State) (v : Word) (es : List HostEvent), s.port.pending = .write 0x004 4 v :: es →
    step s = .next { s with
      status := { code := s.status.code, err := if v.getLsbD 8 then false else s.status.err }
      port := { pending := es, response := some .ack } }) ∧
  ∀ (s t : State) (e : HostEvent) (es : List HostEvent), s.port.pending = e :: es → step s = .next t →
    s.status.err = true → t.status.err = false →
      (∃ v, e = .write 0x004 4 v ∧ v.getLsbD 8 = true) ∨ e = .reset ∨ ∃ v, e = .resetDuring v

/-- 60_exceptions.md R261: the codes each command may write. -/
def Obligations.CommandsWriteListedCodes : Prop :=
  ∀ (i : Instr) (s t : State), i.wellFormed = true → exec i s = .next t →
    t.status.code.number ∈ (match i with
      | .fftConfig => [0, 5]
      | .fftFwd => [0, 3, 6, 7]
      | .fftInv => [0, 3, 6, 7]
      | .rbInit => [0, 5]
      | .rbGet => [0, 1]
      | .rbUpdate => [0, 2]
      | _ => [0])

/-- 60_exceptions.md R263: a command that writes a code from 1 on changes no state other than STATUS, and
neither does a command word, one that decodes to ILLEGAL included. -/
def Obligations.FailureChangesOnlyStatus : Prop :=
  (∀ (i : Instr) (s t : State),
    exec i s = .next t → 1 ≤ t.status.code.number → t = { s with status := t.status }) ∧
  ∀ (w : Word) (s t : State),
    executeWord exec w s = .next t → 1 ≤ t.status.code.number → t = { s with status := t.status }

/-- 40_control.md R113, 10_state.md R37, R39, R43: no command writes ARG0 to ARG3 or a parameter; TIME is
written by STEP alone; a command writes no state of a unit other than its own; RES0 only by FFT_CONFIG
and RB_GET; and no byte of DMEM but by FFT_FWD and FFT_INV, which leave the context alone. -/
def Obligations.CommandsWriteOnlyTheirUnit : Prop :=
  ∀ (i : Instr) (s t : State), exec i s = .next t →
    (t.params = s.params ∧ t.arg0 = s.arg0 ∧ t.arg1 = s.arg1 ∧ t.arg2 = s.arg2 ∧ t.arg3 = s.arg3 ∧
      t.port = s.port) ∧
    (i ≠ .step → t.time = s.time) ∧
    (i ≠ .fftConfig → i ≠ .rbGet → t.res0 = s.res0) ∧
    (i ≠ .fftConfig → t.fft.context = s.fft.context) ∧
    (i ≠ .fftFwd → i ≠ .fftInv → t.fft.wb = s.fft.wb ∧
      ∀ a, Memory.readByte t.dmem a = Memory.readByte s.dmem a) ∧
    (i ≠ .rbInit → i ≠ .rbPush → i ≠ .rbUpdate → t.ring = s.ring) ∧
    (i ≠ .envNoteDown → i ≠ .envNoteUp → i ≠ .envTick → t.env = s.env) ∧
    ((∀ w b, i ≠ .oscInit w b) → i ≠ .oscSetFreq → i ≠ .oscSetTranspose → i ≠ .oscSetBend →
      (∀ b, i ≠ .oscTick b) → t.osc = s.osc ∧ t.draws = s.draws)

/-- 20_memory.md R73, R74, 10_state.md R36: an access of another width than 4 bytes, at an offset not a
multiple of 4, or at an unmapped offset is a BusError; every other read of a register completes, and so
does every other write that is no CMD write. -/
def Obligations.BusErrorsExactly : Prop :=
  ∀ (s : State) (off : Offset) (n : Nat) (v : Word) (es : List HostEvent), s.params.Legal →
    (¬ (n = 4 ∧ off.toNat % 4 = 0 ∧ MappedOffset s.params off.toNat) →
      (s.port.pending = .read off n :: es → step s = .fault (.busError off)) ∧
      (s.port.pending = .write off n v :: es → step s = .fault (.busError off))) ∧
    (n = 4 → off.toNat % 4 = 0 → MappedOffset s.params off.toNat →
      (s.port.pending = .read off n :: es → off.toNat < 0x1000000 → ∃ t, step s = .next t) ∧
      (s.port.pending = .write off n v :: es → off ≠ 0 → ∃ t, step s = .next t))

/-- 70_reset_and_hazards.md R283, 20_memory.md R77: a host read of a DMEM word returns the word last stored
there, and of a word with an unwritten byte is a fault; and so is a transform, its checks passed, with an
unwritten word among its input elements (log entry 2). -/
def Obligations.DmemReadReturnsStoredWord : Prop :=
  (∀ (s : State) (off : Offset) (es : List HostEvent) (i : Nat), i < s.params.dmemSize → s.params.Legal →
    (off.toNat = 0x1000000 + 8 * i ∨ off.toNat = 0x1000004 + 8 * i) → s.port.pending = .read off 4 :: es →
    (∀ v, Memory.readWord s.dmem off.toNat = some v →
      step s = .next { s with port := { pending := es, response := some (.data v) } }) ∧
    (Memory.readWord s.dmem off.toNat = none → step s = .fault (.unwrittenDmem off.toNat))) ∧
  ∀ (s : State) (i : Instr) (b off : Nat), (i = .fftFwd ∨ i = .fftInv) →
    s.fft.context = some (fftContext b) →
    let p := 2 ^ b
    let lr := min s.arg1.toNat p
    let input := fun a => ∃ k, k < lr ∧
      (a = 0x1000000 + 8 * (s.arg0.toNat + k) ∨ a = 0x1000004 + 8 * (s.arg0.toNat + k))
    p ≤ s.arg3.toNat → s.arg0.toNat + lr ≤ s.params.dmemSize → s.arg2.toNat + p ≤ s.params.dmemSize →
    input off → Memory.readWord s.dmem off = none →
    ∃ a, input a ∧ Memory.readWord s.dmem a = none ∧ exec i s = .fault (.unwrittenDmem a)

/-- 20_memory.md R76, 40_control.md R111: a read that completes changes nothing but the bus. -/
def Obligations.ReadsHaveNoSideEffect : Prop :=
  ∀ (s t : State) (off : Offset) (n : Nat) (es : List HostEvent), s.port.pending = .read off n :: es →
    step s = .next t → ∃ v, t = { s with port := { pending := es, response := some (.data v) } }

/-- 20_memory.md R76, 10_state.md R38, R54: a host write and a read of the same offset after it: an RW
register or a DMEM word returns the word written, ENV_SUSTAIN the word clamped to [0, 0x40000000]. -/
def Obligations.WriteThenReadReturns : Prop :=
  ∀ (s : State) (off : Offset) (v : Word) (es : List HostEvent), s.params.Legal →
    s.port.pending = .write off 4 v :: .read off 4 :: es →
    ((off.toNat ∈ [0x008, 0x00C, 0x010, 0x014, 0x318, 0x31C, 0x324, 0x414] ∨
        (∃ c, c < s.params.envNch ∧ off.toNat = 0x340 + 4 * c) ∨
        (∃ i, i < s.params.dmemSize ∧ (off.toNat = 0x1000000 + 8 * i ∨ off.toNat = 0x1000004 + 8 * i))) →
      ∃ t, step s = .next t ∧ ∃ u, step t = .next u ∧ u.port.response = some (.data v)) ∧
    (off.toNat = 0x320 →
      ∃ t, step s = .next t ∧ ∃ u, step t = .next u ∧
        u.port.response = some (.data (BitVec.ofInt 32 (min (max v.toInt 0) 0x40000000))))

/-- 40_control.md R110, 10_state.md R38: a host write changes the register it names and nothing else of the
block; a write to a read-only register changes nothing. A DMEM write stores its four bytes and leaves
every other byte alone. -/
def Obligations.HostWriteChangesOnlyItsRegister : Prop :=
  ∀ (s : State) (off : Offset) (v : Word) (es : List HostEvent), s.params.Legal →
    s.port.pending = .write off 4 v :: es →
    let q : HostPort := { pending := es, response := some .ack }
    (off = 0x008 → step s = .next { s with arg0 := v, port := q }) ∧
    (off = 0x00C → step s = .next { s with arg1 := v, port := q }) ∧
    (off = 0x010 → step s = .next { s with arg2 := v, port := q }) ∧
    (off = 0x014 → step s = .next { s with arg3 := v, port := q }) ∧
    (off = 0x318 → step s = .next { s with env := { s.env with attack := v }, port := q }) ∧
    (off = 0x31C → step s = .next { s with env := { s.env with decay := v }, port := q }) ∧
    (off = 0x320 → ∃ w, step s = .next { s with env := { s.env with sustain := w }, port := q }) ∧
    (off = 0x324 → step s = .next { s with env := { s.env with release := v }, port := q }) ∧
    (off = 0x414 → step s = .next { s with osc := { s.osc with lfoInt := v }, port := q }) ∧
    (∀ c, c < s.params.envNch → off.toNat = 0x340 + 4 * c →
      ∃ f, step s = .next { s with env := { s.env with input := f }, port := q } ∧
        ∀ d, frameGet f d = if d = c then v else frameGet s.env.input d) ∧
    (∀ i, i < s.params.dmemSize → (off.toNat = 0x1000000 + 8 * i ∨ off.toNat = 0x1000004 + 8 * i) →
      ∃ m : Memory, step s = .next { s with dmem := m, port := q } ∧
        ∀ a, Memory.readByte m a =
          if off.toNat ≤ a ∧ a < off.toNat + 4 then some (v.extractLsb' (8 * (a - off.toNat)) 8)
          else Memory.readByte s.dmem a) ∧
    (off.toNat ∈ [0x018, 0x020, 0x024, 0x030, 0x034, 0x038, 0x03C, 0x100, 0x104, 0x200, 0x208, 0x20C, 0x210,
        0x214, 0x300, 0x304, 0x308, 0x310, 0x314, 0x400, 0x404, 0x408, 0x40C, 0x410, 0x418, 0x41C] ∨
      (∃ c, c < s.params.envNch ∧ off.toNat = 0x360 + 4 * c) →
      step s = .next { s with port := q })

/-- 10_state.md R36, 40_control.md R111: what a host read of each register returns, by its offset: the content
of the register R36 names there, with the fields and codes of R32, R35, R40, R41, R49, R50, R56 and
60_exceptions.md R260 at their bits and 0 elsewhere, and a 64-bit counter as its two halves (R37, R47, R50).
The DMEM words are those of `DmemReadReturnsStoredWord`. -/
def Obligations.FieldsReadAtTheirBits : Prop :=
  ∀ (s : State) (off : Offset) (es : List HostEvent), s.params.Legal → s.fft.Inv s.params.log2Pmax →
    s.port.pending = .read off 4 :: es →
    let bit := fun (b : Bool) (k : Nat) => if b then 2 ^ k else 0
    let code := match s.status.code with
      | .ok => 0
      | .notAvailable => 1
      | .notFound => 2
      | .outTooShort => 3
      | .illegal => 4
      | .badArg => 5
      | .noContext => 6
      | .range => 7
    let ctrl := match s.fft.context with
      | none => 0
      | some c => 1 + 2 ^ 8 * c.log2p
    let size := match s.fft.context with
      | none => 0
      | some c => 2 ^ c.log2p
    let phase := match s.env.phase with
      | .silent => 0
      | .attack => 1
      | .decay => 2
      | .sustain => 3
      | .release => 4
    let wave := match s.osc.wave with
      | .sine => 0
      | .saw => 1
      | .square => 2
      | .triangle => 3
      | .whiteNoise => 4
      | .pulseTrain => 5
    let fixed : List (Nat × Nat) :=
      [(0x000, 0), (0x004, code + bit s.status.err 8), (0x008, s.arg0.toNat), (0x00C, s.arg1.toNat),
       (0x010, s.arg2.toNat), (0x014, s.arg3.toNat), (0x018, s.res0.toNat),
       (0x020, s.time.toNat % 2 ^ 32), (0x024, s.time.toNat / 2 ^ 32),
       (0x030, s.params.log2Pmax + 2 ^ 8 * s.params.envNch), (0x034, s.params.dmemSize),
       (0x038, s.params.rbMax), (0x03C, s.params.sampleRate), (0x100, ctrl), (0x104, size),
       (0x200, s.ring.cap.toNat), (0x208, s.ring.startT.toNat % 2 ^ 32), (0x20C, s.ring.startT.toNat / 2 ^ 32),
       (0x210, s.ring.endT.toNat % 2 ^ 32), (0x214, s.ring.endT.toNat / 2 ^ 32),
       (0x300, phase + bit s.env.sched 3), (0x304, s.env.level.toNat), (0x308, s.env.delta.toNat),
       (0x310, s.env.nextT.toNat % 2 ^ 32), (0x314, s.env.nextT.toNat / 2 ^ 32),
       (0x318, s.env.attack.toNat), (0x31C, s.env.decay.toNat), (0x320, s.env.sustain.toNat),
       (0x324, s.env.release.toNat), (0x400, wave + bit s.osc.aa 3), (0x404, s.osc.phase.toNat),
       (0x408, s.osc.inc.toNat), (0x40C, s.osc.transpose.toNat), (0x410, s.osc.bend.toNat),
       (0x414, s.osc.lfoInt.toNat), (0x418, s.osc.prev.toNat), (0x41C, s.osc.out.toNat)]
    let answers := fun content : Nat => ∃ v : Word, v.toNat = content ∧
      step s = .next { s with port := { pending := es, response := some (.data v) } }
    (∀ row, row ∈ fixed → off.toNat = row.1 → answers row.2) ∧
    ∀ c, c < s.params.envNch →
      (off.toNat = 0x340 + 4 * c → answers (frameGet s.env.input c).toNat) ∧
      (off.toNat = 0x360 + 4 * c → answers (frameGet s.env.output c).toNat)

/-- 10_state.md R64, 70_reset_and_hazards.md R280: what reset leaves, under any legal parameters, in the
words the host reads; no context, an empty window and no written DMEM byte; and the reset event leaves
that state, the parameters kept, also while a command stalls the bus (that access's response is then the
free value of log entry 6). That a reset event keeps the count of draws and, between accesses, the last
bus response is the model's choice for its own fields (log entries 4 and 13). -/
def Obligations.ResetLeavesTheTable : Prop :=
  (∀ p : Params, p.Legal →
    let s := State.resetWith p
    s.params = p ∧
    (∀ r, r ∈ [Reg.status, .arg0, .arg1, .arg2, .arg3, .res0, .timeLo, .timeHi, .fftCtrl, .fftSize, .rbStartLo,
        .rbStartHi, .rbEndLo, .rbEndHi, .envStat, .envLevel, .envDelta, .envNextLo, .envNextHi, .envAttack,
        .envDecay, .envSustain, .envRelease, .oscCfg, .oscPhase, .oscInc, .oscLfoInt, .oscPrev, .oscOut] →
      readReg s r = .ok 0) ∧
    (∀ c, readReg s (.envIn c) = .ok 0 ∧ readReg s (.envOut c) = .ok 0) ∧
    readReg s .oscTranspose = .ok 0x3F800000 ∧ readReg s .oscBend = .ok 0x3F800000 ∧
    (∃ v, readReg s .rbCap = .ok v ∧ v.toNat = p.rbMax) ∧
    s.fft.context = none ∧ ∀ a, Memory.readByte s.dmem a = none) ∧
  (∀ (s : State) (es : List HostEvent), s.port.pending = .reset :: es →
    ∃ t, step s = .next t ∧
      t = { State.resetWith s.params with
        draws := s.draws, port := { pending := es, response := s.port.response } }) ∧
  ∀ (s : State) (w : Word) (es : List HostEvent), s.port.pending = .resetDuring w :: es →
    ∃ t r, step s = .next t ∧
      t = { State.resetWith s.params with
        draws := s.draws + 1, port := { pending := es, response := some r } }

/-! ### The invariant -/

/-- The invariant of the block holds after reset under any legal parameters. -/
def Obligations.ResetSatisfiesInvariant : Prop := ∀ p : Params, p.Legal → (State.resetWith p).Inv

/-- 10_state.md R40 to R48, R54, R61, 43_envelope.md R195, 20_memory.md R77: every step keeps the invariant of
the block, from every state that has it: a host access, a command or a reset. -/
def Obligations.StepKeepsInvariant : Prop := ∀ s t : State, s.Inv → step s = .next t → t.Inv

/-- 10_state.md R48, 41_ring_buffer.md R130: under the invariant RB_GET never returns an unspecified slot: the
answer does not depend on what an unwritten slot holds. -/
def Obligations.RbGetReturnsWrittenSample : Prop :=
  ∀ s t : State, s.Inv → exec .rbGet s = .next t → t.status.code = .ok →
    findKey s.ring.slots ((s.arg0.toNat + 2 ^ 32 * s.arg1.toNat) % s.ring.cap.toNat) = some t.res0
end

