-- ==== Sys2Proof/Laws/Enclosure.lean ====
section
/-! SUPPORT. The laws of the enclosures: each operation on enclosures encloses the operation on the real
numbers enclosed, and the series, π, ln 2, the sine and cosine and the power of two are enclosed. -/

namespace Sys2Proof.Machine

/-- The enclosure's ends lie around the real number, in units of 2^-384. -/
def Enclosure.Holds (a : Enclosure) (x : ℝ) : Prop := (a.lo : ℝ) ≤ x * encScale ∧ x * encScale ≤ a.hi

theorem encScale_pos : (0 : ℝ) < encScale := by
  have : 0 < encScale := by decide +kernel
  exact_mod_cast this

/-! ### Outward rounding of a quotient -/

theorem ediv_mul_le_real (a : Int) {d : Nat} (hd : 0 < d) : ((a / (d : Int) : Int) : ℝ) * d ≤ a := by
  have := Int.ediv_mul_le a (Int.natCast_ne_zero.2 hd.ne')
  exact_mod_cast this

theorem le_ceilDiv_mul_real (a : Int) {d : Nat} (hd : 0 < d) : (a : ℝ) ≤ (ceilDiv a d : ℝ) * d := by
  have := ediv_mul_le_real (-a) hd
  unfold ceilDiv
  push_cast at this ⊢
  linarith

/-! ### Arithmetic -/

theorem encInt_holds (n : Int) : (encInt n).Holds n := by
  simp [Enclosure.Holds, encInt]

theorem encRat_holds (n : Int) {d : Nat} (hd : 0 < d) : (encRat n d).Holds ((n : ℝ) / d) := by
  have hd' : (0 : ℝ) < d := by exact_mod_cast hd
  have h1 := ediv_mul_le_real (n * encScale) hd
  have h2 := le_ceilDiv_mul_real (n * encScale) hd
  have e : (n : ℝ) / d * encScale = ((n * encScale : Int) : ℝ) / d := by push_cast; ring
  unfold Enclosure.Holds encRat
  rw [e]
  exact ⟨(le_div_iff₀ hd').2 h1, (div_le_iff₀ hd').2 h2⟩

theorem encAdd_holds {a b : Enclosure} {x y : ℝ} (ha : a.Holds x) (hb : b.Holds y) : (encAdd a b).Holds (x + y) := by
  unfold Enclosure.Holds encAdd at *
  push_cast
  constructor <;> nlinarith

theorem encSub_holds {a b : Enclosure} {x y : ℝ} (ha : a.Holds x) (hb : b.Holds y) : (encSub a b).Holds (x - y) := by
  unfold Enclosure.Holds encSub at *
  push_cast
  constructor <;> nlinarith

/-- A product of two enclosed numbers lies between the extreme products of the ends. -/
theorem mul_between {a b c d x y : ℝ} (h1 : a ≤ x) (h2 : x ≤ b) (h3 : c ≤ y) (h4 : y ≤ d) :
    min (min (a * c) (a * d)) (min (b * c) (b * d)) ≤ x * y ∧
      x * y ≤ max (max (a * c) (a * d)) (max (b * c) (b * d)) := by
  simp only [min_le_iff, le_max_iff]
  constructor
  · rcases le_total 0 y with hy | hy
    · rcases le_total 0 a with ha | ha
      · exact .inl (.inl (by nlinarith))
      · exact .inl (.inr (by nlinarith))
    · rcases le_total 0 b with hb | hb
      · exact .inr (.inl (by nlinarith))
      · exact .inr (.inr (by nlinarith))
  · rcases le_total 0 y with hy | hy
    · rcases le_total 0 b with hb | hb
      · exact .inr (.inr (by nlinarith))
      · exact .inr (.inl (by nlinarith))
    · rcases le_total 0 a with ha | ha
      · exact .inl (.inr (by nlinarith))
      · exact .inl (.inl (by nlinarith))

theorem encMul_holds {a b : Enclosure} {x y : ℝ} (ha : a.Holds x) (hb : b.Holds y) : (encMul a b).Holds (x * y) := by
  have hS := encScale_pos
  have hS' : 0 < encScale := by exact_mod_cast hS
  obtain ⟨l, u⟩ := mul_between ha.1 ha.2 hb.1 hb.2
  have e : x * encScale * (y * encScale) = x * y * encScale * encScale := by ring
  rw [e] at l u
  constructor
  · have h := ediv_mul_le_real
      (min (min (a.lo * b.lo) (a.lo * b.hi)) (min (a.hi * b.lo) (a.hi * b.hi))) hS'
    push_cast at h
    exact le_of_mul_le_mul_right (h.trans l) hS
  · have h := le_ceilDiv_mul_real
      (max (max (a.lo * b.lo) (a.lo * b.hi)) (max (a.hi * b.lo) (a.hi * b.hi))) hS'
    push_cast at h
    exact le_of_mul_le_mul_right (u.trans h) hS

theorem encDivNat_holds {a : Enclosure} {x : ℝ} (ha : a.Holds x) {d : Nat} (hd : 0 < d) : (encDivNat a d).Holds (x / d) := by
  have hd' : (0 : ℝ) < d := by exact_mod_cast hd
  have h1 := ediv_mul_le_real a.lo hd
  have h2 := le_ceilDiv_mul_real a.hi hd
  have e : x / d * encScale = x * encScale / d := by ring
  unfold Enclosure.Holds encDivNat
  rw [e]
  exact ⟨(le_div_iff₀ hd').2 (h1.trans ha.1), (div_le_iff₀ hd').2 (ha.2.trans h2)⟩

theorem encFour_holds {a : Enclosure} {x : ℝ} (ha : a.Holds x) : (encFour a).Holds (4 * x) := by
  unfold Enclosure.Holds encFour at *
  push_cast
  constructor <;> nlinarith

/-- A number within one unit of an enclosed one is in the widened enclosure. -/
theorem encWiden_holds {a : Enclosure} {x y : ℝ} (ha : a.Holds y) (h : |x - y| * encScale ≤ 1) : (encWiden a).Holds x := by
  have hS := encScale_pos
  have h1 := mul_le_mul_of_nonneg_right (le_abs_self (x - y)) hS.le
  have h2 := mul_le_mul_of_nonneg_right (neg_abs_le (x - y)) hS.le
  unfold Enclosure.Holds encWiden at *
  push_cast
  constructor <;> nlinarith

/-! ### The exponential series -/

/-- The series an `expSeries` encloses, over any field. -/
def seriesValue {K : Type} [Field K] (x : K) : Nat → Nat → K
  | 0, _ => 1
  | n + 1, j => 1 + x * seriesValue x n (j + 1) / j

theorem seriesValue_eq {K : Type} [Field K] [CharZero K] (x : K) (n j : Nat) :
    seriesValue x n (j + 1) = ∑ m ∈ Finset.range (n + 1), x ^ m / ((j + 1).ascFactorial m : K) := by
  induction n generalizing j with
  | zero => simp [seriesValue]
  | succ n ih =>
    rw [seriesValue, ih]
    conv_rhs => rw [Finset.sum_range_succ', add_comm]
    congr 1
    · simp
    · rw [Finset.mul_sum, Finset.sum_div]
      refine Finset.sum_congr rfl fun m _ => ?_
      have h1 : ((j + 1 : Nat) : K) ≠ 0 := Nat.cast_ne_zero.2 (by omega)
      have h2 : ((j + 1 + 1).ascFactorial m : K) ≠ 0 :=
        Nat.cast_ne_zero.2 (Nat.ascFactorial_pos (j + 1) m).ne'
      have h3 : ((j + 1).ascFactorial (m + 1) : K) = ((j + 1 : Nat) : K) * ((j + 1 + 1).ascFactorial m : K) := by
        rw [← Nat.cast_mul, Nat.succ_ascFactorial, Nat.ascFactorial_succ]
      rw [h3]
      field_simp
      ring

theorem expSeries_holds {a : Enclosure} {x : ℝ} (ha : a.Holds x) (n j : Nat) : (expSeries a n (j + 1)).Holds (seriesValue x n (j + 1)) := by
  induction n generalizing j with
  | zero => simpa [expSeries, seriesValue] using encInt_holds 1
  | succ n ih =>
    rw [expSeries, seriesValue]
    exact encAdd_holds (by simpa using encInt_holds 1) (encDivNat_holds (encMul_holds ha (ih (j + 1))) (by omega))

theorem cisSeries_holds {a : Enclosure} {x : ℝ} (ha : a.Holds x) (n j : Nat) :
    (cisSeries a n (j + 1)).1.Holds (seriesValue (Complex.I * x) n (j + 1)).re ∧
      (cisSeries a n (j + 1)).2.Holds (seriesValue (Complex.I * x) n (j + 1)).im := by
  induction n generalizing j with
  | zero => exact ⟨by simpa [cisSeries, seriesValue] using encInt_holds 1, by simpa [cisSeries, seriesValue] using encInt_holds 0⟩
  | succ n ih =>
    obtain ⟨h1, h2⟩ := ih (j + 1)
    set z := seriesValue (Complex.I * x) n (j + 1 + 1) with hz
    have e : seriesValue (Complex.I * x) (n + 1) (j + 1) =
        ⟨1 - x * z.im / ((j + 1 : Nat) : ℝ), x * z.re / ((j + 1 : Nat) : ℝ)⟩ := by
      rw [seriesValue, ← hz]
      have : Complex.I * x * z / ((j + 1 : Nat) : ℂ) = ⟨-(x * z.im / ((j + 1 : Nat) : ℝ)), x * z.re / ((j + 1 : Nat) : ℝ)⟩ := by
        rw [← Complex.ofReal_natCast, Complex.div_ofReal]
        apply Complex.ext <;> simp
        ring
      rw [this]
      apply Complex.ext <;> simp
      ring
    rw [e, cisSeries]
    exact ⟨encSub_holds (by simpa using encInt_holds 1) (encDivNat_holds (encMul_holds ha h2) (by omega)),
      encDivNat_holds (encMul_holds ha h1) (by omega)⟩

/-- The rest of the series after `expTerms` is below one unit. -/
theorem series_rest : ((85 : Nat).succ / (Nat.factorial 85 * (85 : Nat)) : ℝ) * encScale ≤ 1 := by
  have h : 86 * encScale ≤ Nat.factorial 85 * 85 := by decide +kernel
  have h' : (86 : ℝ) * encScale ≤ Nat.factorial 85 * 85 := by exact_mod_cast h
  have hp : (0 : ℝ) < Nat.factorial 85 * 85 := by positivity
  rw [div_mul_eq_mul_div, div_le_one (by exact_mod_cast hp)]
  push_cast at h' ⊢
  linarith

theorem encExp_holds {a : Enclosure} {x : ℝ} (ha : a.Holds x) (hx : |x| ≤ 1) : (encExp a).Holds (Real.exp x) := by
  refine encWiden_holds (expSeries_holds ha expTerms 0) ?_
  rw [seriesValue_eq]
  simp only [Nat.zero_add, Nat.one_ascFactorial, expTerms]
  refine le_trans ?_ series_rest
  refine mul_le_mul_of_nonneg_right ?_ encScale_pos.le
  refine (Real.exp_bound hx (by norm_num : 0 < 85)).trans ?_
  have : |x| ^ 85 ≤ 1 := pow_le_one₀ (abs_nonneg _) hx
  exact mul_le_of_le_one_left (by positivity) this

/-- A pair of enclosures around the cosine and the sine of an angle. -/
def CisHolds (z : Enclosure × Enclosure) (x : ℝ) : Prop := z.1.Holds (Real.cos x) ∧ z.2.Holds (Real.sin x)

theorem encCis_holds {a : Enclosure} {x : ℝ} (ha : a.Holds x) (hx : |x| ≤ 1) : CisHolds (encCis a) x := by
  obtain ⟨h1, h2⟩ := cisSeries_holds ha expTerms 0
  have hb : ‖Complex.exp (Complex.I * x) - seriesValue (Complex.I * x) expTerms 1‖ * encScale ≤ 1 := by
    have e : seriesValue (Complex.I * x) expTerms 1 = _ := seriesValue_eq _ _ 0
    rw [e]
    simp only [Nat.zero_add, Nat.one_ascFactorial, expTerms]
    refine le_trans ?_ series_rest
    refine mul_le_mul_of_nonneg_right ?_ encScale_pos.le
    have hn : ‖Complex.I * (x : ℂ)‖ = |x| := by simp
    refine (Complex.exp_bound (hn ▸ hx) (by norm_num : 0 < 85)).trans ?_
    rw [hn]
    have : |x| ^ 85 ≤ 1 := pow_le_one₀ (abs_nonneg _) hx
    refine le_trans (mul_le_of_le_one_left (by positivity) this) ?_
    rw [div_eq_mul_inv]
  have hc : Complex.exp (Complex.I * x) = ⟨Real.cos x, Real.sin x⟩ := by
    rw [mul_comm, Complex.exp_mul_I]
    apply Complex.ext <;> simp [← Complex.ofReal_cos, ← Complex.ofReal_sin]
  rw [hc] at hb
  refine ⟨encWiden_holds h1 (le_trans ?_ hb), encWiden_holds h2 (le_trans ?_ hb)⟩
  · refine mul_le_mul_of_nonneg_right ?_ encScale_pos.le
    simpa using Complex.abs_re_le_norm ((⟨Real.cos x, Real.sin x⟩ : ℂ) - seriesValue (Complex.I * x) expTerms 1)
  · refine mul_le_mul_of_nonneg_right ?_ encScale_pos.le
    simpa using Complex.abs_im_le_norm ((⟨Real.cos x, Real.sin x⟩ : ℂ) - seriesValue (Complex.I * x) expTerms 1)

theorem doubleAngle_holds {z : Enclosure × Enclosure} {x : ℝ} (h : CisHolds z x) : CisHolds (doubleAngle z) (2 * x) := by
  obtain ⟨h1, h2⟩ := h
  refine ⟨?_, ?_⟩
  · rw [Real.cos_two_mul', sq, sq]
    exact encSub_holds (encMul_holds h1 h1) (encMul_holds h2 h2)
  · have e : Real.sin (2 * x) = Real.cos x * Real.sin x + Real.cos x * Real.sin x := by rw [Real.sin_two_mul]; ring
    rw [e]
    exact encAdd_holds (encMul_holds h1 h2) (encMul_holds h1 h2)

theorem doubleAngles_holds (n : Nat) {z : Enclosure × Enclosure} {x : ℝ} (h : CisHolds z x) :
    CisHolds (doubleAngles n z) (2 ^ n * x) := by
  induction n generalizing z x with
  | zero => simpa [doubleAngles] using h
  | succ n ih =>
    have := ih (doubleAngle_holds h)
    rwa [← mul_assoc, ← pow_succ] at this

/-- The cosine and the sine of a rational are enclosed. -/
theorem encCisRat_holds (n : Nat) {d : Nat} (hd : 0 < d) : CisHolds (encCisRat n d) ((n : ℝ) / d) := by
  unfold encCisRat
  simp only
  set h := Nat.log2 (n / d) + 1 with hh
  have hd' : (0 : ℝ) < d := by exact_mod_cast hd
  have hq : n / d < 2 ^ h := Nat.lt_log2_self
  have hn : n < 2 ^ h * d := (Nat.div_lt_iff_lt_mul hd).1 hq
  have hn' : (n : ℝ) < 2 ^ h * d := by exact_mod_cast hn
  have hp : (0 : ℝ) < 2 ^ h := by positivity
  have e : (n : ℝ) / d = 2 ^ h * ((n : ℝ) / (d * 2 ^ h)) := by field_simp
  rw [e]
  refine doubleAngles_holds h (encCis_holds ?_ ?_)
  · have := encRat_holds n (d := d * 2 ^ h) (by positivity)
    push_cast at this
    exact this
  · rw [abs_of_nonneg (by positivity), div_le_one (by positivity)]
    linarith

/-! ### π and ln 2 -/

theorem arctanInvTerms_holds {d : Nat} (hd : 0 < d) (n j : Nat) :
    (arctanInvTerms d n j).Holds (∑ m ∈ Finset.range n, (-1 : ℝ) ^ (j + m) * ((d : ℝ)⁻¹) ^ (2 * (j + m) + 1) / ((2 * (j + m) + 1 : Nat) : ℝ)) := by
  induction n generalizing j with
  | zero => simpa [arctanInvTerms] using encInt_holds 0
  | succ n ih =>
    rw [arctanInvTerms, Finset.sum_range_succ', add_comm (Finset.sum _ _)]
    refine encAdd_holds ?_ ?_
    · have hd' : (d : ℝ) ≠ 0 := by exact_mod_cast hd.ne'
      have := encRat_holds (if j % 2 = 0 then 1 else -1) (d := (2 * j + 1) * d ^ (2 * j + 1)) (by positivity)
      convert this using 1
      rcases Nat.mod_two_eq_zero_or_one j with hj | hj
      · rw [if_pos hj, Nat.add_zero, Even.neg_one_pow (Nat.even_iff.2 hj)]
        push_cast; rw [inv_pow]; field_simp
      · rw [if_neg (by omega), Nat.add_zero, Odd.neg_one_pow (Nat.odd_iff.2 hj)]
        push_cast; rw [inv_pow]; field_simp
    · have := ih (j + 1)
      convert this using 4 <;> ring_nf

/-- The arctangent of a reciprocal is enclosed. -/
theorem encArctanInv_holds {d : Nat} (hd : 5 ≤ d) : (encArctanInv d).Holds (Real.arctan (d : ℝ)⁻¹) := by
  have hd5 : (5 : ℝ) ≤ d := by exact_mod_cast hd
  set x : ℝ := (d : ℝ)⁻¹ with hx
  have hx0 : 0 < x := by positivity
  have hx5 : x ≤ 1 / 5 := by rw [hx, one_div]; exact inv_anti₀ (by norm_num) hd5
  refine encWiden_holds (arctanInvTerms_holds (by omega) 90 0) ?_
  simp only [zero_add]
  have hs : HasSum (fun m : ℕ => (-1 : ℝ) ^ m * x ^ (2 * m + 1) / ((2 * m + 1 : Nat) : ℝ)) (Real.arctan x) := by
    have := Real.hasSum_arctan (x := x) (by rw [Real.norm_eq_abs, abs_of_pos hx0]; linarith)
    simpa using this
  have hb : ∀ m : ℕ, ‖(-1 : ℝ) ^ m * x ^ (2 * m + 1) / ((2 * m + 1 : Nat) : ℝ)‖ ≤ 1 * (1 / 25) ^ m := by
    intro m
    rw [norm_div, norm_mul, norm_pow, norm_neg, norm_one, one_pow, one_mul, norm_pow, Real.norm_eq_abs, abs_of_pos hx0, Real.norm_natCast]
    have h1 : (1 : ℝ) ≤ ((2 * m + 1 : Nat) : ℝ) := by exact_mod_cast (by omega : 1 ≤ 2 * m + 1)
    have h2 : x ^ (2 * m + 1) ≤ (1 / 25) ^ m := by
      rw [pow_succ, pow_mul]
      have : x ^ 2 ≤ 1 / 25 := by nlinarith
      calc (x ^ 2) ^ m * x ≤ (1 / 25) ^ m * 1 := by gcongr; linarith
        _ = _ := mul_one _
    rw [one_mul]
    exact (div_le_self (by positivity) h1).trans h2
  have := norm_sub_le_of_geometric_bound_of_hasSum (r := 1 / 25) (by norm_num) hb hs 90
  rw [Real.norm_eq_abs, abs_sub_comm] at this
  refine le_trans (mul_le_mul_of_nonneg_right this encScale_pos.le) ?_
  have hN : 25 * encScale ≤ 24 * 25 ^ 90 := by decide +kernel
  have hN' : (25 : ℝ) * encScale ≤ 24 * 25 ^ 90 := by exact_mod_cast hN
  have hp : (0 : ℝ) < 25 ^ 90 := by positivity
  rw [one_div, inv_pow, one_mul]
  rw [show (1 : ℝ) - 25⁻¹ = 24 / 25 by norm_num]
  rw [div_mul_eq_mul_div, div_le_one (by norm_num), inv_mul_eq_div, div_le_iff₀ hp]
  linarith

/-- π is enclosed (Machin's formula). -/
theorem encPi_holds : encPi.Holds Real.pi := by
  have e : Real.pi = 4 * (4 * Real.arctan ((5 : Nat) : ℝ)⁻¹ - Real.arctan ((239 : Nat) : ℝ)⁻¹) := by
    have := Real.four_mul_arctan_inv_5_sub_arctan_inv_239
    push_cast
    linarith
  rw [e]
  exact encFour_holds (encSub_holds (encFour_holds (encArctanInv_holds (le_refl 5))) (encArctanInv_holds (by norm_num)))

theorem lnTwoTerms_holds (n j : Nat) : (lnTwoTerms n (j + 1)).Holds (∑ m ∈ Finset.range n, ((1 : ℝ) / 2) ^ (j + m + 1) / ((j + m : Nat) + 1 : ℝ)) := by
  induction n generalizing j with
  | zero => simpa [lnTwoTerms] using encInt_holds 0
  | succ n ih =>
    rw [lnTwoTerms, Finset.sum_range_succ', add_comm (Finset.sum _ _)]
    refine encAdd_holds ?_ ?_
    · have := encRat_holds 1 (d := (j + 1) * 2 ^ (j + 1)) (by positivity)
      convert this using 1
      push_cast
      rw [one_div, inv_pow]
      simp only [add_zero]
      field_simp
    · have := ih (j + 1)
      convert this using 4 <;> (push_cast; ring_nf)

/-- The natural logarithm of 2 is enclosed. -/
theorem encLnTwo_holds : encLnTwo.Holds (Real.log 2) := by
  refine encWiden_holds (lnTwoTerms_holds 400 0) ?_
  simp only [Nat.zero_add]
  have hs : HasSum (fun m : ℕ => ((1 : ℝ) / 2) ^ (m + 1) / ((m : ℝ) + 1)) (Real.log 2) := by
    have := Real.hasSum_pow_div_log_of_abs_lt_one (x := 1 / 2) (by norm_num [abs_lt])
    convert this using 1
    rw [show (1 : ℝ) - 1 / 2 = 2⁻¹ by norm_num, Real.log_inv, neg_neg]
  have hb : ∀ m : ℕ, ‖((1 : ℝ) / 2) ^ (m + 1) / ((m : ℝ) + 1)‖ ≤ 1 / 2 * (1 / 2) ^ m := by
    intro m
    rw [Real.norm_eq_abs, abs_of_nonneg (by positivity), pow_succ, mul_comm]
    exact div_le_self (by positivity) (by linarith [(Nat.cast_nonneg m : (0 : ℝ) ≤ m)])
  have := norm_sub_le_of_geometric_bound_of_hasSum (r := 1 / 2) (by norm_num) hb hs 400
  rw [Real.norm_eq_abs, abs_sub_comm] at this
  refine le_trans (mul_le_mul_of_nonneg_right this encScale_pos.le) ?_
  have hN : encScale ≤ 2 ^ 400 := by decide +kernel
  have hN' : (encScale : ℝ) ≤ 2 ^ 400 := by exact_mod_cast hN
  have hp : (0 : ℝ) < 2 ^ 400 := by positivity
  have e : (1 : ℝ) / 2 * (1 / 2) ^ 400 / (1 - 1 / 2) = ((2 : ℝ) ^ 400)⁻¹ := by
    rw [show (1 : ℝ) - 1 / 2 = 1 / 2 by norm_num, mul_div_right_comm, div_self (by norm_num), one_mul, one_div, inv_pow]
  rw [e, inv_mul_eq_div, div_le_one hp]
  exact hN'

/-- `2^(f/2^149)` is enclosed. -/
theorem encExpTwo_holds {f : Nat} (hf : f < 2 ^ 149) : (encExpTwo f).Holds ((2 : ℝ) ^ ((f : ℝ) / 2 ^ 149)) := by
  have h := encMul_holds (encRat_holds f (d := 2 ^ 149) (by positivity)) encLnTwo_holds
  have hf' : (f : ℝ) < 2 ^ 149 := by exact_mod_cast hf
  have hx0 : (0 : ℝ) ≤ (f : ℝ) / 2 ^ 149 := by positivity
  have hx1 : (f : ℝ) / 2 ^ 149 ≤ 1 := by rw [div_le_one (by positivity)]; exact hf'.le
  have hl0 : 0 < Real.log 2 := Real.log_pos (by norm_num)
  have hl1 : Real.log 2 ≤ 1 := by linarith [Real.log_two_lt_d9]
  have e : ((f : Int) : ℝ) / ((2 ^ 149 : Nat) : ℝ) = (f : ℝ) / 2 ^ 149 := by rw [Int.cast_natCast, Nat.cast_pow, Nat.cast_ofNat]
  rw [e] at h
  rw [Real.rpow_def_of_pos (by norm_num), mul_comm]
  refine encExp_holds h ?_
  rw [abs_of_nonneg (by positivity)]
  calc _ ≤ (1 : ℝ) * 1 := by gcongr
    _ = 1 := one_mul 1

end Sys2Proof.Machine
end

