-- ==== Sys2Proof/Laws/State.lean ====
section
/-! SUPPORT. The small lemmas of the state updates: one per field per update, true by `rfl`, so that no
later proof unfolds a record update. -/

namespace Sys2Proof.Machine

/-! ### State.report -/

@[simp] theorem State.report_params (s : State) (c : ResultCode) : (s.report c).params = s.params := rfl
@[simp] theorem State.report_arg0 (s : State) (c : ResultCode) : (s.report c).arg0 = s.arg0 := rfl
@[simp] theorem State.report_arg1 (s : State) (c : ResultCode) : (s.report c).arg1 = s.arg1 := rfl
@[simp] theorem State.report_arg2 (s : State) (c : ResultCode) : (s.report c).arg2 = s.arg2 := rfl
@[simp] theorem State.report_arg3 (s : State) (c : ResultCode) : (s.report c).arg3 = s.arg3 := rfl
@[simp] theorem State.report_res0 (s : State) (c : ResultCode) : (s.report c).res0 = s.res0 := rfl
@[simp] theorem State.report_status (s : State) (c : ResultCode) : (s.report c).status = s.status.record c := rfl
@[simp] theorem State.report_time (s : State) (c : ResultCode) : (s.report c).time = s.time := rfl
@[simp] theorem State.report_fft (s : State) (c : ResultCode) : (s.report c).fft = s.fft := rfl
@[simp] theorem State.report_ring (s : State) (c : ResultCode) : (s.report c).ring = s.ring := rfl
@[simp] theorem State.report_env (s : State) (c : ResultCode) : (s.report c).env = s.env := rfl
@[simp] theorem State.report_osc (s : State) (c : ResultCode) : (s.report c).osc = s.osc := rfl
@[simp] theorem State.report_dmem (s : State) (c : ResultCode) : (s.report c).dmem = s.dmem := rfl
@[simp] theorem State.report_draws (s : State) (c : ResultCode) : (s.report c).draws = s.draws := rfl
@[simp] theorem State.report_port (s : State) (c : ResultCode) : (s.report c).port = s.port := rfl

/-! ### State.illegal -/

@[simp] theorem State.illegal_params (s : State) : (s.illegal).params = s.params := rfl
@[simp] theorem State.illegal_arg0 (s : State) : (s.illegal).arg0 = s.arg0 := rfl
@[simp] theorem State.illegal_arg1 (s : State) : (s.illegal).arg1 = s.arg1 := rfl
@[simp] theorem State.illegal_arg2 (s : State) : (s.illegal).arg2 = s.arg2 := rfl
@[simp] theorem State.illegal_arg3 (s : State) : (s.illegal).arg3 = s.arg3 := rfl
@[simp] theorem State.illegal_res0 (s : State) : (s.illegal).res0 = s.res0 := rfl
@[simp] theorem State.illegal_status (s : State) : (s.illegal).status = s.status.record .illegal := rfl
@[simp] theorem State.illegal_time (s : State) : (s.illegal).time = s.time := rfl
@[simp] theorem State.illegal_fft (s : State) : (s.illegal).fft = s.fft := rfl
@[simp] theorem State.illegal_ring (s : State) : (s.illegal).ring = s.ring := rfl
@[simp] theorem State.illegal_env (s : State) : (s.illegal).env = s.env := rfl
@[simp] theorem State.illegal_osc (s : State) : (s.illegal).osc = s.osc := rfl
@[simp] theorem State.illegal_dmem (s : State) : (s.illegal).dmem = s.dmem := rfl
@[simp] theorem State.illegal_draws (s : State) : (s.illegal).draws = s.draws := rfl
@[simp] theorem State.illegal_port (s : State) : (s.illegal).port = s.port := rfl

/-! ### State.setRes -/

@[simp] theorem State.setRes_params (s : State) (v : Word) : (s.setRes v).params = s.params := rfl
@[simp] theorem State.setRes_arg0 (s : State) (v : Word) : (s.setRes v).arg0 = s.arg0 := rfl
@[simp] theorem State.setRes_arg1 (s : State) (v : Word) : (s.setRes v).arg1 = s.arg1 := rfl
@[simp] theorem State.setRes_arg2 (s : State) (v : Word) : (s.setRes v).arg2 = s.arg2 := rfl
@[simp] theorem State.setRes_arg3 (s : State) (v : Word) : (s.setRes v).arg3 = s.arg3 := rfl
@[simp] theorem State.setRes_res0 (s : State) (v : Word) : (s.setRes v).res0 = v := rfl
@[simp] theorem State.setRes_status (s : State) (v : Word) : (s.setRes v).status = s.status := rfl
@[simp] theorem State.setRes_time (s : State) (v : Word) : (s.setRes v).time = s.time := rfl
@[simp] theorem State.setRes_fft (s : State) (v : Word) : (s.setRes v).fft = s.fft := rfl
@[simp] theorem State.setRes_ring (s : State) (v : Word) : (s.setRes v).ring = s.ring := rfl
@[simp] theorem State.setRes_env (s : State) (v : Word) : (s.setRes v).env = s.env := rfl
@[simp] theorem State.setRes_osc (s : State) (v : Word) : (s.setRes v).osc = s.osc := rfl
@[simp] theorem State.setRes_dmem (s : State) (v : Word) : (s.setRes v).dmem = s.dmem := rfl
@[simp] theorem State.setRes_draws (s : State) (v : Word) : (s.setRes v).draws = s.draws := rfl
@[simp] theorem State.setRes_port (s : State) (v : Word) : (s.setRes v).port = s.port := rfl

/-! ### State.respond -/

@[simp] theorem State.respond_params (s : State) (r : BusResponse) : (s.respond r).params = s.params := rfl
@[simp] theorem State.respond_arg0 (s : State) (r : BusResponse) : (s.respond r).arg0 = s.arg0 := rfl
@[simp] theorem State.respond_arg1 (s : State) (r : BusResponse) : (s.respond r).arg1 = s.arg1 := rfl
@[simp] theorem State.respond_arg2 (s : State) (r : BusResponse) : (s.respond r).arg2 = s.arg2 := rfl
@[simp] theorem State.respond_arg3 (s : State) (r : BusResponse) : (s.respond r).arg3 = s.arg3 := rfl
@[simp] theorem State.respond_res0 (s : State) (r : BusResponse) : (s.respond r).res0 = s.res0 := rfl
@[simp] theorem State.respond_status (s : State) (r : BusResponse) : (s.respond r).status = s.status := rfl
@[simp] theorem State.respond_time (s : State) (r : BusResponse) : (s.respond r).time = s.time := rfl
@[simp] theorem State.respond_fft (s : State) (r : BusResponse) : (s.respond r).fft = s.fft := rfl
@[simp] theorem State.respond_ring (s : State) (r : BusResponse) : (s.respond r).ring = s.ring := rfl
@[simp] theorem State.respond_env (s : State) (r : BusResponse) : (s.respond r).env = s.env := rfl
@[simp] theorem State.respond_osc (s : State) (r : BusResponse) : (s.respond r).osc = s.osc := rfl
@[simp] theorem State.respond_dmem (s : State) (r : BusResponse) : (s.respond r).dmem = s.dmem := rfl
@[simp] theorem State.respond_draws (s : State) (r : BusResponse) : (s.respond r).draws = s.draws := rfl
@[simp] theorem State.respond_port (s : State) (r : BusResponse) : (s.respond r).port = { s.port with response := some r } := rfl

/-! ### State.setPending -/

@[simp] theorem State.setPending_params (s : State) (es : List HostEvent) : (s.setPending es).params = s.params := rfl
@[simp] theorem State.setPending_arg0 (s : State) (es : List HostEvent) : (s.setPending es).arg0 = s.arg0 := rfl
@[simp] theorem State.setPending_arg1 (s : State) (es : List HostEvent) : (s.setPending es).arg1 = s.arg1 := rfl
@[simp] theorem State.setPending_arg2 (s : State) (es : List HostEvent) : (s.setPending es).arg2 = s.arg2 := rfl
@[simp] theorem State.setPending_arg3 (s : State) (es : List HostEvent) : (s.setPending es).arg3 = s.arg3 := rfl
@[simp] theorem State.setPending_res0 (s : State) (es : List HostEvent) : (s.setPending es).res0 = s.res0 := rfl
@[simp] theorem State.setPending_status (s : State) (es : List HostEvent) : (s.setPending es).status = s.status := rfl
@[simp] theorem State.setPending_time (s : State) (es : List HostEvent) : (s.setPending es).time = s.time := rfl
@[simp] theorem State.setPending_fft (s : State) (es : List HostEvent) : (s.setPending es).fft = s.fft := rfl
@[simp] theorem State.setPending_ring (s : State) (es : List HostEvent) : (s.setPending es).ring = s.ring := rfl
@[simp] theorem State.setPending_env (s : State) (es : List HostEvent) : (s.setPending es).env = s.env := rfl
@[simp] theorem State.setPending_osc (s : State) (es : List HostEvent) : (s.setPending es).osc = s.osc := rfl
@[simp] theorem State.setPending_dmem (s : State) (es : List HostEvent) : (s.setPending es).dmem = s.dmem := rfl
@[simp] theorem State.setPending_draws (s : State) (es : List HostEvent) : (s.setPending es).draws = s.draws := rfl
@[simp] theorem State.setPending_port (s : State) (es : List HostEvent) : (s.setPending es).port = { s.port with pending := es } := rfl

/-! ### State.countDraw -/

@[simp] theorem State.countDraw_params (s : State) : (s.countDraw).params = s.params := rfl
@[simp] theorem State.countDraw_arg0 (s : State) : (s.countDraw).arg0 = s.arg0 := rfl
@[simp] theorem State.countDraw_arg1 (s : State) : (s.countDraw).arg1 = s.arg1 := rfl
@[simp] theorem State.countDraw_arg2 (s : State) : (s.countDraw).arg2 = s.arg2 := rfl
@[simp] theorem State.countDraw_arg3 (s : State) : (s.countDraw).arg3 = s.arg3 := rfl
@[simp] theorem State.countDraw_res0 (s : State) : (s.countDraw).res0 = s.res0 := rfl
@[simp] theorem State.countDraw_status (s : State) : (s.countDraw).status = s.status := rfl
@[simp] theorem State.countDraw_time (s : State) : (s.countDraw).time = s.time := rfl
@[simp] theorem State.countDraw_fft (s : State) : (s.countDraw).fft = s.fft := rfl
@[simp] theorem State.countDraw_ring (s : State) : (s.countDraw).ring = s.ring := rfl
@[simp] theorem State.countDraw_env (s : State) : (s.countDraw).env = s.env := rfl
@[simp] theorem State.countDraw_osc (s : State) : (s.countDraw).osc = s.osc := rfl
@[simp] theorem State.countDraw_dmem (s : State) : (s.countDraw).dmem = s.dmem := rfl
@[simp] theorem State.countDraw_draws (s : State) : (s.countDraw).draws = s.draws + 1 := rfl
@[simp] theorem State.countDraw_port (s : State) : (s.countDraw).port = s.port := rfl

/-! ### State.advanceTime -/

@[simp] theorem State.advanceTime_params (s : State) : (s.advanceTime).params = s.params := rfl
@[simp] theorem State.advanceTime_arg0 (s : State) : (s.advanceTime).arg0 = s.arg0 := rfl
@[simp] theorem State.advanceTime_arg1 (s : State) : (s.advanceTime).arg1 = s.arg1 := rfl
@[simp] theorem State.advanceTime_arg2 (s : State) : (s.advanceTime).arg2 = s.arg2 := rfl
@[simp] theorem State.advanceTime_arg3 (s : State) : (s.advanceTime).arg3 = s.arg3 := rfl
@[simp] theorem State.advanceTime_res0 (s : State) : (s.advanceTime).res0 = s.res0 := rfl
@[simp] theorem State.advanceTime_status (s : State) : (s.advanceTime).status = s.status := rfl
@[simp] theorem State.advanceTime_time (s : State) : (s.advanceTime).time = s.time + 1 := rfl
@[simp] theorem State.advanceTime_fft (s : State) : (s.advanceTime).fft = s.fft := rfl
@[simp] theorem State.advanceTime_ring (s : State) : (s.advanceTime).ring = s.ring := rfl
@[simp] theorem State.advanceTime_env (s : State) : (s.advanceTime).env = s.env := rfl
@[simp] theorem State.advanceTime_osc (s : State) : (s.advanceTime).osc = s.osc := rfl
@[simp] theorem State.advanceTime_dmem (s : State) : (s.advanceTime).dmem = s.dmem := rfl
@[simp] theorem State.advanceTime_draws (s : State) : (s.advanceTime).draws = s.draws := rfl
@[simp] theorem State.advanceTime_port (s : State) : (s.advanceTime).port = s.port := rfl

/-! ### State.setRing -/

@[simp] theorem State.setRing_params (s : State) (r : RingBuffer) : (s.setRing r).params = s.params := rfl
@[simp] theorem State.setRing_arg0 (s : State) (r : RingBuffer) : (s.setRing r).arg0 = s.arg0 := rfl
@[simp] theorem State.setRing_arg1 (s : State) (r : RingBuffer) : (s.setRing r).arg1 = s.arg1 := rfl
@[simp] theorem State.setRing_arg2 (s : State) (r : RingBuffer) : (s.setRing r).arg2 = s.arg2 := rfl
@[simp] theorem State.setRing_arg3 (s : State) (r : RingBuffer) : (s.setRing r).arg3 = s.arg3 := rfl
@[simp] theorem State.setRing_res0 (s : State) (r : RingBuffer) : (s.setRing r).res0 = s.res0 := rfl
@[simp] theorem State.setRing_status (s : State) (r : RingBuffer) : (s.setRing r).status = s.status := rfl
@[simp] theorem State.setRing_time (s : State) (r : RingBuffer) : (s.setRing r).time = s.time := rfl
@[simp] theorem State.setRing_fft (s : State) (r : RingBuffer) : (s.setRing r).fft = s.fft := rfl
@[simp] theorem State.setRing_ring (s : State) (r : RingBuffer) : (s.setRing r).ring = r := rfl
@[simp] theorem State.setRing_env (s : State) (r : RingBuffer) : (s.setRing r).env = s.env := rfl
@[simp] theorem State.setRing_osc (s : State) (r : RingBuffer) : (s.setRing r).osc = s.osc := rfl
@[simp] theorem State.setRing_dmem (s : State) (r : RingBuffer) : (s.setRing r).dmem = s.dmem := rfl
@[simp] theorem State.setRing_draws (s : State) (r : RingBuffer) : (s.setRing r).draws = s.draws := rfl
@[simp] theorem State.setRing_port (s : State) (r : RingBuffer) : (s.setRing r).port = s.port := rfl

/-! ### State.setContext -/

@[simp] theorem State.setContext_params (s : State) (c : FftContext) : (s.setContext c).params = s.params := rfl
@[simp] theorem State.setContext_arg0 (s : State) (c : FftContext) : (s.setContext c).arg0 = s.arg0 := rfl
@[simp] theorem State.setContext_arg1 (s : State) (c : FftContext) : (s.setContext c).arg1 = s.arg1 := rfl
@[simp] theorem State.setContext_arg2 (s : State) (c : FftContext) : (s.setContext c).arg2 = s.arg2 := rfl
@[simp] theorem State.setContext_arg3 (s : State) (c : FftContext) : (s.setContext c).arg3 = s.arg3 := rfl
@[simp] theorem State.setContext_res0 (s : State) (c : FftContext) : (s.setContext c).res0 = s.res0 := rfl
@[simp] theorem State.setContext_status (s : State) (c : FftContext) : (s.setContext c).status = s.status := rfl
@[simp] theorem State.setContext_time (s : State) (c : FftContext) : (s.setContext c).time = s.time := rfl
@[simp] theorem State.setContext_fft (s : State) (c : FftContext) : (s.setContext c).fft = { s.fft with context := some c } := rfl
@[simp] theorem State.setContext_ring (s : State) (c : FftContext) : (s.setContext c).ring = s.ring := rfl
@[simp] theorem State.setContext_env (s : State) (c : FftContext) : (s.setContext c).env = s.env := rfl
@[simp] theorem State.setContext_osc (s : State) (c : FftContext) : (s.setContext c).osc = s.osc := rfl
@[simp] theorem State.setContext_dmem (s : State) (c : FftContext) : (s.setContext c).dmem = s.dmem := rfl
@[simp] theorem State.setContext_draws (s : State) (c : FftContext) : (s.setContext c).draws = s.draws := rfl
@[simp] theorem State.setContext_port (s : State) (c : FftContext) : (s.setContext c).port = s.port := rfl

/-! ### State.writeOutput -/

@[simp] theorem State.writeOutput_params (s : State) (d : Nat) (w o : List Complex32) : (s.writeOutput d w o).params = s.params := rfl
@[simp] theorem State.writeOutput_arg0 (s : State) (d : Nat) (w o : List Complex32) : (s.writeOutput d w o).arg0 = s.arg0 := rfl
@[simp] theorem State.writeOutput_arg1 (s : State) (d : Nat) (w o : List Complex32) : (s.writeOutput d w o).arg1 = s.arg1 := rfl
@[simp] theorem State.writeOutput_arg2 (s : State) (d : Nat) (w o : List Complex32) : (s.writeOutput d w o).arg2 = s.arg2 := rfl
@[simp] theorem State.writeOutput_arg3 (s : State) (d : Nat) (w o : List Complex32) : (s.writeOutput d w o).arg3 = s.arg3 := rfl
@[simp] theorem State.writeOutput_res0 (s : State) (d : Nat) (w o : List Complex32) : (s.writeOutput d w o).res0 = s.res0 := rfl
@[simp] theorem State.writeOutput_status (s : State) (d : Nat) (w o : List Complex32) : (s.writeOutput d w o).status = s.status := rfl
@[simp] theorem State.writeOutput_time (s : State) (d : Nat) (w o : List Complex32) : (s.writeOutput d w o).time = s.time := rfl
@[simp] theorem State.writeOutput_fft (s : State) (d : Nat) (w o : List Complex32) : (s.writeOutput d w o).fft = s.fft.setWork w := rfl
@[simp] theorem State.writeOutput_ring (s : State) (d : Nat) (w o : List Complex32) : (s.writeOutput d w o).ring = s.ring := rfl
@[simp] theorem State.writeOutput_env (s : State) (d : Nat) (w o : List Complex32) : (s.writeOutput d w o).env = s.env := rfl
@[simp] theorem State.writeOutput_osc (s : State) (d : Nat) (w o : List Complex32) : (s.writeOutput d w o).osc = s.osc := rfl
@[simp] theorem State.writeOutput_dmem (s : State) (d : Nat) (w o : List Complex32) : (s.writeOutput d w o).dmem = Memory.storeElements s.dmem d o := rfl
@[simp] theorem State.writeOutput_draws (s : State) (d : Nat) (w o : List Complex32) : (s.writeOutput d w o).draws = s.draws := rfl
@[simp] theorem State.writeOutput_port (s : State) (d : Nat) (w o : List Complex32) : (s.writeOutput d w o).port = s.port := rfl

/-! ### State.setEnv -/

@[simp] theorem State.setEnv_params (s : State) (e : Envelope) : (s.setEnv e).params = s.params := rfl
@[simp] theorem State.setEnv_arg0 (s : State) (e : Envelope) : (s.setEnv e).arg0 = s.arg0 := rfl
@[simp] theorem State.setEnv_arg1 (s : State) (e : Envelope) : (s.setEnv e).arg1 = s.arg1 := rfl
@[simp] theorem State.setEnv_arg2 (s : State) (e : Envelope) : (s.setEnv e).arg2 = s.arg2 := rfl
@[simp] theorem State.setEnv_arg3 (s : State) (e : Envelope) : (s.setEnv e).arg3 = s.arg3 := rfl
@[simp] theorem State.setEnv_res0 (s : State) (e : Envelope) : (s.setEnv e).res0 = s.res0 := rfl
@[simp] theorem State.setEnv_status (s : State) (e : Envelope) : (s.setEnv e).status = s.status := rfl
@[simp] theorem State.setEnv_time (s : State) (e : Envelope) : (s.setEnv e).time = s.time := rfl
@[simp] theorem State.setEnv_fft (s : State) (e : Envelope) : (s.setEnv e).fft = s.fft := rfl
@[simp] theorem State.setEnv_ring (s : State) (e : Envelope) : (s.setEnv e).ring = s.ring := rfl
@[simp] theorem State.setEnv_env (s : State) (e : Envelope) : (s.setEnv e).env = e := rfl
@[simp] theorem State.setEnv_osc (s : State) (e : Envelope) : (s.setEnv e).osc = s.osc := rfl
@[simp] theorem State.setEnv_dmem (s : State) (e : Envelope) : (s.setEnv e).dmem = s.dmem := rfl
@[simp] theorem State.setEnv_draws (s : State) (e : Envelope) : (s.setEnv e).draws = s.draws := rfl
@[simp] theorem State.setEnv_port (s : State) (e : Envelope) : (s.setEnv e).port = s.port := rfl

/-! ### State.setOsc -/

@[simp] theorem State.setOsc_params (s : State) (o : Oscillator) : (s.setOsc o).params = s.params := rfl
@[simp] theorem State.setOsc_arg0 (s : State) (o : Oscillator) : (s.setOsc o).arg0 = s.arg0 := rfl
@[simp] theorem State.setOsc_arg1 (s : State) (o : Oscillator) : (s.setOsc o).arg1 = s.arg1 := rfl
@[simp] theorem State.setOsc_arg2 (s : State) (o : Oscillator) : (s.setOsc o).arg2 = s.arg2 := rfl
@[simp] theorem State.setOsc_arg3 (s : State) (o : Oscillator) : (s.setOsc o).arg3 = s.arg3 := rfl
@[simp] theorem State.setOsc_res0 (s : State) (o : Oscillator) : (s.setOsc o).res0 = s.res0 := rfl
@[simp] theorem State.setOsc_status (s : State) (o : Oscillator) : (s.setOsc o).status = s.status := rfl
@[simp] theorem State.setOsc_time (s : State) (o : Oscillator) : (s.setOsc o).time = s.time := rfl
@[simp] theorem State.setOsc_fft (s : State) (o : Oscillator) : (s.setOsc o).fft = s.fft := rfl
@[simp] theorem State.setOsc_ring (s : State) (o : Oscillator) : (s.setOsc o).ring = s.ring := rfl
@[simp] theorem State.setOsc_env (s : State) (o : Oscillator) : (s.setOsc o).env = s.env := rfl
@[simp] theorem State.setOsc_osc (s : State) (o : Oscillator) : (s.setOsc o).osc = o := rfl
@[simp] theorem State.setOsc_dmem (s : State) (o : Oscillator) : (s.setOsc o).dmem = s.dmem := rfl
@[simp] theorem State.setOsc_draws (s : State) (o : Oscillator) : (s.setOsc o).draws = s.draws := rfl
@[simp] theorem State.setOsc_port (s : State) (o : Oscillator) : (s.setOsc o).port = s.port := rfl

/-! ### State.afterReset -/

@[simp] theorem State.afterReset_params (s : State) : (s.afterReset).params = s.params := rfl
@[simp] theorem State.afterReset_arg0 (s : State) : (s.afterReset).arg0 = 0 := rfl
@[simp] theorem State.afterReset_arg1 (s : State) : (s.afterReset).arg1 = 0 := rfl
@[simp] theorem State.afterReset_arg2 (s : State) : (s.afterReset).arg2 = 0 := rfl
@[simp] theorem State.afterReset_arg3 (s : State) : (s.afterReset).arg3 = 0 := rfl
@[simp] theorem State.afterReset_res0 (s : State) : (s.afterReset).res0 = 0 := rfl
@[simp] theorem State.afterReset_status (s : State) : (s.afterReset).status = { code := .ok, err := false } := rfl
@[simp] theorem State.afterReset_time (s : State) : (s.afterReset).time = 0 := rfl
@[simp] theorem State.afterReset_fft (s : State) : (s.afterReset).fft = { context := none, wb := [] } := rfl
@[simp] theorem State.afterReset_ring (s : State) : (s.afterReset).ring = RingBuffer.reset s.params := rfl
@[simp] theorem State.afterReset_env (s : State) : (s.afterReset).env = Envelope.reset := rfl
@[simp] theorem State.afterReset_osc (s : State) : (s.afterReset).osc = Oscillator.reset := rfl
@[simp] theorem State.afterReset_dmem (s : State) : (s.afterReset).dmem = [] := rfl
@[simp] theorem State.afterReset_draws (s : State) : (s.afterReset).draws = s.draws := rfl
@[simp] theorem State.afterReset_port (s : State) : (s.afterReset).port = s.port := rfl

/-! ### State.drawFor -/

@[simp] theorem State.drawFor_params (s : State) : s.drawFor.params = s.params := by
  unfold State.drawFor; split <;> rfl
@[simp] theorem State.drawFor_arg0 (s : State) : s.drawFor.arg0 = s.arg0 := by
  unfold State.drawFor; split <;> rfl
@[simp] theorem State.drawFor_arg1 (s : State) : s.drawFor.arg1 = s.arg1 := by
  unfold State.drawFor; split <;> rfl
@[simp] theorem State.drawFor_arg2 (s : State) : s.drawFor.arg2 = s.arg2 := by
  unfold State.drawFor; split <;> rfl
@[simp] theorem State.drawFor_arg3 (s : State) : s.drawFor.arg3 = s.arg3 := by
  unfold State.drawFor; split <;> rfl
@[simp] theorem State.drawFor_res0 (s : State) : s.drawFor.res0 = s.res0 := by
  unfold State.drawFor; split <;> rfl
@[simp] theorem State.drawFor_status (s : State) : s.drawFor.status = s.status := by
  unfold State.drawFor; split <;> rfl
@[simp] theorem State.drawFor_time (s : State) : s.drawFor.time = s.time := by
  unfold State.drawFor; split <;> rfl
@[simp] theorem State.drawFor_fft (s : State) : s.drawFor.fft = s.fft := by
  unfold State.drawFor; split <;> rfl
@[simp] theorem State.drawFor_ring (s : State) : s.drawFor.ring = s.ring := by
  unfold State.drawFor; split <;> rfl
@[simp] theorem State.drawFor_env (s : State) : s.drawFor.env = s.env := by
  unfold State.drawFor; split <;> rfl
@[simp] theorem State.drawFor_osc (s : State) : s.drawFor.osc = s.osc := by
  unfold State.drawFor; split <;> rfl
@[simp] theorem State.drawFor_dmem (s : State) : s.drawFor.dmem = s.dmem := by
  unfold State.drawFor; split <;> rfl
theorem State.drawFor_draws (s : State) :
    s.drawFor.draws = if s.osc.wave = .whiteNoise then s.draws + 1 else s.draws := by
  unfold State.drawFor; split <;> rfl
@[simp] theorem State.drawFor_port (s : State) : s.drawFor.port = s.port := by
  unfold State.drawFor; split <;> rfl

/-! ### Parts of the state -/

@[simp] theorem Status.record_code (st : Status) (c : ResultCode) : (st.record c).code = c := rfl
@[simp] theorem Status.record_err (st : Status) (c : ResultCode) : (st.record c).err = (st.err || c.setsErr) := rfl
@[simp] theorem Status.hostWrite_code (st : Status) (v : Word) : (st.hostWrite v).code = st.code := rfl
@[simp] theorem Status.hostWrite_err (st : Status) (v : Word) :
    (st.hostWrite v).err = (st.err && !v.getLsbD 8) := rfl

@[simp] theorem ResultCode.setsErr_ok : ResultCode.ok.setsErr = false := rfl
@[simp] theorem ResultCode.setsErr_notAvailable : ResultCode.notAvailable.setsErr = false := rfl
@[simp] theorem ResultCode.setsErr_notFound : ResultCode.notFound.setsErr = false := rfl
@[simp] theorem ResultCode.setsErr_outTooShort : ResultCode.outTooShort.setsErr = true := rfl
@[simp] theorem ResultCode.setsErr_illegal : ResultCode.illegal.setsErr = true := rfl
@[simp] theorem ResultCode.setsErr_badArg : ResultCode.badArg.setsErr = true := rfl
@[simp] theorem ResultCode.setsErr_noContext : ResultCode.noContext.setsErr = true := rfl
@[simp] theorem ResultCode.setsErr_range : ResultCode.range.setsErr = true := rfl

@[simp] theorem FftUnit.setWork_context (u : FftUnit) (ys : List Complex32) : (u.setWork ys).context = u.context := rfl
@[simp] theorem FftUnit.setWork_wb (u : FftUnit) (ys : List Complex32) :
    (u.setWork ys).wb = ys ++ u.wb.drop ys.length := rfl

@[simp] theorem fftContext_log2p (b : Nat) : (fftContext b).log2p = b := rfl
@[simp] theorem fftContext_rev (b : Nat) : (fftContext b).rev = revTable b := rfl
@[simp] theorem fftContext_tw (b : Nat) : (fftContext b).tw = twTable b := rfl
@[simp] theorem fftContext_size (b : Nat) : (fftContext b).size = 2 ^ b := rfl

@[simp] theorem RingBuffer.writeSlot_cap (r : RingBuffer) (j : Nat) (v : Word) : (r.writeSlot j v).cap = r.cap := rfl
@[simp] theorem RingBuffer.writeSlot_startT (r : RingBuffer) (j : Nat) (v : Word) :
    (r.writeSlot j v).startT = r.startT := rfl
@[simp] theorem RingBuffer.writeSlot_endT (r : RingBuffer) (j : Nat) (v : Word) : (r.writeSlot j v).endT = r.endT := rfl
@[simp] theorem RingBuffer.writeSlot_slots (r : RingBuffer) (j : Nat) (v : Word) :
    (r.writeSlot j v).slots = putKey r.slots j v := rfl
@[simp] theorem RingBuffer.push_cap (r : RingBuffer) (v : Word) : (r.push v).cap = r.cap := rfl
@[simp] theorem RingBuffer.push_startT (r : RingBuffer) (v : Word) :
    (r.push v).startT = if r.full then r.startT + 1 else r.startT := rfl
@[simp] theorem RingBuffer.push_endT (r : RingBuffer) (v : Word) : (r.push v).endT = r.endT + 1 := rfl
@[simp] theorem RingBuffer.push_slots (r : RingBuffer) (v : Word) :
    (r.push v).slots = putKey r.slots (r.slot r.endT) v := rfl
@[simp] theorem RingBuffer.init_cap (r : RingBuffer) (c : Word) : (r.init c).cap = c := rfl
@[simp] theorem RingBuffer.init_startT (r : RingBuffer) (c : Word) : (r.init c).startT = 0 := rfl
@[simp] theorem RingBuffer.init_endT (r : RingBuffer) (c : Word) : (r.init c).endT = 0 := rfl
@[simp] theorem RingBuffer.init_slots (r : RingBuffer) (c : Word) : (r.init c).slots = r.slots := rfl

/-! ### Envelope updates -/

@[simp] theorem Envelope.addDelta_phase (e : Envelope) : e.addDelta.phase = e.phase := rfl
@[simp] theorem Envelope.addDelta_sched (e : Envelope) : e.addDelta.sched = e.sched := rfl
@[simp] theorem Envelope.addDelta_nextT (e : Envelope) : e.addDelta.nextT = e.nextT := rfl
@[simp] theorem Envelope.addDelta_level (e : Envelope) : e.addDelta.level = saturate32 (s32 e.level + s32 e.delta) := rfl
@[simp] theorem Envelope.addDelta_delta (e : Envelope) : e.addDelta.delta = e.delta := rfl
@[simp] theorem Envelope.addDelta_attack (e : Envelope) : e.addDelta.attack = e.attack := rfl
@[simp] theorem Envelope.addDelta_decay (e : Envelope) : e.addDelta.decay = e.decay := rfl
@[simp] theorem Envelope.addDelta_sustain (e : Envelope) : e.addDelta.sustain = e.sustain := rfl
@[simp] theorem Envelope.addDelta_release (e : Envelope) : e.addDelta.release = e.release := rfl
@[simp] theorem Envelope.addDelta_input (e : Envelope) : e.addDelta.input = e.input := rfl
@[simp] theorem Envelope.addDelta_output (e : Envelope) : e.addDelta.output = e.output := rfl
@[simp] theorem Envelope.applyLevel_phase (e : Envelope) (n : Nat) :
    (e.applyLevel n).phase = e.phase := rfl
@[simp] theorem Envelope.applyLevel_sched (e : Envelope) (n : Nat) :
    (e.applyLevel n).sched = e.sched := rfl
@[simp] theorem Envelope.applyLevel_nextT (e : Envelope) (n : Nat) :
    (e.applyLevel n).nextT = e.nextT := rfl
@[simp] theorem Envelope.applyLevel_level (e : Envelope) (n : Nat) :
    (e.applyLevel n).level = e.level := rfl
@[simp] theorem Envelope.applyLevel_delta (e : Envelope) (n : Nat) :
    (e.applyLevel n).delta = e.delta := rfl
@[simp] theorem Envelope.applyLevel_attack (e : Envelope) (n : Nat) :
    (e.applyLevel n).attack = e.attack := rfl
@[simp] theorem Envelope.applyLevel_decay (e : Envelope) (n : Nat) :
    (e.applyLevel n).decay = e.decay := rfl
@[simp] theorem Envelope.applyLevel_sustain (e : Envelope) (n : Nat) :
    (e.applyLevel n).sustain = e.sustain := rfl
@[simp] theorem Envelope.applyLevel_release (e : Envelope) (n : Nat) :
    (e.applyLevel n).release = e.release := rfl
@[simp] theorem Envelope.applyLevel_input (e : Envelope) (n : Nat) :
    (e.applyLevel n).input = e.input := rfl
@[simp] theorem Envelope.applyLevel_output (e : Envelope) (n : Nat) :
    (e.applyLevel n).output = frameFill e.output n (fun c => mul32 (frameGet e.input c) (q30ToF32 e.level)) := rfl
@[simp] theorem Envelope.enter_level (e : Envelope) (p : EnvPhase) (t : Time) :
    (e.enter p t).level = e.level := by
  unfold Envelope.enter; split <;> rfl
@[simp] theorem Envelope.transition_level (e : Envelope) (t : Time) :
    (e.transition t).level = e.level := by
  unfold Envelope.transition; split <;> simp
@[simp] theorem Envelope.enter_attack (e : Envelope) (p : EnvPhase) (t : Time) :
    (e.enter p t).attack = e.attack := by
  unfold Envelope.enter; split <;> rfl
@[simp] theorem Envelope.transition_attack (e : Envelope) (t : Time) :
    (e.transition t).attack = e.attack := by
  unfold Envelope.transition; split <;> simp
@[simp] theorem Envelope.enter_decay (e : Envelope) (p : EnvPhase) (t : Time) :
    (e.enter p t).decay = e.decay := by
  unfold Envelope.enter; split <;> rfl
@[simp] theorem Envelope.transition_decay (e : Envelope) (t : Time) :
    (e.transition t).decay = e.decay := by
  unfold Envelope.transition; split <;> simp
@[simp] theorem Envelope.enter_sustain (e : Envelope) (p : EnvPhase) (t : Time) :
    (e.enter p t).sustain = e.sustain := by
  unfold Envelope.enter; split <;> rfl
@[simp] theorem Envelope.transition_sustain (e : Envelope) (t : Time) :
    (e.transition t).sustain = e.sustain := by
  unfold Envelope.transition; split <;> simp
@[simp] theorem Envelope.enter_release (e : Envelope) (p : EnvPhase) (t : Time) :
    (e.enter p t).release = e.release := by
  unfold Envelope.enter; split <;> rfl
@[simp] theorem Envelope.transition_release (e : Envelope) (t : Time) :
    (e.transition t).release = e.release := by
  unfold Envelope.transition; split <;> simp
@[simp] theorem Envelope.enter_input (e : Envelope) (p : EnvPhase) (t : Time) :
    (e.enter p t).input = e.input := by
  unfold Envelope.enter; split <;> rfl
@[simp] theorem Envelope.transition_input (e : Envelope) (t : Time) :
    (e.transition t).input = e.input := by
  unfold Envelope.transition; split <;> simp
@[simp] theorem Envelope.enter_output (e : Envelope) (p : EnvPhase) (t : Time) :
    (e.enter p t).output = e.output := by
  unfold Envelope.enter; split <;> rfl
@[simp] theorem Envelope.transition_output (e : Envelope) (t : Time) :
    (e.transition t).output = e.output := by
  unfold Envelope.transition; split <;> simp
@[simp] theorem Envelope.enter_phase (e : Envelope) (p : EnvPhase) (t : Time) : (e.enter p t).phase = p := by
  unfold Envelope.enter; split <;> rfl

/-! ### Oscillator updates -/

@[simp] theorem Oscillator.init_wave (o : Oscillator) (w : Waveform) (b : Bool) :
    (o.init w b).wave = w := rfl
@[simp] theorem Oscillator.init_aa (o : Oscillator) (w : Waveform) (b : Bool) :
    (o.init w b).aa = b := rfl
@[simp] theorem Oscillator.init_phase (o : Oscillator) (w : Waveform) (b : Bool) :
    (o.init w b).phase = zero32 := rfl
@[simp] theorem Oscillator.init_inc (o : Oscillator) (w : Waveform) (b : Bool) :
    (o.init w b).inc = o.inc := rfl
@[simp] theorem Oscillator.init_transpose (o : Oscillator) (w : Waveform) (b : Bool) :
    (o.init w b).transpose = o.transpose := rfl
@[simp] theorem Oscillator.init_bend (o : Oscillator) (w : Waveform) (b : Bool) :
    (o.init w b).bend = o.bend := rfl
@[simp] theorem Oscillator.init_lfoInt (o : Oscillator) (w : Waveform) (b : Bool) :
    (o.init w b).lfoInt = o.lfoInt := rfl
@[simp] theorem Oscillator.init_prev (o : Oscillator) (w : Waveform) (b : Bool) :
    (o.init w b).prev = zero32 := rfl
@[simp] theorem Oscillator.init_out (o : Oscillator) (w : Waveform) (b : Bool) :
    (o.init w b).out = zero32 := rfl
@[simp] theorem Oscillator.tick_wave (o : Oscillator) (x : Option Word) (n : Word) :
    (o.tick x n).wave = o.wave := rfl
@[simp] theorem Oscillator.tick_aa (o : Oscillator) (x : Option Word) (n : Word) :
    (o.tick x n).aa = o.aa := rfl
@[simp] theorem Oscillator.tick_phase (o : Oscillator) (x : Option Word) (n : Word) :
    (o.tick x n).phase = o.advance (o.effInc x) := rfl
@[simp] theorem Oscillator.tick_inc (o : Oscillator) (x : Option Word) (n : Word) :
    (o.tick x n).inc = o.inc := rfl
@[simp] theorem Oscillator.tick_transpose (o : Oscillator) (x : Option Word) (n : Word) :
    (o.tick x n).transpose = o.transpose := rfl
@[simp] theorem Oscillator.tick_bend (o : Oscillator) (x : Option Word) (n : Word) :
    (o.tick x n).bend = o.bend := rfl
@[simp] theorem Oscillator.tick_lfoInt (o : Oscillator) (x : Option Word) (n : Word) :
    (o.tick x n).lfoInt = o.lfoInt := rfl
@[simp] theorem Oscillator.tick_prev (o : Oscillator) (x : Option Word) (n : Word) :
    (o.tick x n).prev = o.sample (o.advance (o.effInc x)) (o.effInc x) n := rfl
@[simp] theorem Oscillator.tick_out (o : Oscillator) (x : Option Word) (n : Word) :
    (o.tick x n).out = o.sample (o.advance (o.effInc x)) (o.effInc x) n := rfl

end Sys2Proof.Machine
end

