-- ==== Sys2Proof/Laws/Rounding.lean ====
section
/-! SUPPORT. The laws of binary32 rounding: the integer quotient, the magnitude pattern, the fields of a
packed pattern and of a negation, the order of the patterns, and the rounding of a real number: one pattern
only, the same for the numbers between two that round alike or between two multiples of 2^-151. -/

namespace Sys2Proof.Machine

/-! ### Rounding -/

/-- `roundQuot` is nearest, and even at a tie. -/
theorem roundQuot_nearest (n d : Nat) (hd : 0 < d) (m : Nat) :
    |((n : ℝ) / d - roundQuot n d)| ≤ |((n : ℝ) / d - m)| ∧
      (m ≠ roundQuot n d → |((n : ℝ) / d - roundQuot n d)| = |((n : ℝ) / d - m)| → roundQuot n d % 2 = 0) := by
  have hdm := Nat.div_add_mod n d
  have hr : n % d < d := Nat.mod_lt _ hd
  set q := n / d with hq
  set r := n % d with hrr
  have hdR : (0:ℝ) < d := by exact_mod_cast hd
  have hn : (n : ℝ) / d = q + r / d := by
    have : (n : ℝ) = d * q + r := by exact_mod_cast hdm.symm
    rw [this]; field_simp
  have hr0 : (0:ℝ) ≤ r / d := by positivity
  have hr1 : (r:ℝ) / d < 1 := by rw [div_lt_one hdR]; exact_mod_cast hr
  rw [hn]
  have key : ∀ m : ℕ, m ≤ q ∨ q + 1 ≤ m := fun m => by omega
  unfold roundQuot
  rw [← hq, ← hrr]
  split
  · rename_i h
    have h2 : (1:ℝ)/2 ≤ r / d := by
      rw [div_le_div_iff₀ (by norm_num) hdR]
      have : d ≤ 2 * r := by omega
      have : (d:ℝ) ≤ 2 * r := by exact_mod_cast this
      linarith
    have e1 : |((q:ℝ) + r/d - ((q+1 : ℕ) : ℝ))| = 1 - r/d := by
      push_cast
      rw [abs_of_nonpos (by linarith)]; ring
    rw [e1]
    rcases key m with hm | hm
    · have hm' : (m:ℝ) ≤ q := by exact_mod_cast hm
      rw [abs_of_nonneg (by linarith)]
      refine ⟨by linarith, fun _ heq => ?_⟩
      have : (r:ℝ)/d = 1/2 := by linarith
      have : 2 * r = d := by
        have := (div_eq_iff hdR.ne').mp this
        have : (2 * r : ℝ) = d := by linarith
        exact_mod_cast this
      omega
    · have hm' : (q:ℝ) + 1 ≤ m := by exact_mod_cast hm
      rw [abs_of_nonpos (by linarith)]
      refine ⟨by linarith, fun hne heq => ?_⟩
      have : (m:ℝ) = q + 1 := by linarith
      have : m = q + 1 := by exact_mod_cast this
      omega
  · rename_i h
    have h2 : (r:ℝ)/d ≤ 1/2 := by
      rw [div_le_div_iff₀ hdR (by norm_num)]
      have : 2 * r ≤ d := by omega
      have : (2 * r : ℝ) ≤ d := by exact_mod_cast this
      linarith
    have e1 : |((q:ℝ) + r/d - (q : ℝ))| = r/d := by
      rw [abs_of_nonneg (by linarith)]; ring
    rw [e1]
    rcases key m with hm | hm
    · have hm' : (m:ℝ) ≤ q := by exact_mod_cast hm
      rw [abs_of_nonneg (by linarith)]
      refine ⟨by linarith, fun hne heq => ?_⟩
      have : (m:ℝ) = q := by linarith
      have : m = q := by exact_mod_cast this
      omega
    · have hm' : (q:ℝ) + 1 ≤ m := by exact_mod_cast hm
      rw [abs_of_nonpos (by linarith)]
      refine ⟨by linarith, fun hne heq => ?_⟩
      have : (r:ℝ)/d = 1/2 := by linarith
      have : 2 * r = d := by
        have := (div_eq_iff hdR.ne').mp this
        have : (2 * r : ℝ) = d := by linarith
        exact_mod_cast this
      omega

/-! ### Fields of a packed pattern -/

theorem magnitude_packSign (s : Bool) (m : Nat) (h : m < 2^31) : magnitude (packSign s m) = m := by
  unfold magnitude packSign
  rw [BitVec.toNat_ofNat]
  cases s <;> simp <;> omega

theorem signBit_packSign (s : Bool) (m : Nat) (h : m < 2^31) : signBit (packSign s m) = s := by
  unfold signBit packSign
  rw [BitVec.msb_eq_decide, BitVec.toNat_ofNat]
  cases s <;> simp <;> omega

theorem units_packSign (s : Bool) (k q : Nat) (hq : q ≤ 2^24) (hk : k = 0 ∨ 2^23 ≤ q)
    (h : k * 2^23 + q < 0x7F800000) : units (packSign s (k * 2^23 + q)) = q * 2^k := by
  unfold units
  rw [magnitude_packSign _ _ (by omega)]
  by_cases h24 : q = 2^24
  · subst h24
    have e1 : (k * 2^23 + 2^24) / 2^23 = k + 2 := by omega
    have e2 : (k * 2^23 + 2^24) % 2^23 = 0 := by omega
    simp only [e1, e2]
    rw [if_neg (by omega)]
    have : k + 2 - 1 = k + 1 := by omega
    rw [this, pow_succ]; ring
  · by_cases h23 : 2^23 ≤ q
    · have e1 : (k * 2^23 + q) / 2^23 = k + 1 := by omega
      have e2 : (k * 2^23 + q) % 2^23 = q - 2^23 := by omega
      simp only [e1, e2]
      rw [if_neg (by omega)]
      have : 2^23 + (q - 2^23) = q := by omega
      rw [this]; rfl
    · have hk0 : k = 0 := by omega
      subst hk0
      have e1 : (0 * 2^23 + q) / 2^23 = 0 := by omega
      have e2 : (0 * 2^23 + q) % 2^23 = q := by omega
      simp only [e1, e2]
      simp

/-- A finite value is a multiple of `2^k` units or below `2^(23+k)` units. -/
theorem units_grid (w : Word) (k : Nat) : 2^k ∣ units w ∨ units w < 2^(23+k) := by
  unfold units
  set e := magnitude w / 2^23
  set f := magnitude w % 2^23 with hf
  have hf' : f < 2^23 := Nat.mod_lt _ (by norm_num)
  dsimp only
  split
  · right
    calc f < 2^23 := hf'
      _ ≤ 2^(23+k) := Nat.pow_le_pow_right (by norm_num) (by omega)
  · by_cases hk : k ≤ e - 1
    · left
      exact Dvd.dvd.mul_left (pow_dvd_pow 2 hk) _
    · right
      calc (2^23 + f) * 2^(e-1) < 2^24 * 2^(e-1) := by
            apply Nat.mul_lt_mul_of_pos_right (by omega) (by positivity)
        _ = 2^(24 + (e-1)) := by rw [← pow_add]
        _ ≤ 2^(23+k) := Nat.pow_le_pow_right (by norm_num) (by omega)

theorem getLsb0_packSign (s : Bool) (m : Nat) : (packSign s m).getLsbD 0 = decide (m % 2 = 1) := by
  unfold packSign
  rw [BitVec.getLsbD_ofNat]
  cases s <;> simp [Nat.testBit_zero] <;> omega

/-- `roundMag` is nearest among the finite patterns, even at a tie, and overflows from the midpoint above the
largest finite value on. -/
theorem roundMag_nearest (n d : Nat) (hd : 0 < d) :
    let X : ℝ := (n : ℝ) / d * 2^149
    ((2^128 - 2^103 : ℝ) * 2^149 ≤ X → roundMag n d = 0x7F800000) ∧
    (X < (2^128 - 2^103 : ℝ) * 2^149 →
      roundMag n d < 0x7F800000 ∧ ∀ s : Bool, ∀ w : Word, 
        |(X - units (packSign s (roundMag n d)))| ≤ |(X - units w)| ∧
        (units w ≠ units (packSign s (roundMag n d)) →
          |(X - units (packSign s (roundMag n d)))| = |(X - units w)| → roundMag n d % 2 = 0)) := by
  intro X
  have hdR : (0:ℝ) < d := by exact_mod_cast hd
  set a := n * 2^149 with ha
  have hX : X = (a:ℝ) / d := by simp only [X, ha]; push_cast; ring
  set t := a / d with ht
  have ht1 : (t:ℝ) ≤ X := by rw [hX]; exact Nat.cast_div_le
  have ht2 : X < t + 1 := by
    rw [hX, div_lt_iff₀ hdR]
    have := Nat.lt_div_mul_add (a := a) hd
    have : a < (t + 1) * d := by rw [ht]; linarith
    exact_mod_cast this
  set k := Nat.log2 t - 23 with hk
  set q := roundQuot a (d * 2^k) with hq
  have hmag : roundMag n d = min 0x7F800000 (k * 2^23 + q) := rfl
  have hpk : 0 < d * 2^k := by positivity
  -- bounds on t
  have hup : t < 2^(24 + k) := by
    have h1 := @Nat.lt_log2_self t
    calc t < 2^(Nat.log2 t + 1) := h1
      _ ≤ 2^(24+k) := Nat.pow_le_pow_right (by norm_num) (by omega)
  have hlow : k = 0 ∨ 2^(23+k) ≤ t := by
    by_cases h0 : k = 0
    · exact Or.inl h0
    · right
      have htne : t ≠ 0 := by rintro h; rw [h] at hk; simp at hk; omega
      have h1 := Nat.log2_self_le htne
      have : 23 + k = Nat.log2 t := by omega
      rw [this]; exact h1
  have hY : (a : ℝ) / ((d * 2^k : ℕ) : ℝ) = X / 2^k := by
    rw [hX]; push_cast; field_simp
  have hXup : X / 2^k < 2^24 := by
    rw [div_lt_iff₀ (by positivity)]
    have : (t:ℝ) + 1 ≤ 2^(24+k) := by exact_mod_cast hup
    rw [pow_add] at this; linarith
  have hqn := fun m => roundQuot_nearest a (d*2^k) hpk m
  rw [hY, ← hq] at hqn
  -- q ≤ 2^24
  have hq24 : q ≤ 2^24 := by
    by_contra hc
    push Not at hc
    have h1 := (hqn (2^24)).1
    push_cast at h1
    have hc' : (2^24 : ℝ) + 1 ≤ q := by exact_mod_cast hc
    rw [abs_of_nonpos (by linarith), abs_of_nonpos (by linarith)] at h1
    linarith
  have hq23 : k = 0 ∨ 2^23 ≤ q := by
    rcases hlow with h | h
    · exact Or.inl h
    · right
      by_contra hc
      push Not at hc
      have h1 := (hqn (2^23)).1
      push_cast at h1
      have hc' : (q:ℝ) + 1 ≤ 2^23 := by exact_mod_cast hc
      have hx : (2^23 : ℝ) ≤ X / 2^k := by
        rw [le_div_iff₀ (by positivity), ← pow_add]
        exact le_trans (by exact_mod_cast h) ht1
      rw [abs_of_nonneg (by linarith), abs_of_nonneg (by linarith)] at h1
      linarith
  constructor
  · intro hbig
    -- t ≥ 2^276
    have hb : ((2^128 - 2^103 : ℝ)) * 2^149 = (2^24 - 1/2) * 2^253 := by norm_num
    rw [hb] at hbig
    have h276 : 2^276 ≤ t := by
      have h253 : (0:ℝ) < 2^253 := by positivity
      have e : (2^276 : ℝ) = 2^23 * 2^253 := by rw [← pow_add]
      have : (2^276 : ℝ) < t + 1 := by
        calc (2^276:ℝ) = 2^23 * 2^253 := e
          _ ≤ (2^24 - 1/2) * 2^253 := mul_le_mul_of_nonneg_right (by norm_num) h253.le
          _ ≤ X := hbig
          _ < _ := ht2
      have : (2^276 : ℕ) < t + 1 := by exact_mod_cast this
      exact Nat.lt_succ_iff.mp this
    have hk253 : 253 ≤ k := by
      have : 276 ≤ Nat.log2 t := (Nat.le_log2 (by
        have h0 : 0 < (2:ℕ)^276 := Nat.pow_pos (by norm_num)
        exact (lt_of_lt_of_le h0 h276).ne')).mpr h276
      omega
    rw [hmag, min_eq_left]
    by_cases hk' : k = 253
    · have : 2^24 ≤ q := by
        by_contra hc
        have hq' : q ≤ 2^24 - 1 := by omega
        have h1 := hqn (2^24)
        have hX' : (2^24 - 1/2 : ℝ) ≤ X / 2^k := by
          rw [hk', le_div_iff₀ (by positivity)]; exact hbig
        have hqr : (q:ℝ) ≤ 2^24 - 1 := by
          have : q + 1 ≤ 2^24 := by omega
          have : ((q:ℝ) + 1) ≤ 2^24 := by exact_mod_cast this
          linarith
        have h2 := h1.1
        push_cast at h2
        rw [abs_of_nonneg (by linarith), abs_of_nonpos (by linarith)] at h2
        have hqe : (q:ℝ) = 2^24 - 1 := by linarith
        have hXe : X/2^k = 2^24 - 1/2 := by linarith
        have h3 := h1.2 (by omega) (by
          push_cast
          rw [abs_of_nonneg (by linarith), abs_of_nonpos (by linarith)]; linarith)
        have : q = 2^24 - 1 := by
          have : ((q:ℝ) + 1) = 2^24 := by linarith
          have : q + 1 = 2^24 := by exact_mod_cast this
          omega
        omega
      omega
    · rcases hq23 with h | h <;> omega
  · intro hsmall
    have hb : ((2^128 - 2^103 : ℝ)) * 2^149 = (2^24 - 1/2) * 2^253 := by norm_num
    rw [hb] at hsmall
    have hk253 : k ≤ 253 := by
      by_contra hc
      push Not at hc
      rcases hlow with h | h
      · omega
      · have h' : (2^(23+k) : ℝ) ≤ X := le_trans (by exact_mod_cast h) ht1
        have : (2^277 : ℝ) ≤ 2^(23+k) := pow_le_pow_right₀ (by norm_num) (by omega)
        have e : (2^277 : ℝ) = 2^24 * 2^253 := by rw [← pow_add]
        have h253 : (0:ℝ) < 2^253 := by positivity
        rw [e] at this
        have : (2^24 : ℝ) * 2^253 < (2^24 - 1/2) * 2^253 := by linarith
        have := lt_of_mul_lt_mul_right this h253.le
        norm_num at this
    have hlt : k * 2^23 + q < 0x7F800000 := by
      by_cases hk' : k = 253
      · have : q < 2^24 := by
          by_contra hc
          have hqe : q = 2^24 := by omega
          have h1 := (hqn (2^24 - 1)).1
          have hX' : X / 2^k < 2^24 - 1/2 := by
            rw [hk', div_lt_iff₀ (by positivity)]; exact hsmall
          rw [hqe] at h1
          push_cast at h1
          have h4 := abs_le.mp h1
          have : |X / 2^k - ((2^24 - 1 : ℕ) : ℝ)| = |X/2^k - (2^24 - 1)| := by norm_num
          have h5 : |X / 2 ^ k - 2 ^ 24| ≤ |X / 2 ^ k - (2^24 - 1)| := by
            have := h1; norm_num at this ⊢; exact this
          rw [abs_of_nonpos (by linarith)] at h5
          rcases abs_cases (X / 2 ^ k - (2^24 - 1)) with ⟨h6, _⟩ | ⟨h6, _⟩ <;> rw [h6] at h5 <;> linarith
        omega
      · omega
    have hmag' : roundMag n d = k * 2^23 + q := by rw [hmag, min_eq_right (le_of_lt hlt)]
    refine ⟨by rw [hmag']; exact hlt, fun s w => ?_⟩
    rw [hmag', units_packSign s k q hq24 hq23 hlt]
    have hpos : (0:ℝ) < 2^k := by positivity
    have scale : ∀ m : ℕ, |X - ((m * 2^k : ℕ) : ℝ)| = |X/2^k - m| * 2^k := by
      intro m
      have : X - ((m * 2^k : ℕ) : ℝ) = (X/2^k - m) * 2^k := by push_cast; field_simp
      rw [this, abs_mul, abs_of_pos hpos]
    rcases units_grid w k with ⟨m, hm⟩ | hw
    · rw [hm, mul_comm (2^k) m, scale, scale]
      refine ⟨mul_le_mul_of_nonneg_right (hqn m).1 hpos.le, fun hne heq => ?_⟩
      have hne' : m ≠ q := fun h => hne (by rw [h])
      have heq' := mul_right_cancel₀ hpos.ne' heq
      have := (hqn m).2 hne' heq'
      omega
    · by_cases hk0 : k = 0
      · rw [hk0] at hpos scale hqn ⊢
        have e : units w = units w * 2^0 := by simp
        rw [e, scale, scale]
        refine ⟨mul_le_mul_of_nonneg_right (hqn _).1 hpos.le, fun hne heq => ?_⟩
        have hne' : units w ≠ q := fun h => hne (by rw [h])
        have := (hqn _).2 hne' (mul_right_cancel₀ hpos.ne' heq)
        omega
      · have hl := hlow.resolve_left hk0
        have hl' : (2^(23+k) : ℝ) ≤ X := le_trans (by exact_mod_cast hl) ht1
        have hw' : (units w : ℝ) < 2^(23+k) := by exact_mod_cast hw
        have h1 : |X - ((2^23 * 2^k : ℕ):ℝ)| = X - 2^(23+k) := by
          have e : ((2^23 * 2^k : ℕ):ℝ) = 2^(23+k) := by rw [pow_add]; push_cast; norm_num
          rw [e, abs_of_nonneg (by linarith)]
        have h2 : |X - (units w : ℝ)| = X - units w := abs_of_nonneg (by linarith)
        have h3 : |X - ((q * 2^k : ℕ) : ℝ)| ≤ |X - ((2^23 * 2^k : ℕ):ℝ)| := by
          rw [scale, scale]; exact mul_le_mul_of_nonneg_right (hqn _).1 hpos.le
        refine ⟨by rw [h2]; rw [h1] at h3; linarith, fun _ heq => ?_⟩
        rw [h2] at heq; rw [h1] at h3; linarith

theorem roundMag_zero (d : Nat) : roundMag 0 d = 0 := by
  simp [roundMag, roundQuot]

theorem roundMag_le (n d : Nat) : roundMag n d ≤ 0x7F800000 := min_le_left _ _

/-- A packed rounded magnitude with the sign of its number is that number rounded. -/
theorem roundsTo_pack (n d : Nat) (hd : 0 < d) (hn : 0 < n) (s : Bool) (x : ℝ)
    (hx : x = (if s then -1 else 1) * ((n:ℝ)/d)) : RoundsTo x (packSign s (roundMag n d)) := by
  have hdR : (0:ℝ) < d := by exact_mod_cast hd
  have hnR : (0:ℝ) < n := by exact_mod_cast hn
  have hpos : 0 < (n:ℝ)/d := by positivity
  have habs : |x| = (n:ℝ)/d := by rw [hx]; cases s <;> simp [abs_of_pos hpos, abs_neg]
  have hle := roundMag_le n d
  have hm : magnitude (packSign s (roundMag n d)) = roundMag n d := magnitude_packSign _ _ (by omega)
  have key := roundMag_nearest n d hd
  dsimp only at key
  refine ⟨fun h0 => ?_, fun _ => ?_, fun hbig => ?_, fun hsmall => ?_⟩
  · rw [h0, abs_zero] at habs; linarith
  · rw [signBit_packSign _ _ (by omega), hx]
    cases s
    · simp [hpos.le]
    · simp [hpos]
  · rw [hm]; apply key.1; rw [← habs]; exact mul_le_mul_of_nonneg_right hbig (by positivity)
  · have := key.2 (by rw [← habs]; exact mul_lt_mul_of_pos_right hsmall (by positivity))
    refine ⟨by unfold isFinite32; rw [hm]; exact this.1, fun w _ => ?_⟩
    rw [habs]
    refine ⟨(this.2 s w).1, fun hne heq => ?_⟩
    rw [getLsb0_packSign]
    have := (this.2 s w).2 hne heq
    simp; omega

/-! ### Flags, negation and order -/

theorem isFinite_flags {a : Word} (h : isFinite32 a) : isNaN32 a = false ∧ isInf32 a = false := by
  unfold isFinite32 at h
  unfold isNaN32 isInf32
  simp; omega

theorem magnitude_neg32 (a : Word) : magnitude (neg32 a) = magnitude a := by
  unfold magnitude neg32
  have e : ∀ x : BitVec 32, x.toNat % 2 ^ 31 = (x.extractLsb' 0 31).toNat := by
    intro x; simp
  rw [e, e]
  congr 1
  ext i hi
  have h : ∀ j < 31, (0x80000000 : BitVec 32).getLsbD j = false := by decide
  rw [BitVec.getElem_extractLsb', BitVec.getElem_extractLsb', BitVec.getLsbD_xor, h (0 + i) (by omega),
    Bool.xor_false]

theorem signBit_neg32 (a : Word) : signBit (neg32 a) = !signBit a := by
  unfold signBit neg32
  have h : (0x80000000 : BitVec 32).msb = true := by decide
  rw [BitVec.msb_xor, h, Bool.xor_true]

theorem units_neg32 (a : Word) : units (neg32 a) = units a := by unfold units; rw [magnitude_neg32]

theorem signedUnits_neg32 (a : Word) : signedUnits (neg32 a) = - signedUnits a := by
  unfold signedUnits; rw [signBit_neg32, units_neg32]; cases signBit a <;> simp

theorem signedUnits_abs (a : Word) : (signedUnits a : ℝ) = (if signBit a then -1 else 1) * (units a : ℝ) := by
  unfold signedUnits; cases signBit a <;> simp

theorem isZero_units {a : Word} (h : units a ≠ 0) : isZero32 a = false := by
  unfold isZero32
  by_contra hc
  apply h
  have : magnitude a = 0 := by simpa using hc
  unfold units; rw [this]; simp

theorem isFinite_neg {b : Word} (hb : isFinite32 b) : isFinite32 (neg32 b) := by
  unfold isFinite32 at *; rw [magnitude_neg32]; exact hb

theorem f32OfRat_not_nan (n : Int) (d : Nat) : isNaN32 (f32OfRat n d) = false := by
  unfold f32OfRat
  split
  · decide
  · unfold isNaN32
    have := roundMag_le n.natAbs d
    rw [magnitude_packSign _ _ (by omega)]
    simp; omega

theorem packSign_not_nan (s) (m : Nat) (h : m ≤ 0x7F800000) : isNaN32 (packSign s m) = false := by
  unfold isNaN32; rw [magnitude_packSign _ _ (by omega)]; simp; omega

theorem inf_not_nan {a : Word} (h : isInf32 a = true) : isNaN32 a = false := by
  unfold isInf32 at h; unfold isNaN32; simp at *; omega

/-- The value of a finite pattern rises with its magnitude pattern. -/
theorem unitsOfMag_mono {m n : Nat} (h : m < n) :
    (let e := m / 2^23; let f := m % 2^23; if e = 0 then f else (2^23+f) * 2^(e-1)) <
    (let e := n / 2^23; let f := n % 2^23; if e = 0 then f else (2^23+f) * 2^(e-1)) := by
  dsimp only
  have hm := Nat.div_add_mod m (2^23)
  have hn := Nat.div_add_mod n (2^23)
  have h1 : m % 2^23 < 2^23 := Nat.mod_lt _ (by norm_num)
  have h2 : n % 2^23 < 2^23 := Nat.mod_lt _ (by norm_num)
  set em := m / 2^23
  set en := n / 2^23
  set fm := m % 2^23
  set fn := n % 2^23
  have hle : em ≤ en := by by_contra hc; push Not at hc; nlinarith
  rcases eq_or_lt_of_le hle with he | he
  · have hf : fm < fn := by rw [he] at hm; omega
    rw [he]
    split
    · exact hf
    · exact Nat.mul_lt_mul_of_pos_right (by omega) (by positivity)
  · rw [if_neg (by omega : ¬ en = 0)]
    split
    · calc fm < 2^23 := h1
        _ ≤ (2^23 + fn) * 1 := by omega
        _ ≤ _ := Nat.mul_le_mul_left _ (Nat.one_le_two_pow)
    · calc (2^23 + fm) * 2^(em-1) < 2^24 * 2^(em-1) := Nat.mul_lt_mul_of_pos_right (by omega) (by positivity)
        _ = 2^23 * 2^(em-1+1) := by rw [pow_succ]; ring
        _ ≤ 2^23 * 2^(en-1) := Nat.mul_le_mul_left _ (Nat.pow_le_pow_right (by norm_num) (by omega))
        _ ≤ _ := Nat.mul_le_mul_right _ (by omega)

theorem units_lt_iff (a b : Word) : units a < units b ↔ magnitude a < magnitude b := by
  constructor
  · intro h
    by_contra hc
    push Not at hc
    rcases eq_or_lt_of_le hc with he | he
    · unfold units at h; rw [he] at h; exact lt_irrefl _ h
    · have := unitsOfMag_mono he
      unfold units at h; dsimp only at this h; omega
  · intro h; exact unitsOfMag_mono h

theorem units_zero_iff (a : Word) : units a = 0 ↔ magnitude a = 0 := by
  constructor
  · intro h
    by_contra hc
    have := unitsOfMag_mono (Nat.pos_of_ne_zero hc)
    unfold units at h; dsimp only at this h; omega
  · intro h; unfold units; rw [h]; simp

theorem orderKey_lt_iff (a b : Word) : orderKey a < orderKey b ↔ signedUnits a < signedUnits b := by
  have h1 := units_lt_iff a b
  have h2 := units_lt_iff b a
  have h3 := units_zero_iff a
  have h4 := units_zero_iff b
  unfold orderKey signedUnits
  cases signBit a <;> cases signBit b <;> simp <;> omega

/-! ### Rounding a real number -/

/-- A pattern is its sign bit and its magnitude. -/
theorem eq_of_sign_magnitude {v w : Word} (hs : signBit v = signBit w) (hm : magnitude v = magnitude w) : v = w := by
  unfold signBit magnitude at *
  rw [BitVec.msb_eq_decide, BitVec.msb_eq_decide] at hs
  have := decide_eq_decide.1 hs
  apply BitVec.eq_of_toNat_eq
  have := v.isLt
  have := w.isLt
  omega

/-- The parity of a pattern is that of its magnitude. -/
theorem getLsb0_eq (v : Word) : v.getLsbD 0 = decide (magnitude v % 2 = 1) := by
  unfold magnitude
  rw [BitVec.getLsbD, Nat.testBit_zero]
  congr 2
  omega

/-- `f32` of a nonzero rational is that number rounded. -/
theorem roundsTo_f32OfRat {n : Int} (hn : n ≠ 0) {d : Nat} (hd : 0 < d) :
    RoundsTo ((n : ℝ) / d) (f32OfRat n d) := by
  rw [f32OfRat, if_neg hn]
  refine roundsTo_pack n.natAbs d hd (Int.natAbs_pos.2 hn) _ _ ?_
  rw [Nat.cast_natAbs]
  rcases lt_or_gt_of_ne hn with h | h
  · simp [h, abs_of_neg h]; ring
  · simp [not_lt.2 h.le, abs_of_pos h]

/-- Zero rounds to +0.0. -/
theorem roundsTo_zero : RoundsTo 0 zero32 := by
  refine ⟨fun _ => rfl, fun h => absurd rfl h, fun h => ?_, fun _ => ⟨by unfold isFinite32; decide, fun w _ => ?_⟩⟩
  · rw [abs_zero] at h; norm_num at h
  · rw [abs_zero, zero_mul, show units zero32 = 0 by decide]
    exact ⟨by simp, fun _ _ => by decide⟩

/-- One rounds to 1.0. -/
theorem roundsTo_one : RoundsTo 1 one32 := by
  have := roundsTo_f32OfRat one_ne_zero one_pos
  rw [show f32OfRat 1 1 = one32 by decide] at this
  simpa using this

/-- The negation of a nonzero number rounds to the negated pattern. -/
theorem RoundsTo.neg {x : ℝ} {w : Word} (hx : x ≠ 0) (h : RoundsTo x w) : RoundsTo (-x) (neg32 w) := by
  obtain ⟨_, h2, h3, h4⟩ := h
  refine ⟨fun h => absurd (neg_eq_zero.1 h) hx, fun _ => ?_, fun h => ?_, fun h => ?_⟩
  · rw [signBit_neg32, h2 hx]
    rcases lt_or_gt_of_ne hx with h | h <;> simp [h, not_lt.2 h.le]
  · rw [magnitude_neg32]; exact h3 (by rwa [abs_neg] at h)
  · rw [abs_neg] at h ⊢
    obtain ⟨a, b⟩ := h4 h
    refine ⟨isFinite_neg a, fun w' hw' => ?_⟩
    rw [units_neg32, getLsb0_eq, magnitude_neg32, ← getLsb0_eq]
    exact b w' hw'

/-- Nearer to `a` than to `b` is a comparison with their midpoint. -/
theorem nearer_iff (x a b : ℝ) : |(x - a)| ≤ |(x - b)| ↔ (b - a) * (2 * x) ≤ (b - a) * (a + b) := by
  rw [← sq_le_sq]
  constructor <;> intro h <;> nlinarith

/-- As near to `a` as to `b` is lying at their midpoint, or `a = b`. -/
theorem tie_iff (x a b : ℝ) : |(x - a)| = |(x - b)| ↔ (b - a) * (2 * x) = (b - a) * (a + b) := by
  rw [← sq_eq_sq_iff_abs_eq_abs]
  constructor <;> intro h <;> nlinarith

/-- Between two multiples of 2^-151 that follow each other all numbers round to one pattern. -/
theorem RoundsTo.of_floor {u : Int} {x y : ℝ} {w : Word} (hx : u < x * 2 ^ 151 ∧ x * 2 ^ 151 < u + 1)
    (hy : u < y * 2 ^ 151 ∧ y * 2 ^ 151 < u + 1) (h : RoundsTo y w) : RoundsTo x w := by
  have hs : (x < 0 ↔ u < 0) ∧ (y < 0 ↔ u < 0) ∧ x ≠ 0 ∧ y ≠ 0 := by
    have key : ∀ t : ℝ, u < t * 2 ^ 151 ∧ t * 2 ^ 151 < u + 1 → (t < 0 ↔ u < 0) ∧ t ≠ 0 := by
      intro t ⟨h1, h2⟩
      refine ⟨⟨fun ht => ?_, fun hu => ?_⟩, fun ht => ?_⟩
      · have : (u : ℝ) < 0 := by nlinarith
        exact_mod_cast this
      · have : (u : ℝ) + 1 ≤ 0 := by exact_mod_cast hu
        nlinarith
      · rw [ht, zero_mul] at h1 h2
        have h1' : u < 0 := by exact_mod_cast h1
        have h2' : (0 : ℤ) < u + 1 := by exact_mod_cast h2
        omega
    exact ⟨(key x hx).1, (key y hy).1, (key x hx).2, (key y hy).2⟩
  obtain ⟨hsx, hsy, hx0, hy0⟩ := hs
  -- the absolute values in units of 2^-151 lie between the same integers
  obtain ⟨v, hvx, hvy⟩ : ∃ v : ℤ, (v < |x| * 2 ^ 151 ∧ |x| * 2 ^ 151 < v + 1) ∧ (v < |y| * 2 ^ 151 ∧ |y| * 2 ^ 151 < v + 1) := by
    by_cases hu : u < 0
    · refine ⟨-u - 1, ?_, ?_⟩
      · rw [abs_of_neg (hsx.2 hu)]; push_cast; constructor <;> linarith
      · rw [abs_of_neg (hsy.2 hu)]; push_cast; constructor <;> linarith
    · refine ⟨u, ?_, ?_⟩
      · rw [abs_of_nonneg (not_lt.1 (mt hsx.1 hu))]; exact hx
      · rw [abs_of_nonneg (not_lt.1 (mt hsy.1 hu))]; exact hy
  -- so they compare alike with every integer
  have le_iff : ∀ m : ℤ, (|x| * 2 ^ 151 ≤ m ↔ v < m) ∧ (|y| * 2 ^ 151 ≤ m ↔ v < m) := by
    intro m
    have aux : ∀ t : ℝ, v < t ∧ t < v + 1 → (t ≤ m ↔ v < m) := fun t ht =>
      ⟨fun h => by exact_mod_cast ht.1.trans_le h, fun h => ht.2.le.trans (by exact_mod_cast h)⟩
    exact ⟨aux _ hvx, aux _ hvy⟩
  have ge_iff : ∀ m : ℤ, (m ≤ |x| * 2 ^ 151 ↔ m ≤ v) ∧ (m ≤ |y| * 2 ^ 151 ↔ m ≤ v) := by
    intro m
    have aux : ∀ t : ℝ, v < t ∧ t < v + 1 → ((m : ℝ) ≤ t ↔ m ≤ v) := fun t ht =>
      ⟨fun h => by have : (m : ℝ) < v + 1 := h.trans_lt ht.2
                   exact Int.lt_add_one_iff.1 (by exact_mod_cast this),
       fun h => le_trans (by exact_mod_cast h) ht.1.le⟩
    exact ⟨aux _ hvx, aux _ hvy⟩
  have big : (2 : ℝ) ^ 128 - 2 ^ 103 ≤ |x| ↔ (2 : ℝ) ^ 128 - 2 ^ 103 ≤ |y| := by
    have e : ∀ t : ℝ, (2 : ℝ) ^ 128 - 2 ^ 103 ≤ t ↔ (((2 ^ 128 - 2 ^ 103) * 2 ^ 151 : ℤ) : ℝ) ≤ t * 2 ^ 151 := by
      intro t
      rw [show (((2 ^ 128 - 2 ^ 103) * 2 ^ 151 : ℤ) : ℝ) = ((2 : ℝ) ^ 128 - 2 ^ 103) * 2 ^ 151 by norm_num]
      exact (mul_le_mul_iff_left₀ (by positivity : (0 : ℝ) < 2 ^ 151)).symm
    rw [e, e, (ge_iff _).1, (ge_iff _).2]
  obtain ⟨_, h2, h3, h4⟩ := h
  refine ⟨fun h => absurd h hx0, fun _ => ?_, fun h => h3 (big.1 h), fun h => ?_⟩
  · rw [h2 hy0]; exact decide_eq_decide.2 (hsy.trans hsx.symm)
  · obtain ⟨hf, hn⟩ := h4 (not_le.1 (mt big.2 (not_le.2 h)))
    refine ⟨hf, fun w' hw' => ?_⟩
    obtain ⟨n1, n2⟩ := hn w' hw'
    have scale : ∀ t : ℝ, t * 2 ^ 149 * 2 * 2 = t * 2 ^ 151 := fun t => by ring
    rw [nearer_iff] at n1 ⊢
    rw [tie_iff] at n2 ⊢
    set a : ℝ := (units w : ℝ) with ha
    set b : ℝ := (units w' : ℝ) with hb
    have hab : (2 * (a + b) : ℝ) = ((2 * (units w + units w' : ℕ) : ℤ) : ℝ) := by push_cast; ring
    have l := le_iff (2 * (units w + units w' : ℕ) : ℤ)
    have g := ge_iff (2 * (units w + units w' : ℕ) : ℤ)
    rw [← hab] at l g
    rcases lt_trichotomy a b with hlt | heq | hgt
    · have hpos : 0 < b - a := by linarith
      rw [mul_le_mul_iff_right₀ hpos] at n1 ⊢
      refine ⟨?_, fun _ ht => ?_⟩
      · have := l.2.1 (by rw [← scale]; linarith)
        have := l.1.2 this
        rw [← scale] at this; linarith
      · exfalso
        have ht' := mul_left_cancel₀ hpos.ne' ht
        have e1 : |x| * 2 ^ 151 = 2 * (a + b) := by rw [← scale]; linarith
        have h1 := l.1.1 e1.le
        have h2 := g.1.1 e1.ge
        omega
    · rw [heq]
      refine ⟨by simp, fun hne => ?_⟩
      rw [ha, hb] at heq
      exact absurd (by exact_mod_cast heq.symm) hne
    · have hneg : b - a < 0 := by linarith
      rw [mul_le_mul_left_of_neg hneg] at n1 ⊢
      refine ⟨?_, fun _ ht => ?_⟩
      · have := g.2.1 (by rw [← scale]; linarith)
        have := g.1.2 this
        rw [← scale] at this; linarith
      · exfalso
        have ht' := mul_left_cancel₀ hneg.ne ht
        have e1 : |x| * 2 ^ 151 = 2 * (a + b) := by rw [← scale]; linarith
        have h1 := l.1.1 e1.le
        have h2 := g.1.1 e1.ge
        omega

/-- `roundFloor` rounds a number by its exact floor. -/
theorem roundsTo_roundFloor {u : Int} {x : ℝ} (hx : u < x * 2 ^ 151 ∧ x * 2 ^ 151 < u + 1) :
    RoundsTo x (roundFloor u) := by
  refine RoundsTo.of_floor hx (y := ((2 * u + 1 : Int) : ℝ) / (2 ^ 152 : Nat)) ?_ (roundsTo_f32OfRat (by omega) (by positivity))
  have e : ((2 * u + 1 : Int) : ℝ) / (2 ^ 152 : Nat) * 2 ^ 151 = u + 1 / 2 := by
    push_cast; field_simp; ring
  rw [e]
  constructor <;> linarith

/-- The magnitudes of numbers that round to one pattern: a number between two of them in absolute value, of
the sign of the greater, rounds to it. -/
theorem RoundsTo.between_abs {p y q : ℝ} {w : Word} (hp : RoundsTo p w) (hq : RoundsTo q w) (h1 : |p| ≤ |y|)
    (h2 : |y| ≤ |q|) (hy : y ≠ 0) (hs : q < 0 ↔ y < 0) : RoundsTo y w := by
  have hq0 : q ≠ 0 := abs_pos.1 ((abs_pos.2 hy).trans_le h2)
  refine ⟨fun h => absurd h hy, fun _ => (hq.2.1 hq0).trans (decide_eq_decide.2 hs), fun h => hq.2.2.1 (h.trans h2), fun h => ?_⟩
  have hzero : p = 0 → units w = 0 ∧ isFinite32 w := fun h0 => by rw [hp.1 h0]; exact ⟨by decide, by unfold isFinite32; decide⟩
  have hfin : isFinite32 w := by
    by_cases h0 : p = 0
    · exact (hzero h0).2
    · exact (hp.2.2.2 (h1.trans_lt h)).1
  have hqb : |q| < 2 ^ 128 - 2 ^ 103 := by
    by_contra hc
    have := hq.2.2.1 (not_lt.1 hc)
    unfold isFinite32 at hfin
    omega
  refine ⟨hfin, fun b hb => ?_⟩
  obtain ⟨q1, q2⟩ := (hq.2.2.2 hqb).2 b hb
  rw [nearer_iff] at q1 ⊢
  rw [tie_iff] at q2 ⊢
  rcases lt_trichotomy (units w : ℝ) (units b) with hlt | heq | hgt
  · have hpos : 0 < (units b : ℝ) - units w := by linarith
    rw [mul_le_mul_iff_right₀ hpos] at q1 ⊢
    refine ⟨by linarith, fun hne ht => q2 hne ?_⟩
    have ht' := mul_left_cancel₀ hpos.ne' ht
    congr 1; linarith
  · rw [heq]
    exact ⟨by simp, fun hne => absurd (by exact_mod_cast heq.symm) hne⟩
  · have hneg : (units b : ℝ) - units w < 0 := by linarith
    have hp0 : p ≠ 0 := by
      intro h0
      rw [(hzero h0).1, Nat.cast_zero] at hgt
      exact absurd hgt (not_lt.2 (Nat.cast_nonneg _))
    obtain ⟨p1, p2⟩ := (hp.2.2.2 (h1.trans_lt h)).2 b hb
    rw [nearer_iff, mul_le_mul_left_of_neg hneg] at p1
    rw [tie_iff] at p2
    rw [mul_le_mul_left_of_neg hneg]
    refine ⟨by linarith, fun hne ht => p2 hne ?_⟩
    have ht' := mul_left_cancel₀ hneg.ne ht
    congr 1; linarith

/-- A number between two that round to one pattern rounds to it. -/
theorem RoundsTo.between {x y z : ℝ} {w : Word} (hx : RoundsTo x w) (hz : RoundsTo z w) (h1 : x ≤ y) (h2 : y ≤ z) :
    RoundsTo y w := by
  have hsign : ¬ (x < 0 ∧ 0 < z) := fun ⟨a, b⟩ => by
    have e1 := hx.2.1 a.ne
    have e2 := hz.2.1 b.ne'
    rw [e1] at e2
    simp [a, not_lt.2 b.le] at e2
  rcases lt_trichotomy y 0 with hy | rfl | hy
  · have hz0 : z ≤ 0 := not_lt.1 fun h => hsign ⟨h1.trans_lt hy, h⟩
    refine hz.between_abs hx ?_ ?_ hy.ne ⟨fun _ => hy, fun _ => h1.trans_lt hy⟩
    · rw [abs_of_nonpos hz0, abs_of_neg hy]; linarith
    · rw [abs_of_neg hy, abs_of_neg (h1.trans_lt hy)]; linarith
  · rcases h1.lt_or_eq with h | rfl
    · rcases h2.lt_or_eq with h' | rfl
      · exact absurd ⟨h, h'⟩ hsign
      · exact hz
    · exact hx
  · have hx0 : 0 ≤ x := not_lt.1 fun h => hsign ⟨h, hy.trans_le h2⟩
    refine hx.between_abs hz ?_ ?_ hy.ne' ⟨fun h => absurd h (not_lt.2 (hy.trans_le h2).le), fun h => absurd h (not_lt.2 hy.le)⟩
    · rw [abs_of_nonneg hx0, abs_of_pos hy]; exact h1
    · rw [abs_of_pos hy, abs_of_pos (hy.trans_le h2)]; exact h2

/-- A real number rounds to one pattern only. -/
theorem RoundsTo.unique {x : ℝ} {v w : Word} (hv : RoundsTo x v) (hw : RoundsTo x w) : v = w := by
  by_cases h0 : x = 0
  · rw [hv.1 h0, hw.1 h0]
  have hs : signBit v = signBit w := by rw [hv.2.1 h0, hw.2.1 h0]
  refine eq_of_sign_magnitude hs ?_
  rcases le_or_gt ((2 : ℝ) ^ 128 - 2 ^ 103) |x| with h | h
  · rw [hv.2.2.1 h, hw.2.2.1 h]
  obtain ⟨fv, nv⟩ := hv.2.2.2 h
  obtain ⟨fw, nw⟩ := hw.2.2.2 h
  by_contra hne
  -- two different nearest patterns tie, so both are even, and an odd one between them is nearer
  wlog hlt : magnitude v < magnitude w generalizing v w
  · exact this hw hv hs.symm fw nw fv nv (Ne.symm hne) (by omega)
  have hu := (units_lt_iff v w).2 hlt
  have tie := le_antisymm (nv w fw).1 (nw v fv).1
  have ev := (nv w fw).2 hu.ne' tie
  have ew := (nw v fv).2 hu.ne tie.symm
  rw [getLsb0_eq] at ev ew
  have ev' := of_decide_eq_false ev
  have ew' := of_decide_eq_false ew
  unfold isFinite32 at fv fw
  set m : Word := packSign false (magnitude v + 1) with hm
  have mm : magnitude m = magnitude v + 1 := magnitude_packSign _ _ (by omega)
  have h1 := (units_lt_iff v m).2 (by omega)
  have h2 := (units_lt_iff m w).2 (by omega)
  have near := (nv m (by unfold isFinite32; omega)).1
  rw [nearer_iff] at near
  rw [tie_iff] at tie
  have h1' : (units v : ℝ) < units m := by exact_mod_cast h1
  have h2' : (units m : ℝ) < units w := by exact_mod_cast h2
  rw [mul_le_mul_iff_right₀ (by linarith)] at near
  have tie' := mul_left_cancel₀ (by linarith : (units w : ℝ) - units v ≠ 0) tie
  linarith

end Sys2Proof.Machine
end

