-- ==== Sys2Proof/Laws/Elementary.lean ====
section
/-! SUPPORT. The laws of the correctly rounded functions: the exact floors are the floors they claim, the
search for one ends, and a number rounded by its enclosure or else by its exact floor is rounded right.
The cosine and the sine of a nonzero rational are irrational, by the approximation theorem of Lindemann
and Weierstrass; of a dyadic fraction of the turn, off the quarter turns, by Niven's theorem. -/

namespace Sys2Proof.Machine

/-! ### Irrational values -/

/-- The powers of `i` and of `-i` sum to an integer. -/
theorem pow_I_add (k : ℕ) : ∃ z : ℤ, Complex.I ^ k + (-Complex.I) ^ k = z := by
  rw [neg_pow]
  obtain ⟨m, rfl | rfl⟩ := Nat.even_or_odd' k
  · exact ⟨2 * (-1) ^ m, by rw [pow_mul, pow_mul]; push_cast; simp; ring⟩
  · exact ⟨0, by rw [pow_succ (-1 : ℂ), pow_mul (-1 : ℂ)]; simp⟩

open Polynomial in
/-- An integer polynomial's values at `i·a/b` and at `-i·a/b` sum to an integer over `b^N`. -/
theorem aeval_add_conj (g : ℤ[X]) (a : ℤ) (b N : ℕ) (hb : b ≠ 0) (hN : g.natDegree ≤ N) :
    ∃ z : ℤ, (b : ℂ) ^ N * (aeval (a / b * Complex.I : ℂ) g + aeval (-(a / b * Complex.I) : ℂ) g) = z := by
  choose w hw using pow_I_add
  refine ⟨∑ k ∈ Finset.range (N + 1), g.coeff k * a ^ k * b ^ (N - k) * w k, ?_⟩
  rw [aeval_eq_sum_range' (Nat.lt_succ_of_le hN), aeval_eq_sum_range' (Nat.lt_succ_of_le hN),
    ← Finset.sum_add_distrib, Finset.mul_sum, Int.cast_sum]
  refine Finset.sum_congr rfl fun k hk => ?_
  have hk' : k ≤ N := Nat.lt_succ_iff.1 (Finset.mem_range.1 hk)
  have hb' : (b : ℂ) ≠ 0 := Nat.cast_ne_zero.2 hb
  have e : (b : ℂ) ^ N = b ^ (N - k) * b ^ k := by rw [← pow_add, Nat.sub_add_cancel hk']
  push_cast
  rw [← hw k, zsmul_eq_mul, zsmul_eq_mul, ← mul_neg, mul_pow, mul_pow, div_pow, e]
  field_simp

open Polynomial in
/-- The cosine of a nonzero rational number is irrational. -/
theorem irrational_cos_rat {q : ℚ} (hq : q ≠ 0) : Irrational (Real.cos q) := by
  rintro ⟨s, hs⟩
  set a := q.num with ha
  set b := q.den with hb
  have hb0 : b ≠ 0 := q.den_nz
  have ha0 : a ≠ 0 := Rat.num_ne_zero.2 hq
  have hqc : (q : ℂ) = a / b := by rw [ha, hb]; exact_mod_cast (Rat.num_div_den q).symm
  have hs0 : s ≠ 0 := by
    rintro rfl
    rw [Rat.cast_zero, eq_comm, Real.cos_eq_zero_iff] at hs
    obtain ⟨k, hk⟩ := hs
    have h2 : (2 * k + 1 : ℤ) ≠ 0 := by omega
    refine irrational_pi ⟨2 * q / (2 * k + 1 : ℤ), ?_⟩
    have h2' : (2 * (k : ℝ) + 1) ≠ 0 := by exact_mod_cast h2
    push_cast
    rw [hk]
    field_simp
  set P := s.num
  set Q := s.den with hQ
  have hQ0 : Q ≠ 0 := s.den_nz
  have hP0 : P ≠ 0 := Rat.num_ne_zero.2 hs0
  let f : ℤ[X] := C ((b : ℤ) ^ 2) * X ^ 2 + C (a ^ 2)
  have hf0 : f.eval 0 = a ^ 2 := by simp [f]
  have hfne : f ≠ 0 := by
    intro h
    rw [h, eval_zero] at hf0
    exact pow_ne_zero 2 ha0 hf0.symm
  have hdeg : f.natDegree ≤ 2 := by
    refine natDegree_add_le_of_degree_le ?_ (by simp)
    exact natDegree_mul_le.trans (by simp)
  obtain ⟨c, hc⟩ := LindemannWeierstrass.exp_polynomial_approx f (by rw [hf0]; exact pow_ne_zero 2 ha0)
  have hbC : (b : ℂ) ≠ 0 := Nat.cast_ne_zero.2 hb0
  have root : ∀ r : ℂ, r ^ 2 = -((a : ℂ) / b) ^ 2 → r ∈ f.aroots ℂ := by
    intro r hr
    rw [mem_aroots]
    refine ⟨hfne, ?_⟩
    simp only [f, map_add, map_mul, map_pow, aeval_X, aeval_C]
    rw [hr]
    simp
    field_simp
    ring
  have r1 := root (a / b * Complex.I) (by rw [mul_pow, Complex.I_sq]; ring)
  have r2 := root (-(a / b * Complex.I)) (by rw [neg_sq, mul_pow, Complex.I_sq]; ring)
  have lim : Filter.Tendsto (fun m : ℕ => 2 * Q * (b ^ 2 * |c|) * ((b ^ 2 * |c|) ^ m / m.factorial)) Filter.atTop (nhds 0) := by
    have := (FloorSemiring.tendsto_pow_div_factorial_atTop ((b : ℝ) ^ 2 * |c|)).const_mul (2 * Q * (b ^ 2 * |c|))
    simpa using this
  obtain ⟨M, hM⟩ := Filter.eventually_atTop.1 (lim.eventually_lt_const one_pos)
  obtain ⟨p, hp, pp⟩ := Nat.exists_infinite_primes (M + (a ^ 2).natAbs + (2 * P * b).natAbs + 2)
  obtain ⟨n, hn, g, hg, happ⟩ := hc p (by rw [hf0]; omega) pp
  obtain ⟨z, hz⟩ := aeval_add_conj g a b (2 * p) hb0 (hg.trans (by nlinarith [Nat.sub_le (p * f.natDegree) 1]))
  have b1 := happ r1
  have b2 := happ r2
  set N : ℤ := n * (2 * P) * b ^ (2 * p) - p * Q * z with hN
  have hNne : N ≠ 0 := by
    intro h
    have hd : (p : ℤ) ∣ n * (2 * P) * b ^ (2 * p) := by
      rw [show n * (2 * P) * (b : ℤ) ^ (2 * p) = p * (Q * z) by linarith]
      exact dvd_mul_right _ _
    have hpi := Nat.prime_iff_prime_int.1 pp
    have big : ∀ w : ℤ, w ≠ 0 → w ∣ 2 * P * b → ¬ (p : ℤ) ∣ w := by
      intro w hw hwd h
      have h2 := Int.natAbs_dvd_natAbs.2 (h.trans hwd)
      have := Nat.le_of_dvd (Int.natAbs_pos.2 (by positivity)) h2
      simp only [Int.natAbs_natCast] at this
      omega
    rcases hpi.dvd_or_dvd hd with h | h
    · rcases hpi.dvd_or_dvd h with h | h
      · exact hn h
      · exact big (2 * P) (by positivity) (dvd_mul_right _ _) h
    · exact big b (by exact_mod_cast hb0) (dvd_mul_left _ _) (hpi.dvd_of_dvd_pow h)
  have hcos : Complex.exp (a / b * Complex.I) + Complex.exp (-(a / b * Complex.I)) = 2 * P / Q := by
    have h1 : Complex.cos (q : ℂ) = (P : ℂ) / Q := by
      have : ((Real.cos q : ℝ) : ℂ) = ((s : ℝ) : ℂ) := by rw [hs]
      rw [Complex.ofReal_cos] at this
      rw [← Complex.ofReal_ratCast, this, Complex.ofReal_ratCast]
      exact_mod_cast (Rat.num_div_den s).symm
    rw [← hqc, ← neg_mul, ← Complex.two_cos, h1]
    ring
  have hQC : (Q : ℂ) ≠ 0 := Nat.cast_ne_zero.2 hQ0
  have key : (N : ℂ) = Q * b ^ (2 * p) *
      ((n • Complex.exp (a / b * Complex.I) - p • aeval (a / b * Complex.I : ℂ) g) +
        (n • Complex.exp (-(a / b * Complex.I)) - p • aeval (-(a / b * Complex.I) : ℂ) g)) := by
    have e1 : (N : ℂ) = n * (2 * P) * b ^ (2 * p) - p * Q * z := by rw [hN]; push_cast; ring
    rw [e1, ← hz]
    simp only [zsmul_eq_mul, nsmul_eq_mul]
    have e2 : (2 * P : ℂ) = Q * (Complex.exp (a / b * Complex.I) + Complex.exp (-(a / b * Complex.I))) := by
      rw [hcos]; field_simp
    rw [e2]
    ring
  have small : ‖(N : ℂ)‖ < 1 := by
    rw [key, norm_mul, norm_mul, norm_pow, Complex.norm_natCast, Complex.norm_natCast]
    have hnorm := (norm_add_le _ _).trans (add_le_add b1 b2)
    have hcp : c ^ p ≤ |c| ^ p := (le_abs_self _).trans (abs_pow c p).le
    have := hM (p - 1) (by omega)
    refine lt_of_le_of_lt ?_ this
    calc (Q : ℝ) * b ^ (2 * p) * _ ≤ Q * b ^ (2 * p) * (c ^ p / (p - 1).factorial + c ^ p / (p - 1).factorial) := by gcongr
      _ ≤ Q * b ^ (2 * p) * (|c| ^ p / (p - 1).factorial + |c| ^ p / (p - 1).factorial) := by gcongr
      _ = 2 * Q * ((b ^ 2 * |c|) ^ (p - 1 + 1) / (p - 1).factorial) := by
        rw [Nat.sub_add_cancel pp.one_le, mul_pow, ← pow_mul]; ring
      _ = _ := by rw [pow_succ]; ring
  rw [Complex.norm_intCast] at small
  have : |N| < 1 := by exact_mod_cast small
  exact hNne (Int.abs_lt_one_iff.1 this)

/-- The sine of a nonzero rational number is irrational. -/
theorem irrational_sin_rat {q : ℚ} (hq : q ≠ 0) : Irrational (Real.sin q) := by
  rintro ⟨s, hs⟩
  refine irrational_cos_rat (q := 2 * q) (by simpa using hq) ⟨1 - 2 * s ^ 2, ?_⟩
  push_cast
  rw [hs, Real.cos_two_mul, Real.cos_sq']
  ring

/-! ### The floor by bisection -/

/-- Of a test that holds up to `t` and fails after it, the bisection finds `t`. -/
theorem greatestHolding_eq {holds : Nat → Bool} {t : Nat} (h : ∀ m, holds m = true ↔ m ≤ t) (k m : Nat)
    (h1 : m ≤ t) (h2 : t < m + 2 ^ k) : greatestHolding holds k m = t := by
  induction k generalizing m with
  | zero => rw [greatestHolding]; omega
  | succ k ih =>
    rw [greatestHolding]
    rw [pow_succ] at h2
    split
    · exact ih _ ((h _).1 ‹_›) (by omega)
    · exact ih _ h1 (not_le.1 fun hc => ‹¬ _› ((h _).2 hc))

/-! ### The power of two -/

/-- A power whose exponent is no multiple of `N` is no `N`-th power. -/
theorem pow_ne_two_pow {N e m : Nat} (h : ¬ N ∣ e) : m ^ N ≠ 2 ^ e := by
  intro hm
  obtain ⟨i, -, rfl⟩ := (Nat.dvd_prime_pow Nat.prime_two).1 (hm ▸ dvd_pow_self m (by rintro rfl; simp at hm; exact h (by simp [show e = 0 by
    by_contra h0; have := Nat.one_lt_two_pow h0; omega])) : m ∣ 2 ^ e)
  rw [← pow_mul] at hm
  exact h ⟨i, by rw [mul_comm]; exact (Nat.pow_right_injective (le_refl 2) hm).symm⟩

/-- An `N`-th root of a power of two against an integer. -/
theorem le_two_rpow_iff {N : Nat} (hN : 0 < N) (m e : Nat) : (m : ℝ) ≤ (2 : ℝ) ^ ((e : ℝ) / N) ↔ m ^ N ≤ 2 ^ e := by
  have hN' : (N : ℝ) ≠ 0 := by exact_mod_cast hN.ne'
  rw [← pow_le_pow_iff_left₀ (Nat.cast_nonneg m) (by positivity) hN.ne', ← Real.rpow_natCast (_ ^ _) N, ← Real.rpow_mul (by norm_num), div_mul_cancel₀ _ hN',
    Real.rpow_natCast]
  exact_mod_cast Iff.rfl

/-- `expTwoFloor` is the floor it claims, and its number is no multiple of 2^-151. -/
theorem expTwoFloor_spec {n : Int} (hn : -151 ≤ n) {f : Nat} (h0 : f ≠ 0) (hf : f < 2 ^ 149) :
    let x : ℝ := (2 : ℝ) ^ ((n : ℝ) + f / 2 ^ 149)
    (expTwoFloor n f : ℝ) < x * 2 ^ 151 ∧ x * 2 ^ 151 < expTwoFloor n f + 1 := by
  intro x
  obtain ⟨e, he⟩ := Int.eq_ofNat_of_zero_le (show 0 ≤ n + 151 by omega)
  have hx : x * 2 ^ 151 = (2 : ℝ) ^ (((f + e * 2 ^ 149 : Nat) : ℝ) / (2 ^ 149 : Nat)) := by
    have hn' : (n : ℝ) = e - 151 := by
      have : (n : ℝ) + 151 = e := by exact_mod_cast he
      linarith
    have h2 : ((f + e * 2 ^ 149 : Nat) : ℝ) / (2 ^ 149 : Nat) = n + f / 2 ^ 149 + (151 : ℕ) := by
      rw [hn', Nat.cast_add, Nat.cast_mul, Nat.cast_pow, Nat.cast_ofNat, add_div, mul_div_cancel_right₀ _ (by positivity)]
      push_cast
      ring
    rw [h2, Real.rpow_add (by norm_num), Real.rpow_natCast]
  have hN : 0 < 2 ^ 149 := by positivity
  generalize hNN : 2 ^ 149 = N at *
  set y : ℝ := (2 : ℝ) ^ (((f + e * N : Nat) : ℝ) / N) with hy
  have hy0 : 0 ≤ y := by positivity
  have hle : ∀ m : Nat, (m : ℝ) ≤ y ↔ m ^ N ≤ 2 ^ (f + e * N) := fun m => le_two_rpow_iff hN m _
  have hE : expTwoFloor n f = (⌊y⌋₊ : Nat) := by
    unfold expTwoFloor
    rw [hNN, he]
    simp only [Int.toNat_natCast]
    congr 1
    refine greatestHolding_eq (t := ⌊y⌋₊) (fun m => ?_) _ 0 (Nat.zero_le _) ?_
    · rw [decide_eq_true_iff, ← hle, Nat.le_floor_iff hy0]
    · rw [zero_add, Nat.floor_lt hy0]
      have : ((f + e * N : Nat) : ℝ) / N < ((e + 1 : Nat) : ℝ) := by
        rw [div_lt_iff₀ (by exact_mod_cast hN)]
        exact_mod_cast (by nlinarith : f + e * N < (e + 1) * N)
      calc y < (2 : ℝ) ^ ((e + 1 : Nat) : ℝ) := Real.rpow_lt_rpow_of_exponent_lt (by norm_num) this
        _ = _ := by rw [Real.rpow_natCast]; push_cast; rfl
  rw [hE, hx]
  push_cast
  refine ⟨lt_of_le_of_ne (Nat.floor_le hy0) fun heq => ?_, Nat.lt_floor_add_one y⟩
  have hnd : ¬ N ∣ f + e * N := by
    rw [Nat.dvd_add_left (dvd_mul_left _ _)]
    intro hd
    exact absurd (Nat.le_of_dvd (Nat.pos_of_ne_zero h0) hd) (not_le.2 hf)
  refine pow_ne_two_pow hnd (le_antisymm ((hle _).1 heq.le) ?_)
  have h3 : y ^ N = (2 : ℝ) ^ (f + e * N) := by
    rw [hy, ← Real.rpow_natCast (_ ^ _) N, ← Real.rpow_mul (by norm_num), div_mul_cancel₀ _ (by exact_mod_cast hN.ne'), Real.rpow_natCast]
  have : ((2 ^ (f + e * N) : Nat) : ℝ) ≤ ((⌊y⌋₊ ^ N : Nat) : ℝ) := by
    push_cast
    rw [← h3, heq]
  exact_mod_cast this

/-! ### The cosine of a turn's fraction -/

/-- `compareCos` compares the cosine with the rational. -/
theorem compareCos_compares (c j : Nat) (q : Int) (d : Nat) (hj : j ≤ 2 ^ c) (hd : 0 < d) :
    (compareCos c j q d).Compares (Real.cos (Real.pi * j / 2 ^ c)) ((q : ℝ) / d) := by
  induction c generalizing j q d with
  | zero =>
    rw [compareCos]
    have hd' : (0 : ℝ) < d := by exact_mod_cast hd
    have h : Real.cos (Real.pi * j / 2 ^ 0) = ((if j = 0 then (d : Int) else -d : Int) : ℝ) / d := by
      rw [pow_zero] at hj
      rcases Nat.le_one_iff_eq_zero_or_eq_one.1 hj with rfl | rfl
      · simp [hd'.ne']
      · simp [hd'.ne']
    rw [h]
    have := cmp_compares (if j = 0 then (d : Int) else -d) q
    rw [← cmp_eq_compare] 
    revert this
    cases cmp (if j = 0 then (d : Int) else -d) q <;> simp only [Ordering.Compares] <;> intro this
    · rw [div_lt_div_iff_of_pos_right hd']; exact_mod_cast this
    · rw [this]
    · rw [gt_iff_lt, div_lt_div_iff_of_pos_right hd']; exact_mod_cast this
  | succ c ih =>
    have hd' : (0 : ℝ) < d := by exact_mod_cast hd
    set θ : ℝ := Real.pi * j / 2 ^ (c + 1) with hθ
    have hp : (0 : ℝ) < 2 ^ c := by positivity
    have hpi := Real.pi_pos
    have hθ0 : 0 ≤ θ := by positivity
    have hθ1 : θ ≤ Real.pi := by
      rw [hθ, div_le_iff₀ (by positivity)]
      have : (j : ℝ) ≤ 2 ^ (c + 1) := by exact_mod_cast hj
      nlinarith
    have hsq : Real.cos (2 * θ) = 2 * Real.cos θ ^ 2 - 1 := Real.cos_two_mul θ
    have hr : ((2 * q ^ 2 - d ^ 2 : Int) : ℝ) / ((d ^ 2 : Nat) : ℝ) = 2 * ((q : ℝ) / d) ^ 2 - 1 := by
      push_cast; field_simp
    set r : ℝ := (q : ℝ) / d with hrr
    have hrs : (q < 0 ↔ r < 0) := by
      rw [hrr, div_lt_iff₀ hd', zero_mul]; exact_mod_cast Iff.rfl
    rw [compareCos]
    split
    · rename_i h
      have hc0 : 0 ≤ Real.cos θ := by
        refine Real.cos_nonneg_of_neg_pi_div_two_le_of_le (by linarith) ?_
        rw [hθ, pow_succ, div_le_div_iff₀ (by positivity) (by norm_num)]
        have : (j : ℝ) ≤ 2 ^ c := by exact_mod_cast h
        nlinarith
      split
      · rename_i hq
        exact (hrs.1 hq).trans_le hc0
      · rename_i hq
        have hr0 : 0 ≤ r := not_lt.1 (mt hrs.2 hq)
        have := ih j (2 * q ^ 2 - d ^ 2) (d ^ 2) h (by positivity)
        rw [hr, show Real.pi * j / 2 ^ c = 2 * θ by rw [hθ, pow_succ]; field_simp, hsq] at this
        revert this
        cases compareCos c j (2 * q ^ 2 - d ^ 2) (d ^ 2) <;> simp only [Ordering.Compares] <;> intro this
        · exact lt_of_pow_lt_pow_left₀ 2 hr0 (by linarith)
        · exact (pow_left_inj₀ hc0 hr0 two_ne_zero).1 (by linarith)
        · exact lt_of_pow_lt_pow_left₀ 2 hc0 (by linarith)
    · rename_i h
      have hc0 : Real.cos θ < 0 := by
        refine Real.cos_neg_of_pi_div_two_lt_of_lt ?_ (by linarith)
        rw [hθ, pow_succ, div_lt_div_iff₀ (by norm_num) (by positivity)]
        have : (2 : ℝ) ^ c < j := by exact_mod_cast not_le.1 h
        nlinarith
      split
      · rename_i hq
        exact hc0.trans_le (not_lt.1 (mt hrs.2 (not_lt.2 hq)))
      · rename_i hq
        have hr0 : r < 0 := hrs.1 (not_le.1 hq)
        have := ih (2 ^ (c + 1) - j) (2 * q ^ 2 - d ^ 2) (d ^ 2) (by rw [pow_succ]; omega) (by positivity)
        rw [hr, show Real.pi * ((2 ^ (c + 1) - j : Nat) : ℝ) / 2 ^ c = 2 * Real.pi - 2 * θ by
          rw [hθ, Nat.cast_sub hj, pow_succ]; push_cast; rw [pow_succ]; field_simp, Real.cos_two_pi_sub, hsq] at this
        revert this
        cases compareCos c (2 ^ (c + 1) - j) (2 * q ^ 2 - d ^ 2) (d ^ 2) <;> simp only [Ordering.Compares, Ordering.swap] <;> intro this
        · have : (-Real.cos θ) < -r := lt_of_pow_lt_pow_left₀ 2 (by linarith) (by rw [neg_sq, neg_sq]; linarith)
          show r < Real.cos θ
          linarith
        · have : (-Real.cos θ) = -r := (pow_left_inj₀ (by linarith) (by linarith) two_ne_zero).1 (by rw [neg_sq, neg_sq]; linarith)
          linarith
        · have : -r < -Real.cos θ := lt_of_pow_lt_pow_left₀ 2 (by linarith) (by rw [neg_sq, neg_sq]; linarith)
          linarith

/-- Off the quarter turns the cosine of a dyadic fraction of the turn is irrational. -/
theorem irrational_cos_turn {b k : Nat} (h : 4 * k % 2 ^ b ≠ 0) : Irrational (Real.cos (2 * Real.pi * k / 2 ^ b)) := by
  rintro ⟨s, hs⟩
  obtain ⟨b, rfl⟩ : ∃ c, b = c + 3 := by
    refine ⟨b - 3, ?_⟩
    by_contra hb
    have hb : b = 0 ∨ b = 1 ∨ b = 2 := by omega
    rcases hb with rfl | rfl | rfl <;> omega
  have e : 2 * Real.pi * k / 2 ^ (b + 3) = (((k : ℚ) / 2 ^ (b + 2) : ℚ) : ℝ) * Real.pi := by
    push_cast; rw [pow_succ (2 : ℝ) (b + 2)]; field_simp
  rw [e] at hs
  have := niven_fract_angle_div_pi_eq ⟨s, hs.symm⟩
  have hcases : ∃ i : ℤ, 6 * ((k : ℚ) / 2 ^ (b + 2)) = i := by
    set r : ℚ := (k : ℚ) / 2 ^ (b + 2)
    have hf := Int.floor_add_fract r
    rcases this with h | h | h | h <;> rw [h] at hf
    · exact ⟨6 * ⌊r⌋, by push_cast; linarith⟩
    · exact ⟨6 * ⌊r⌋ + 2, by push_cast; linarith⟩
    · exact ⟨6 * ⌊r⌋ + 3, by push_cast; linarith⟩
    · exact ⟨6 * ⌊r⌋ + 4, by push_cast; linarith⟩
  obtain ⟨i, hi⟩ := hcases
  have h6 : (6 * k : ℤ) = i * 2 ^ (b + 2) := by
    have hp : (2 : ℚ) ^ (b + 2) ≠ 0 := by positivity
    field_simp at hi
    have : (6 * k : ℤ) = 2 ^ (b + 2) * i := by exact_mod_cast hi
    linarith
  have hd : (2 : ℤ) ^ (b + 1) ∣ 3 * k := ⟨i, by rw [pow_succ] at h6; linarith⟩
  have hd' : 2 ^ (b + 1) ∣ 3 * k := by exact_mod_cast hd
  have hk : 2 ^ (b + 1) ∣ k := (Nat.Coprime.pow_left _ (by norm_num)).dvd_of_dvd_mul_left hd'
  obtain ⟨j, rfl⟩ := hk
  exact h (by rw [show 4 * (2 ^ (b + 1) * j) = 2 ^ (b + 3) * j by ring]; exact Nat.mul_mod_right _ _)

/-- `turnFloor` is the floor it claims. -/
theorem turnFloor_spec {b k : Nat} (h : 4 * k % 2 ^ b ≠ 0) :
    let x := Real.cos (2 * Real.pi * k / 2 ^ b)
    (turnFloor b k : ℝ) < x * 2 ^ 151 ∧ x * 2 ^ 151 < turnFloor b k + 1 := by
  intro x
  have hirr := irrational_cos_turn h
  obtain ⟨c, rfl⟩ : ∃ c, b = c + 1 := ⟨b - 1, by
    by_contra hb
    obtain rfl : b = 0 := by omega
    omega⟩
  set j := k % 2 ^ (c + 1) with hj
  set i := if j ≤ 2 ^ c then j else 2 ^ (c + 1) - j with hi
  have hjlt : j < 2 ^ (c + 1) := Nat.mod_lt _ (by positivity)
  have hic : i ≤ 2 ^ c := by rw [hi]; split <;> rw [pow_succ] at * <;> omega
  have hx : x = Real.cos (Real.pi * i / 2 ^ c) := by
    have h1 : x = Real.cos (2 * Real.pi * j / 2 ^ (c + 1)) := by
      have hk := Nat.div_add_mod k (2 ^ (c + 1))
      rw [← hj] at hk
      have : 2 * Real.pi * k / 2 ^ (c + 1) = 2 * Real.pi * j / 2 ^ (c + 1) + (k / 2 ^ (c + 1) : Nat) * (2 * Real.pi) := by
        conv_lhs => rw [← hk]
        push_cast
        field_simp
        ring
      rw [show x = Real.cos (2 * Real.pi * k / 2 ^ (c + 1)) from rfl, this, Real.cos_add_nat_mul_two_pi]
    rw [h1, hi]
    split
    · congr 1; rw [pow_succ]; field_simp
    · rw [← Real.cos_two_pi_sub, Nat.cast_sub hjlt.le]
      congr 1
      push_cast
      rw [pow_succ]
      field_simp
  have hcmp : ∀ m : Nat, ((compareCos c i ((m : Int) - 2 ^ 151) (2 ^ 151) != .lt) = true ↔ (m : ℝ) ≤ x * 2 ^ 151 + 2 ^ 151) := by
    intro m
    have := compareCos_compares c i ((m : Int) - 2 ^ 151) (2 ^ 151) hic (by positivity)
    rw [← hx] at this
    have e : (((m : Int) - 2 ^ 151 : Int) : ℝ) / ((2 ^ 151 : Nat) : ℝ) = ((m : ℝ) - 2 ^ 151) / 2 ^ 151 := by
      rw [Int.cast_sub, Int.cast_natCast, Int.cast_pow, Int.cast_ofNat, Nat.cast_pow, Nat.cast_ofNat]
    rw [e] at this
    have hp : (0 : ℝ) < 2 ^ 151 := by positivity
    have iff : (m : ℝ) ≤ x * 2 ^ 151 + 2 ^ 151 ↔ ((m : ℝ) - 2 ^ 151) / 2 ^ 151 ≤ x := by
      rw [div_le_iff₀ hp, sub_le_iff_le_add]
    rw [iff]
    revert this
    cases compareCos c i ((m : Int) - 2 ^ 151) (2 ^ 151) <;> simp only [Ordering.Compares] <;> intro this
    · simpa using this
    · simpa using this.ge
    · simpa using this.le
  set y : ℝ := x * 2 ^ 151 + 2 ^ 151 with hy
  have hx1 := Real.neg_one_le_cos (2 * Real.pi * k / 2 ^ (c + 1))
  have hx2 := Real.cos_le_one (2 * Real.pi * k / 2 ^ (c + 1))
  have hy0 : 0 ≤ y := by rw [hy]; nlinarith
  have hE : turnFloor (c + 1) k = (⌊y⌋₊ : Nat) - 2 ^ 151 := by
    unfold turnFloor
    rw [Nat.add_sub_cancel, ← hj]
    dsimp only
    rw [← hi]
    congr 2
    refine greatestHolding_eq (t := ⌊y⌋₊) (fun m => ?_) _ 0 (Nat.zero_le _) ?_
    · rw [hcmp, Nat.le_floor_iff hy0]
    · rw [zero_add, Nat.floor_lt hy0]
      push_cast
      rw [hy]
      nlinarith
  have hne : (⌊y⌋₊ : ℝ) ≠ y := by
    intro heq
    refine hirr ⟨((⌊y⌋₊ : ℚ) - 2 ^ 151) / 2 ^ 151, ?_⟩
    push_cast
    rw [heq, hy, add_sub_cancel_right, mul_div_cancel_right₀ _ (by positivity)]
  have h1 := lt_of_le_of_ne (Nat.floor_le hy0) hne
  have h2 := Nat.lt_floor_add_one y
  rw [hE]
  push_cast
  constructor <;> linarith

/-! ### The sine and the cosine of a rational -/

/-- The search ends, at the floor of the number its approximations close in on. -/
theorem floorSearch_eq {value error : Nat → ℚ} {x : ℝ} {n : Nat}
    (hb : ∀ m, n ≤ m → |x - (value m : ℝ)| ≤ error m)
    (hl : Filter.Tendsto (fun m => (error m : ℝ)) Filter.atTop (nhds 0))
    (hx : ∀ z : ℤ, (z : ℝ) ≠ x * 2 ^ 151) :
    (floorSearch value error n : ℝ) < x * 2 ^ 151 ∧ x * 2 ^ 151 < floorSearch value error n + 1 := by
  have hx0 : ((⌊x * 2 ^ 151⌋ : ℤ) : ℝ) < x * 2 ^ 151 := lt_of_le_of_ne (Int.floor_le _) (hx _)
  have hx1 : x * 2 ^ 151 < ⌊x * 2 ^ 151⌋ + 1 := Int.lt_floor_add_one _
  set u := ⌊x * 2 ^ 151⌋ with hu
  have lower : ∀ m, n ≤ m → (((value m - error m) * 2 ^ 151 : ℚ) : ℝ) ≤ x * 2 ^ 151 := fun m hm => by
    have := abs_le.1 (hb m hm)
    push_cast
    exact mul_le_mul_of_nonneg_right (by linarith) (by positivity)
  have upper : ∀ m, n ≤ m → x * 2 ^ 151 ≤ (((value m + error m) * 2 ^ 151 : ℚ) : ℝ) := fun m hm => by
    have := abs_le.1 (hb m hm)
    push_cast
    exact mul_le_mul_of_nonneg_right (by linarith) (by positivity)
  -- an approximation that settles the floor settles it right
  have right : ∀ m, n ≤ m → ⌊(value m - error m) * 2 ^ 151⌋ = ⌊(value m + error m) * 2 ^ 151⌋ →
      ⌊(value m - error m) * 2 ^ 151⌋ = u := fun m hm he => by
    refine le_antisymm ?_ ?_
    · rw [hu, Int.le_floor]
      have h1 : ((⌊(value m - error m) * 2 ^ 151⌋ : ℤ) : ℚ) ≤ (value m - error m) * 2 ^ 151 := Int.floor_le _
      exact le_trans (by exact_mod_cast h1) (lower m hm)
    · rw [he, Int.le_floor]
      have : ((u : ℤ) : ℝ) ≤ (((value m + error m) * 2 ^ 151 : ℚ) : ℝ) := hx0.le.trans (upper m hm)
      exact_mod_cast this
  -- and one does
  have ends : ∃ m, n ≤ m ∧ ⌊(value m - error m) * 2 ^ 151⌋ = ⌊(value m + error m) * 2 ^ 151⌋ := by
    set δ := min (x * 2 ^ 151 - u) (u + 1 - x * 2 ^ 151) with hδ
    have hδ0 : 0 < δ := lt_min (by linarith) (by linarith)
    obtain ⟨M, hM⟩ := Filter.eventually_atTop.1 (hl.eventually_lt_const (show (0 : ℝ) < δ / (2 * 2 ^ 151) by positivity))
    refine ⟨max n M, le_max_left _ _, ?_⟩
    have he := hM _ (le_max_right n M)
    rw [lt_div_iff₀ (by positivity)] at he
    have hd := abs_le.1 (hb _ (le_max_left n M))
    have h1 := min_le_left (x * 2 ^ 151 - u) (u + 1 - x * 2 ^ 151)
    have h2 := min_le_right (x * 2 ^ 151 - u) (u + 1 - x * 2 ^ 151)
    rw [← hδ] at h1 h2
    have key : ∀ y : ℚ, (u : ℝ) ≤ y → (y : ℝ) < u + 1 → ⌊y⌋ = u := fun y a b => by
      rw [Int.floor_eq_iff]
      exact ⟨by exact_mod_cast a, by exact_mod_cast b⟩
    rw [key, key] <;> push_cast <;> nlinarith
  obtain ⟨m, hm, hs⟩ := ends
  suffices h : floorSearch value error n = u by rw [h]; exact ⟨hx0, hx1⟩
  have walk : ∀ k i, n ≤ i → m = i + k → floorSearch value error i = u := by
    intro k
    induction k with
    | zero =>
      intro i hi hk
      obtain rfl : m = i := hk
      rw [floorSearch, if_pos hs]
      exact right m hm hs
    | succ k ih =>
      intro i hi hk
      rw [floorSearch]
      split
      · exact right i hi ‹_›
      · exact ih (i + 1) (by omega) (by omega)
  exact walk (m - n) n (le_refl n) (by omega)

/-- `cisTerm` is the term of the exponential series at the imaginary argument. -/
theorem cisTerm_eq (x : ℚ) (m : Nat) :
    (⟨((cisTerm x m).1 : ℝ), ((cisTerm x m).2 : ℝ)⟩ : ℂ) = ((x : ℝ) * Complex.I) ^ m / m.factorial := by
  induction m with
  | zero => apply Complex.ext <;> simp [cisTerm]
  | succ m ih =>
    have h : (((x : ℝ) : ℂ) * Complex.I) ^ (m + 1) / ((m + 1).factorial : ℂ) =
        ((x : ℝ) * Complex.I) ^ m / m.factorial * ((x : ℝ) * Complex.I) / ((m + 1 : ℝ) : ℂ) := by
      rw [pow_succ, Nat.factorial_succ]
      have : ((m : ℂ) + 1) ≠ 0 := by exact_mod_cast Nat.succ_ne_zero m
      push_cast
      field_simp
    rw [h, ← ih, Complex.div_ofReal, cisTerm]
    apply Complex.ext <;> push_cast <;> simp
    ring

theorem cisSum_eq (x : ℚ) (n : Nat) :
    (⟨((cisSum x n).1 : ℝ), ((cisSum x n).2 : ℝ)⟩ : ℂ) = ∑ m ∈ Finset.range n, ((x : ℝ) * Complex.I) ^ m / m.factorial := by
  induction n with
  | zero => apply Complex.ext <;> simp [cisSum]
  | succ n ih =>
    rw [Finset.sum_range_succ, ← ih, ← cisTerm_eq, cisSum]
    apply Complex.ext <;> push_cast <;> simp

/-- The partial sums are within `cisError` of the cosine and the sine, from `cisStart` on. -/
theorem cisSum_near (x : ℚ) (n : Nat) (hn : cisStart x ≤ n) :
    |Real.cos x - ((cisSum x n).1 : ℝ)| ≤ cisError x n ∧ |Real.sin x - ((cisSum x n).2 : ℝ)| ≤ cisError x n := by
  have hnorm : ‖((x : ℝ) : ℂ) * Complex.I‖ = |(x : ℝ)| := by
    rw [norm_mul, Complex.norm_I, mul_one, Complex.norm_real, Real.norm_eq_abs]
  have hs : ‖((x : ℝ) : ℂ) * Complex.I‖ / n.succ ≤ 1 / 2 := by
    rw [hnorm, div_le_iff₀ (by positivity)]
    have h1 : 2 * |x| ≤ (n : ℚ) := Nat.ceil_le.1 hn
    have h2 : 2 * |(x : ℝ)| ≤ n := by exact_mod_cast h1
    push_cast
    linarith
  have hb := Complex.exp_bound' hs
  rw [← cisSum_eq, hnorm] at hb
  have hc : ∀ y : ℝ, Complex.exp ((y : ℂ) * Complex.I) = ⟨Real.cos y, Real.sin y⟩ := fun y => by
    rw [Complex.exp_mul_I]
    apply Complex.ext <;> simp [← Complex.ofReal_cos, ← Complex.ofReal_sin]
  rw [hc] at hb
  have he : |(x : ℝ)| ^ n / n.factorial * 2 = (cisError x n : ℝ) := by
    unfold cisError
    push_cast
    ring
  rw [he] at hb
  exact ⟨(by simpa using (Complex.abs_re_le_norm _).trans hb), (by simpa using (Complex.abs_im_le_norm _).trans hb)⟩

theorem cisError_tendsto (x : ℚ) : Filter.Tendsto (fun n => (cisError x n : ℝ)) Filter.atTop (nhds 0) := by
  have := (FloorSemiring.tendsto_pow_div_factorial_atTop |(x : ℝ)|).const_mul 2
  rw [mul_zero] at this
  refine this.congr fun n => ?_
  unfold cisError
  push_cast
  ring

/-- No multiple of 2^-151 is an irrational number. -/
theorem int_ne_of_irrational {x : ℝ} (h : Irrational x) (z : ℤ) : (z : ℝ) ≠ x * 2 ^ 151 := fun hz =>
  h ⟨z / 2 ^ 151, by push_cast; rw [hz, mul_div_cancel_right₀ _ (by positivity)]⟩

/-- `cosFloor` is the floor it claims. -/
theorem cosFloor_spec {x : ℚ} (hx : x ≠ 0) :
    (cosFloor x : ℝ) < Real.cos x * 2 ^ 151 ∧ Real.cos x * 2 ^ 151 < cosFloor x + 1 :=
  floorSearch_eq (fun n hn => (cisSum_near x n hn).1) (cisError_tendsto x) (int_ne_of_irrational (irrational_cos_rat hx))

/-- `sinFloor` is the floor it claims. -/
theorem sinFloor_spec {x : ℚ} (hx : x ≠ 0) :
    (sinFloor x : ℝ) < Real.sin x * 2 ^ 151 ∧ Real.sin x * 2 ^ 151 < sinFloor x + 1 :=
  floorSearch_eq (fun n hn => (cisSum_near x n hn).2) (cisError_tendsto x) (int_ne_of_irrational (irrational_sin_rat hx))

/-! ### Rounding an enclosed number -/

/-- `roundEnclosed` rounds the number enclosed, whether the enclosure settles it or its exact floor does. -/
theorem roundEnclosed_roundsTo {lo hi : Int} {d : Nat} {floor : Unit → Int} {x : ℝ} (hd : 0 < d)
    (hlo : (lo : ℝ) ≤ x * d) (hhi : x * d ≤ hi) (hf : (floor () : ℝ) < x * 2 ^ 151 ∧ x * 2 ^ 151 < floor () + 1) :
    RoundsTo x (roundEnclosed lo hi d floor) := by
  unfold roundEnclosed
  have hd' : (0 : ℝ) < d := by exact_mod_cast hd
  split
  · rename_i h
    have round : ∀ n : Int, RoundsTo ((n : ℝ) / d) (f32OfRat n d) := fun n => by
      by_cases hn : n = 0
      · rw [hn, f32OfRat, if_pos rfl, Int.cast_zero, zero_div]; exact roundsTo_zero
      · exact roundsTo_f32OfRat hn hd
    exact (round lo).between (h ▸ round hi) (by rwa [div_le_iff₀ hd']) (by rwa [le_div_iff₀ hd'])
  · exact roundsTo_roundFloor hf

theorem roundEnc_roundsTo {a : Enclosure} {floor : Unit → Int} {x : ℝ} (ha : a.Holds x)
    (hf : (floor () : ℝ) < x * 2 ^ 151 ∧ x * 2 ^ 151 < floor () + 1) : RoundsTo x (roundEnc a floor) :=
  roundEnclosed_roundsTo (by exact_mod_cast encScale_pos) ha.1 ha.2 hf

theorem roundEncNeg_roundsTo {a : Enclosure} {floor : Unit → Int} {x : ℝ} (ha : a.Holds x)
    (hf : (floor () : ℝ) < -x * 2 ^ 151 ∧ -x * 2 ^ 151 < floor () + 1) : RoundsTo (-x) (roundEncNeg a floor) := by
  refine roundEnclosed_roundsTo (by exact_mod_cast encScale_pos) ?_ ?_ hf
  · rw [Int.cast_neg, neg_mul]; exact neg_le_neg ha.2
  · rw [Int.cast_neg, neg_mul]; exact neg_le_neg ha.1

end Sys2Proof.Machine
end

