-- ==== Sys2Proof/Laws/Memory.lean ====
section
/-! SUPPORT. The laws of the sparse stores and of DMEM: a read after a write, and the canonical form kept
by every operation. -/

namespace Sys2Proof.Machine

/-! ### Sparse stores -/

section Stores

variable {β : Type}

@[simp] theorem findKey_nil (a : Nat) : findKey ([] : List (Nat × β)) a = none := rfl

/-- A key just written reads as the value written; every other key reads as before. -/
theorem findKey_putKey (m : List (Nat × β)) (a : Nat) (b : β) (x : Nat) :
    findKey (putKey m a b) x = if x = a then some b else findKey m x := by
  induction m with
  | nil => simp [putKey, findKey]
  | cons kv rest ih =>
    obtain ⟨k, v⟩ := kv
    unfold putKey
    split
    · simp [findKey]
    · split
      · subst_vars
        by_cases hx : x = k <;> simp [findKey, hx]
      · by_cases hx : x = k
        · subst hx
          have : ¬ x = a := by omega
          simp [findKey, this]
        · simp [findKey, hx, ih]

@[simp] theorem findKey_putKey_same (m : List (Nat × β)) (a : Nat) (b : β) : findKey (putKey m a b) a = some b := by
  simp [findKey_putKey]

theorem findKey_putKey_other (m : List (Nat × β)) {a x : Nat} (b : β) (h : x ≠ a) :
    findKey (putKey m a b) x = findKey m x := by
  simp [findKey_putKey, h]

theorem keysAbove_mono {m : List (Nat × β)} {a c : Nat} (h : keysAbove c m = true) (hac : a ≤ c) :
    keysAbove a m = true := by
  induction m with
  | nil => rfl
  | cons kv rest ih =>
    simp only [keysAbove, Bool.and_eq_true, decide_eq_true_eq] at h ⊢
    exact ⟨by omega, ih h.2⟩

theorem keysAbove_putKey {m : List (Nat × β)} {c a : Nat} {b : β} (h : keysAbove c m = true) (hca : c < a) :
    keysAbove c (putKey m a b) = true := by
  induction m with
  | nil => simp [putKey, keysAbove, hca]
  | cons kv rest ih =>
    obtain ⟨k, v⟩ := kv
    simp only [keysAbove, Bool.and_eq_true, decide_eq_true_eq] at h
    unfold putKey
    split
    · simp [keysAbove, hca, h.1, h.2]
    · split
      · simp [keysAbove, hca, h.2]
      · simp [keysAbove, h.1, ih h.2]

/-- A write keeps the canonical form. -/
theorem keysRise_putKey {m : List (Nat × β)} {a : Nat} {b : β} (h : keysRise m = true) :
    keysRise (putKey m a b) = true := by
  induction m with
  | nil => rfl
  | cons kv rest ih =>
    obtain ⟨k, v⟩ := kv
    simp only [keysRise, Bool.and_eq_true] at h
    unfold putKey
    split
    · rename_i hak
      simp [keysRise, keysAbove, hak, h.1, h.2, keysAbove_mono h.1 (Nat.le_of_lt hak)]
    · split
      · subst_vars
        simp [keysRise, h.1, h.2]
      · have hka : k < a := by omega
        simp [keysRise, keysAbove_putKey h.1 hka, ih h.2]

theorem findKey_of_keysAbove {m : List (Nat × β)} {c a : Nat} (h : keysAbove c m = true) (hac : a ≤ c) :
    findKey m a = none := by
  induction m with
  | nil => rfl
  | cons kv rest ih =>
    obtain ⟨k, v⟩ := kv
    simp only [keysAbove, Bool.and_eq_true, decide_eq_true_eq] at h
    have hne : a ≠ k := by omega
    simp [findKey, hne, ih h.2]

end Stores

/-! ### Bytes of a word -/

/-- A word is its four bytes, the least significant first. -/
theorem wordOfBytes_byteOf (v : Word) : wordOfBytes (byteOf v 0) (byteOf v 1) (byteOf v 2) (byteOf v 3) = v := by
  unfold wordOfBytes byteOf
  ext i hi
  simp only [BitVec.getElem_append, BitVec.getElem_extractLsb']
  split
  · simp_all
  · split
    · rename_i h1 h2
      have e : 8 * 1 + (i - 8) = i := by omega
      simp [e, ← BitVec.getLsbD_eq_getElem]
    · split
      · rename_i h1 h2 h3
        have e : 8 * 2 + (i - 8 - 8) = i := by omega
        simp [e, ← BitVec.getLsbD_eq_getElem]
      · rename_i h1 h2 h3
        have e : 8 * 3 + (i - 8 - 8 - 8) = i := by omega
        simp [e, ← BitVec.getLsbD_eq_getElem]

/-! ### DMEM bytes and words -/

theorem Memory.readByte_writeByte (m : Memory) (a : Nat) (b : Byte) (x : Nat) :
    Memory.readByte (m.writeByte a b) x = if x = a then some b else Memory.readByte m x :=
  findKey_putKey m a b x

/-- A word write stores byte `k` of the word at `a + k` and leaves every other byte alone. -/
theorem Memory.readByte_writeWord (m : Memory) (a : Nat) (v : Word) (x : Nat) :
    Memory.readByte (m.writeWord a v) x =
      if a ≤ x ∧ x < a + 4 then some (byteOf v (x - a)) else Memory.readByte m x := by
  simp only [Memory.writeWord, Memory.readByte_writeByte]
  by_cases h3 : x = a + 3
  · subst h3; simp
  by_cases h2 : x = a + 2
  · subst h2; simp
  by_cases h1 : x = a + 1
  · subst h1; simp
  by_cases h0 : x = a
  · subst h0; simp
  have : ¬ (a ≤ x ∧ x < a + 4) := by omega
  simp [h0, h1, h2, h3, this]

/-- A word just written reads as the word written. -/
@[simp] theorem Memory.readWord_writeWord_same (m : Memory) (a : Nat) (v : Word) :
    Memory.readWord (m.writeWord a v) a = some v := by
  simp [Memory.readWord, Memory.readByte_writeWord, wordOfBytes_byteOf]

/-- A word four or more bytes away reads as before. -/
theorem Memory.readWord_writeWord_other (m : Memory) {a x : Nat} (v : Word) (h : x + 4 ≤ a ∨ a + 4 ≤ x) :
    Memory.readWord (m.writeWord a v) x = Memory.readWord m x := by
  have h0 : ¬ (a ≤ x ∧ x < a + 4) := by omega
  have h1 : ¬ (a ≤ x + 1 ∧ x + 1 < a + 4) := by omega
  have h2 : ¬ (a ≤ x + 2 ∧ x + 2 < a + 4) := by omega
  have h3 : ¬ (a ≤ x + 3 ∧ x + 3 < a + 4) := by omega
  simp only [Memory.readWord, Memory.readByte_writeWord, if_neg h0, if_neg h1, if_neg h2, if_neg h3]

/-! ### DMEM elements -/

/-- The bytes of element `i`. -/
theorem Memory.readByte_storeElement (m : Memory) (i : Nat) (x : Complex32) {a : Nat}
    (h : a < reOffset i ∨ reOffset i + 8 ≤ a) :
    Memory.readByte (m.storeElement i x) a = Memory.readByte m a := by
  unfold reOffset at h
  simp only [Memory.storeElement, Memory.readByte_writeWord, reOffset, imOffset]
  rw [if_neg (by omega), if_neg (by omega)]

theorem Memory.readWord_storeElement_re (m : Memory) (i : Nat) (x : Complex32) :
    Memory.readWord (m.storeElement i x) (reOffset i) = some x.re := by
  unfold Memory.storeElement
  rw [Memory.readWord_writeWord_other _ _ (by unfold reOffset imOffset; omega)]
  simp

theorem Memory.readWord_storeElement_im (m : Memory) (i : Nat) (x : Complex32) :
    Memory.readWord (m.storeElement i x) (imOffset i) = some x.im := by
  simp [Memory.storeElement]

/-- A word outside element `i` reads as before. -/
theorem Memory.readWord_storeElement_other (m : Memory) (i : Nat) (x : Complex32) {a : Nat}
    (h : a + 4 ≤ reOffset i ∨ reOffset i + 8 ≤ a) :
    Memory.readWord (m.storeElement i x) a = Memory.readWord m a := by
  unfold reOffset at h
  unfold Memory.storeElement
  rw [Memory.readWord_writeWord_other _ _ (by unfold imOffset; omega),
    Memory.readWord_writeWord_other _ _ (by unfold reOffset; omega)]

/-- Storing elements `i` on leaves every byte outside them alone. -/
theorem Memory.readByte_storeElements (ys : List Complex32) (m : Memory) (i : Nat) {a : Nat}
    (h : a < reOffset i ∨ reOffset (i + ys.length) ≤ a) :
    Memory.readByte (Memory.storeElements m i ys) a = Memory.readByte m a := by
  induction ys generalizing m i with
  | nil => rfl
  | cons y ys ih =>
    unfold reOffset at h
    simp only [List.length_cons] at h
    rw [Memory.storeElements, ih _ _ (by unfold reOffset; omega),
      Memory.readByte_storeElement _ _ _ (by unfold reOffset; omega)]

/-- A word outside the elements stored reads as before. -/
theorem Memory.readWord_storeElements_other (ys : List Complex32) (m : Memory) (i : Nat) {a : Nat}
    (h : a + 4 ≤ reOffset i ∨ reOffset (i + ys.length) ≤ a) :
    Memory.readWord (Memory.storeElements m i ys) a = Memory.readWord m a := by
  induction ys generalizing m i with
  | nil => rfl
  | cons y ys ih =>
    unfold reOffset at h
    simp only [List.length_cons] at h
    rw [Memory.storeElements, ih _ _ (by unfold reOffset; omega),
      Memory.readWord_storeElement_other _ _ _ (by unfold reOffset; omega)]

/-- Element `i + k` reads as the `k`-th element stored. -/
theorem Memory.readWord_storeElements (ys : List Complex32) (m : Memory) (i k : Nat) (hk : k < ys.length) :
    Memory.readWord (Memory.storeElements m i ys) (reOffset (i + k)) = some ys[k].re ∧
      Memory.readWord (Memory.storeElements m i ys) (imOffset (i + k)) = some ys[k].im := by
  induction ys generalizing m i k with
  | nil => simp at hk
  | cons y ys ih =>
    cases k with
    | zero =>
      simp only [Memory.storeElements, Nat.add_zero, List.getElem_cons_zero]
      rw [Memory.readWord_storeElements_other _ _ _ (by unfold reOffset; omega),
        Memory.readWord_storeElements_other _ _ _ (by unfold reOffset imOffset; omega)]
      exact ⟨Memory.readWord_storeElement_re _ _ _, Memory.readWord_storeElement_im _ _ _⟩
    | succ k =>
      have e : i + (k + 1) = i + 1 + k := by omega
      simp only [Memory.storeElements, List.getElem_cons_succ, e]
      exact ih _ _ _ (by simpa using hk)

/-- A readable element reads as the pair of its words. -/
theorem Memory.loadElement_ok (m : Memory) (i : Nat) (x : Complex32) :
    m.loadElement i = .ok x ↔
      m.readWord (reOffset i) = some x.re ∧ m.readWord (imOffset i) = some x.im := by
  unfold Memory.loadElement Memory.loadWord
  obtain ⟨re, im⟩ := x
  cases h1 : m.readWord (reOffset i) <;> cases h2 : m.readWord (imOffset i) <;> simp

/-! ### The canonical form of DMEM -/

theorem Memory.wf_nil : Memory.wf [] = true := rfl

theorem Memory.wf_writeByte {m : Memory} (h : m.wf = true) (a : Nat) (b : Byte) : (m.writeByte a b).wf = true :=
  keysRise_putKey h

theorem Memory.wf_writeWord {m : Memory} (h : m.wf = true) (a : Nat) (v : Word) : (m.writeWord a v).wf = true :=
  Memory.wf_writeByte (Memory.wf_writeByte (Memory.wf_writeByte (Memory.wf_writeByte h _ _) _ _) _ _) _ _

theorem Memory.wf_storeElement {m : Memory} (h : m.wf = true) (i : Nat) (x : Complex32) :
    (m.storeElement i x).wf = true :=
  Memory.wf_writeWord (Memory.wf_writeWord h _ _) _ _

/-- Every memory operation keeps the canonical form. -/
theorem Memory.wf_storeElements (ys : List Complex32) {m : Memory} (h : m.wf = true) (i : Nat) :
    (Memory.storeElements m i ys).wf = true := by
  induction ys generalizing m i with
  | nil => exact h
  | cons y ys ih => exact ih (Memory.wf_storeElement h i y) _

theorem State.reset_dmem_wf (p : Params) : Memory.wf (State.resetWith p).dmem = true := rfl

/-! ### Envelope frames -/

theorem frameGet_eq (f : Vector Word 8) (c : Nat) : frameGet f c = if h : c < 8 then f[c] else 0 := by
  unfold frameGet
  by_cases h : c < 8
  · simp [h, List.getD_eq_getElem?_getD]
  · simp [h, List.getD_eq_getElem?_getD]

/-- A channel just written reads as the sample written, every other channel as before. -/
theorem frameGet_frameSet (f : Vector Word 8) (c : Nat) (v : Word) (d : Nat) :
    frameGet (frameSet f c v) d = if d = c ∧ c < 8 then v else frameGet f d := by
  simp only [frameGet_eq, frameSet]
  by_cases h : d < 8
  · by_cases hc : c = d
    · subst hc; simp [h]
    · have : ¬ d = c := fun e => hc e.symm
      simp [h, hc, this]
  · by_cases hc : d = c
    · subst hc; simp [h]
    · simp [h, hc]

/-- The channels below `n` are filled, the others kept. -/
theorem frameGet_frameFill (f : Vector Word 8) (n : Nat) (g : Nat → Word) (d : Nat) (hn : n ≤ 8) :
    frameGet (frameFill f n g) d = if d < n then g d else frameGet f d := by
  unfold frameFill
  induction n with
  | zero => simp
  | succ n ih =>
    rw [List.range_succ, List.foldl_append, List.foldl_cons, List.foldl_nil, frameGet_frameSet,
      ih (by omega)]
    by_cases h : d = n
    · subst h
      have : d < 8 := by omega
      simp [this]
    · have e : d < n + 1 ↔ d < n := by omega
      simp [h, e]

end Sys2Proof.Machine
end

