-- ==== Sys2Proof/Laws/Ops.lean ====
section
/-! SUPPORT. One lemma for each shared operation, saying once everything it can do: the operand forms,
saturation and truncated division, the ring buffer's slots, the envelope's schedule, the transform
commands, and the service of an event at the bus. -/

namespace Sys2Proof.Machine

open Host

/-! ### Operands and integers -/

/-- A `t64` operand is the high register's value times 2^32 plus the low one's. -/
theorem operandT64_toNat (lo hi : Word) : (operandT64 lo hi).toNat = lo.toNat + 2 ^ 32 * hi.toNat := by
  unfold operandT64
  rw [BitVec.toNat_append, Nat.shiftLeft_eq, Nat.mul_comm, ← Nat.two_pow_add_eq_or_of_lt lo.isLt, Nat.add_comm]

/-- Saturation reads back as the clamped integer. -/
theorem saturate32_toInt (v : Int) : (saturate32 v).toInt = min (max v (-(2 ^ 31))) (2 ^ 31 - 1) := by
  unfold saturate32 u32OfInt clampInt
  rw [BitVec.toInt_ofInt]
  apply Int.bmod_eq_of_le <;> omega

/-- A truncated quotient lies between 0 and the exact one. -/
theorem truncDiv_bounds (a : Int) {d : Nat} (hd : 1 ≤ d) :
    (0 ≤ a → 0 ≤ truncDiv a d ∧ (d : Int) * truncDiv a d ≤ a) ∧
      (a ≤ 0 → truncDiv a d ≤ 0 ∧ a ≤ (d : Int) * truncDiv a d) := by
  unfold truncDiv
  constructor
  · intro h
    rw [Int.tdiv_eq_ediv_of_nonneg h]
    exact ⟨Int.ediv_nonneg h (by omega), Int.mul_ediv_self_le (by omega)⟩
  · intro h
    have e : a.tdiv d = -((-a) / d) := by
      rw [← Int.tdiv_eq_ediv_of_nonneg (by omega : 0 ≤ -a), Int.neg_tdiv, neg_neg]
    have h1 : 0 ≤ (-a) / (d : Int) := Int.ediv_nonneg (by omega) (by omega)
    have h2 : (d : Int) * ((-a) / d) ≤ -a := Int.mul_ediv_self_le (by omega)
    rw [e, mul_neg]
    omega

/-! ### The ring buffer -/

theorem RingBuffer.inWindow_iff (r : RingBuffer) (t : Time) :
    r.inWindow t = true ↔ r.startT.toNat ≤ t.toNat ∧ t.toNat < r.endT.toNat := by
  simp [RingBuffer.inWindow]

/-- A slot just written reads as the value written, every other slot as before. -/
theorem RingBuffer.readSlot_writeSlot (r : RingBuffer) (j : Nat) (v : Word) (k : Nat) :
    (r.writeSlot j v).readSlot k = if k = j then v else r.readSlot k := by
  simp only [RingBuffer.readSlot, RingBuffer.writeSlot, findKey_putKey]
  split <;> rfl

/-- Every slot after a push. -/
theorem RingBuffer.readSlot_push (r : RingBuffer) (v : Word) (k : Nat) :
    (r.push v).readSlot k = if k = r.slot r.endT then v else r.readSlot k :=
  r.readSlot_writeSlot _ _ _

/-! ### The envelope -/

/-- Scheduled `k + 1` ticks on is scheduled `k` ticks on from the next tick. -/
theorem scheduleAt_succ (t : Time) (k : Nat) : scheduleAt t (k + 1) = scheduleAt (t + 1) k := by
  apply BitVec.eq_of_toNat_eq
  simp [scheduleAt, BitVec.toNat_add]
  omega

/-- Within one wrap of TIME only the schedule of this very tick equals TIME. -/
theorem eq_scheduleAt_iff (t : Time) {k : Nat} (hk : k < 2 ^ 64) : t = scheduleAt t k ↔ k = 0 := by
  unfold scheduleAt
  rw [← BitVec.toNat_inj, BitVec.toNat_ofNat]
  have := t.isLt
  omega

/-- State entry writes the state, DELTA, SCHED and next_t alone. -/
theorem Envelope.enter_spec (e : Envelope) (p : EnvPhase) (t : Time) :
    e.enter p t = { e with
      phase := p
      delta := (e.enter p t).delta
      nextT := (e.enter p t).nextT
      sched := (e.ramp p).isSome } := by
  unfold Envelope.enter
  cases e.ramp p <;> rfl

/-! ### The transform commands -/

@[simp] theorem butterflyAt_length (tw : List Complex32) (half stride g k : Nat) (wb : List Complex32) :
    (butterflyAt tw half stride g k wb).length = wb.length := by
  simp [butterflyAt]

@[simp] theorem groupPass_length (tw : List Complex32) (half stride g : Nat) (wb : List Complex32) :
    (groupPass tw half stride g wb).length = wb.length := by
  unfold groupPass
  induction List.range half generalizing wb with
  | nil => rfl
  | cons k ks ih => rw [List.foldl_cons, ih, butterflyAt_length]

@[simp] theorem stagePass_length (tw : List Complex32) (p n : Nat) (wb : List Complex32) :
    (stagePass tw p n wb).length = wb.length := by
  unfold stagePass
  induction List.range (p / n) generalizing wb with
  | nil => rfl
  | cons q qs ih => rw [List.foldl_cons, ih, groupPass_length]

/-- The network keeps the length of the work buffer. -/
@[simp] theorem network_length (tw : List Complex32) (b : Nat) (wb : List Complex32) :
    (network tw b wb).length = wb.length := by
  unfold network
  induction List.range b generalizing wb with
  | nil => rfl
  | cons j js ih => rw [List.foldl_cons, ih, stagePass_length]

/-- The load answers the list of the table's points, when each of them is readable. -/
theorem loadInput_ok (m : Memory) (src lr : Nat) (inverse : Bool) (js : List Nat) (ys : List Complex32) :
    loadInput m src lr inverse js = .ok ys ↔
      List.Forall₂ (fun j y => loadPoint m src lr inverse j = .ok y) js ys := by
  induction js generalizing ys with
  | nil => cases ys <;> simp [loadInput]
  | cons j js ih =>
    cases ys with
    | nil =>
      simp only [loadInput]
      cases loadPoint m src lr inverse j with
      | error f => simp
      | ok x => cases loadInput m src lr inverse js <;> simp
    | cons y ys =>
      simp only [loadInput, List.forall₂_cons]
      cases loadPoint m src lr inverse j with
      | error f => simp
      | ok x =>
        rw [← ih ys]
        cases loadInput m src lr inverse js <;> simp

theorem loadInput_length {m : Memory} {src lr : Nat} {inverse : Bool} {js : List Nat} {ys : List Complex32}
    (h : loadInput m src lr inverse js = .ok ys) : ys.length = js.length :=
  ((loadInput_ok m src lr inverse js ys).1 h).length_eq.symm

/-- What a transform command can do when it goes on: report the first check that fails, or write WB and the
output elements and report OK. -/
theorem transform_next {inverse : Bool} {out : FftContext → Complex32 → Complex32} {s t : State}
    (h : transform inverse out s = .next t) :
    (∃ code, transformChecks s.params s.fft s.transformOperands = .error code ∧ t = s.report code) ∨
      ∃ c ys, transformChecks s.params s.fft s.transformOperands = .ok c ∧
        transformCore s.dmem c s.transformOperands.src s.transformOperands.len inverse = .ok ys ∧
        t = (s.writeOutput s.transformOperands.dst ys (ys.map (out c))).report .ok := by
  unfold transform at h
  dsimp only at h
  split at h
  · rename_i code hc
    exact .inl ⟨code, hc, (Outcome.next.inj h).symm⟩
  · rename_i c hc
    split at h
    · cases h
    · rename_i ys hy
      exact .inr ⟨c, ys, hc, hy, (Outcome.next.inj h).symm⟩

/-- The checks of a transform that may run all hold. -/
theorem transformChecks_ok {p : Params} {u : FftUnit} {o : TransformOperands} {c : FftContext}
    (h : transformChecks p u o = .ok c) :
    u.context = some c ∧ c.size ≤ o.outLen ∧ o.src + min o.len c.size ≤ p.dmemSize ∧
      o.dst + c.size ≤ p.dmemSize := by
  unfold transformChecks at h
  cases hu : u.context with
  | none => simp [hu] at h
  | some d =>
    simp only [hu] at h
    split at h
    · cases h
    · split at h
      · cases h
      · split at h
        · cases h
        · cases h
          exact ⟨rfl, by omega, by omega, by omega⟩

/-- A check that fails reports OUT_TOO_SHORT, NO_CONTEXT or RANGE. -/
theorem transformChecks_error {p : Params} {u : FftUnit} {o : TransformOperands} {code : ResultCode}
    (h : transformChecks p u o = .error code) :
    code = .noContext ∨ code = .outTooShort ∨ code = .range := by
  unfold transformChecks at h
  cases hu : u.context with
  | none => simp_all
  | some d =>
    simp only [hu] at h
    repeat' split at h
    all_goals simp_all

/-! ### The bus -/

/-- The register map read as its rows. -/
theorem findKey_some_mem {β : Type} {m : List (Nat × β)} {a : Nat} {b : β} (h : findKey m a = some b) : (a, b) ∈ m := by
  induction m with
  | nil => cases h
  | cons kv rest ih =>
    obtain ⟨k, v⟩ := kv
    unfold findKey at h
    split at h
    · rename_i hk
      cases h
      exact hk ▸ List.mem_cons_self
    · exact List.mem_cons_of_mem _ (ih h)

/-- What an aligned offset can name. -/
theorem regAt_cases {p : Params} {a : Nat} {r : Reg} (h : regAt p a = some r) :
    (∃ c, r = .envIn c ∧ c = (a - 0x340) / 4 ∧ 0x340 ≤ a ∧ a < 0x340 + 4 * p.envNch) ∨
      (∃ c, r = .envOut c ∧ c = (a - 0x360) / 4 ∧ 0x360 ≤ a ∧ a < 0x360 + 4 * p.envNch) ∨
      (∃ i, (r = .dmemRe i ∧ (a - dmemBase) % 8 = 0 ∨ r = .dmemIm i ∧ (a - dmemBase) % 8 ≠ 0) ∧
        i = (a - dmemBase) / 8 ∧ dmemBase ≤ a ∧ a < dmemBase + 8 * p.dmemSize) ∨
      (a, r) ∈ registerMap := by
  unfold regAt at h
  split at h
  · rename_i hc
    cases h
    exact .inl ⟨_, rfl, rfl, hc⟩
  · split at h
    · rename_i hc
      cases h
      exact .inr (.inl ⟨_, rfl, rfl, hc⟩)
    · split at h
      · rename_i hc
        split at h
        · rename_i h8
          cases h
          exact .inr (.inr (.inl ⟨_, .inl ⟨rfl, h8⟩, rfl, hc⟩))
        · rename_i h8
          cases h
          exact .inr (.inr (.inl ⟨_, .inr ⟨rfl, h8⟩, rfl, hc⟩))
      · exact .inr (.inr (.inr (findKey_some_mem h)))

/-- Offset 0 is CMD under any parameters. -/
@[simp] theorem accessTarget_cmd (p : Params) : accessTarget p 0 4 = some .cmd := by
  simp [accessTarget, regAt, dmemBase, registerMap, findKey]

/-- A step serves the event at the head of the queue. -/
theorem step_of_pending {s : State} {e : HostEvent} {es : List HostEvent} (h : s.port.pending = e :: es) :
    step s = serve exec e (s.setPending es) := by
  simp [step, nextEvent, h]

/-- With nothing waiting a step changes nothing. -/
theorem step_of_idle {s : State} (h : s.port.pending = []) : step s = .next s := by
  simp [step, nextEvent, h]

/-- What a read that goes on can do. -/
theorem hostRead_next {off : Offset} {n : Nat} {s t : State} (h : hostRead off n s = .next t) :
    ∃ r v, accessTarget s.params off n = some r ∧ readReg s r = .ok v ∧ t = s.respond (.data v) := by
  unfold hostRead at h
  split at h
  · cases h
  · rename_i r hr
    split at h
    · rename_i v hv
      exact ⟨r, v, hr, hv, (Outcome.next.inj h).symm⟩
    · cases h

/-- What a write that goes on can do: run a command word, or write one register. -/
theorem hostWrite_next {run : Runner} {off : Offset} {n : Nat} {v : Word} {s t : State}
    (h : hostWrite run off n v s = .next t) :
    (accessTarget s.params off n = some .cmd ∧ executeWord run v (s.respond .ack) = .next t) ∨
      ∃ r, r ≠ .cmd ∧ accessTarget s.params off n = some r ∧ t = (writeReg s v r).respond .ack := by
  unfold hostWrite at h
  split at h
  · cases h
  · rename_i hr
    exact .inl ⟨hr, h⟩
  · rename_i r hne hr
    exact .inr ⟨r, hne, hr, (Outcome.next.inj h).symm⟩

/-- What the execution of a command word that goes on can do. -/
theorem executeWord_next {run : Runner} {w : Word} {s t : State} (h : executeWord run w s = .next t) :
    (∃ i, decode w = .ok i ∧ run i s = .next t) ∨ (∃ e, decode w = .error e) ∧ t = s.illegal := by
  unfold executeWord at h
  split at h
  · rename_i i hi
    exact .inl ⟨i, hi, h⟩
  · rename_i e he
    exact .inr ⟨⟨e, he⟩, (Outcome.next.inj h).symm⟩

/-- What a step that goes on can do: wait, answer a read, run a command word, write a register, or reset. -/
theorem step_next {s t : State} (h : step s = .next t) :
    (s.port.pending = [] ∧ t = s) ∨
      ∃ e es, s.port.pending = e :: es ∧
        ((∃ off n r v, e = .read off n ∧ accessTarget s.params off n = some r ∧ readReg (s.setPending es) r = .ok v ∧
            t = (s.setPending es).respond (.data v)) ∨
          (∃ off n w, e = .write off n w ∧ accessTarget s.params off n = some .cmd ∧
            ((∃ i, decode w = .ok i ∧ exec i ((s.setPending es).respond .ack) = .next t) ∨
              (∃ x, decode w = .error x) ∧ t = ((s.setPending es).respond .ack).illegal)) ∨
          (∃ off n w r, e = .write off n w ∧ r ≠ .cmd ∧ accessTarget s.params off n = some r ∧
            t = (writeReg (s.setPending es) w r).respond .ack) ∨
          (e = .reset ∧ t = (s.setPending es).afterReset) ∨
          ∃ w, e = .resetDuring w ∧ t = abandon (s.setPending es)) := by
  cases hp : s.port.pending with
  | nil =>
    rw [step_of_idle hp] at h
    exact .inl ⟨rfl, (Outcome.next.inj h).symm⟩
  | cons e es =>
    rw [step_of_pending hp] at h
    refine .inr ⟨e, es, rfl, ?_⟩
    cases e with
    | read off n =>
      obtain ⟨r, v, h1, h2, h3⟩ := hostRead_next h
      exact .inl ⟨off, n, r, v, rfl, h1, h2, h3⟩
    | write off n w =>
      rcases hostWrite_next h with ⟨h1, h2⟩ | ⟨r, h1, h2, h3⟩
      · exact .inr (.inl ⟨off, n, w, rfl, h1, executeWord_next h2⟩)
      · exact .inr (.inr (.inl ⟨off, n, w, r, rfl, h1, h2, h3⟩))
    | reset => exact .inr (.inr (.inr (.inl ⟨rfl, (Outcome.next.inj h).symm⟩)))
    | resetDuring w => exact .inr (.inr (.inr (.inr ⟨w, rfl, (Outcome.next.inj h).symm⟩)))

end Sys2Proof.Machine
end

