-- ==== Sys2Proof/Laws/PerInstr.lean ====
section
/-! SUPPORT. Statements made for each instruction: the encoding of every command matches its row of
spec/opcode_table.json. -/

namespace Sys2Proof.Laws.TableRow

/-- A row of spec/opcode_table.json: the bits outside the fields and their values. -/
structure Row where
  bits : Word
  mask : Word
deriving DecidableEq, Repr

/-- The row of each command. -/
def row : Instr → Row
  | .nop => ⟨0x00000000, 0xFFFFFFFF⟩
  | .step => ⟨0x00000001, 0xFFFFFFFF⟩
  | .fftConfig => ⟨0x00000010, 0xFFFFFFFF⟩
  | .fftFwd => ⟨0x00000011, 0xFFFFFFFF⟩
  | .fftInv => ⟨0x00000012, 0xFFFFFFFF⟩
  | .rbInit => ⟨0x00000020, 0xFFFFFFFF⟩
  | .rbPush => ⟨0x00000021, 0xFFFFFFFF⟩
  | .rbGet => ⟨0x00000022, 0xFFFFFFFF⟩
  | .rbUpdate => ⟨0x00000023, 0xFFFFFFFF⟩
  | .envNoteDown => ⟨0x00000030, 0xFFFFFFFF⟩
  | .envNoteUp => ⟨0x00000031, 0xFFFFFFFF⟩
  | .envTick => ⟨0x00000032, 0xFFFFFFFF⟩
  | .oscInit _ _ => ⟨0x00000040, 0xFFFFF0FF⟩
  | .oscSetFreq => ⟨0x00000041, 0xFFFFFFFF⟩
  | .oscSetTranspose => ⟨0x00000042, 0xFFFFFFFF⟩
  | .oscSetBend => ⟨0x00000043, 0xFFFFFFFF⟩
  | .oscTick _ => ⟨0x00000044, 0xFFFFFEFF⟩

/-- The encoded command has the row's values at the row's fixed bits. -/
def Statement (i : Instr) : Prop := encode i &&& (row i).mask = (row i).bits

theorem nop : Statement .nop := by
  unfold Statement
  decide

theorem step : Statement .step := by
  unfold Statement
  decide

theorem fftConfig : Statement .fftConfig := by
  unfold Statement
  decide

theorem fftFwd : Statement .fftFwd := by
  unfold Statement
  decide

theorem fftInv : Statement .fftInv := by
  unfold Statement
  decide

theorem rbInit : Statement .rbInit := by
  unfold Statement
  decide

theorem rbPush : Statement .rbPush := by
  unfold Statement
  decide

theorem rbGet : Statement .rbGet := by
  unfold Statement
  decide

theorem rbUpdate : Statement .rbUpdate := by
  unfold Statement
  decide

theorem envNoteDown : Statement .envNoteDown := by
  unfold Statement
  decide

theorem envNoteUp : Statement .envNoteUp := by
  unfold Statement
  decide

theorem envTick : Statement .envTick := by
  unfold Statement
  decide

theorem oscInit (wave : BitVec 3) (aa : Bool) : Statement (.oscInit wave aa) := by
  revert wave aa
  unfold Statement
  decide

theorem oscSetFreq : Statement .oscSetFreq := by
  unfold Statement
  decide

theorem oscSetTranspose : Statement .oscSetTranspose := by
  unfold Statement
  decide

theorem oscSetBend : Statement .oscSetBend := by
  unfold Statement
  decide

theorem oscTick (lfo : Bool) : Statement (.oscTick lfo) := by
  revert lfo
  unfold Statement
  decide

end Sys2Proof.Laws.TableRow
end

