-- ==== Sys2Proof/Tests/Slice0.lean ====
section
/-! SUPPORT. The model's own tests: the smoke test of WellFormed, the decoding of words written out from
30_encoding.md, single steps checked against 95_test_vectors.md, and for every statement with hypotheses
a witness that meets them. -/

namespace Sys2Proof.Tests

open Sys2Proof Sys2Proof.Machine Host

/-! ### Helpers -/

/-- A view of the next state of an outcome, if it goes on. -/
def view {α : Type} (o : Outcome State Fault Refusal) (f : State → α) : Option α :=
  match o with
  | .next t => some (f t)
  | .fault _ => none
  | .refused _ => none

/-- The fault an outcome stops with, if it does. -/
def faultOf (o : Outcome State Fault Refusal) : Option Fault :=
  match o with
  | .next _ => none
  | .fault f => some f
  | .refused _ => none

/-- The block after reset with these operands. -/
def args (a0 a1 a2 a3 : Word) : State := { State.reset with arg0 := a0, arg1 := a1, arg2 := a2, arg3 := a3 }

/-- The block with these events waiting at the bus. -/
def waiting (es : List HostEvent) (s : State := State.reset) : State := s.setPending es

/-- A transform state: a context of size `2^b` and the elements from DMEM[0] on. -/
def fftState (b : Nat) (xs : List Complex32) (s : State) : State :=
  { s with fft := { context := some (fftContext b), wb := [] }, dmem := Memory.storeElements [] 0 xs }

/-- The elements of DMEM from `i` on, those that read. -/
def elements (s : State) (i n : Nat) : List (Option Word × Option Word) :=
  (List.range n).map fun k =>
    (Memory.readWord s.dmem (reOffset (i + k)), Memory.readWord s.dmem (imOffset (i + k)))

/-- A real element. -/
def re (v : Word) : Complex32 := ⟨v, 0⟩

/-- A ring buffer with this window and slots. -/
def ringState (cap : Word) (a b : Time) (slots : List (Nat × Word)) (s : State) : State :=
  { s with ring := { cap := cap, startT := a, endT := b, slots := slots } }

/-- The envelope of the full cycle of 95_test_vectors.md L2.5: durations 4, sustain 0.5, input 0.8. -/
def cycle (p : EnvPhase) (level delta : Word) (next : Time) : Envelope :=
  { Envelope.reset with
    phase := p, sched := true, nextT := next, level := level, delta := delta
    attack := 4, decay := 4, sustain := 0x20000000, release := 4
    input := frameSet (Vector.replicate 8 0) 0 0x3F4CCCCD }

/-- The block with this envelope at this tick. -/
def envState (e : Envelope) (t : Time) : State := { State.reset with env := e, time := t }

/-- The block with an oscillator of this waveform, increment, phase and last output. -/
def oscState (w : Waveform) (aa : Bool) (inc phase prev : Word) (s : State := State.reset) : State :=
  { s with osc := { Oscillator.reset with wave := w, aa := aa, inc := inc, phase := phase, prev := prev, out := prev } }

/-! ### WellFormed refuses what the spec calls reserved (30_encoding.md R92, R97) -/

theorem test_wellFormed_refuses_wave_6 : (Instr.oscInit 6 false).wellFormed = false := by decide
theorem test_wellFormed_refuses_wave_7 : (Instr.oscInit 7 true).wellFormed = false := by decide
theorem test_wellFormed_allows_wave_5 : (Instr.oscInit 5 true).wellFormed = true := by decide

/-! ### Decoding, every word written out from 30_encoding.md R91 to R95 -/

theorem test_decode_nop : decode 0b00000000000000000000000000000000 = .ok .nop := by decide
theorem test_decode_step : decode 0b00000000000000000000000000000001 = .ok .step := by decide
theorem test_decode_fftConfig : decode 0b00000000000000000000000000010000 = .ok .fftConfig := by decide
theorem test_decode_fftFwd : decode 0b00000000000000000000000000010001 = .ok .fftFwd := by decide
theorem test_decode_fftInv : decode 0b00000000000000000000000000010010 = .ok .fftInv := by decide
theorem test_decode_rbInit : decode 0b00000000000000000000000000100000 = .ok .rbInit := by decide
theorem test_decode_rbPush : decode 0b00000000000000000000000000100001 = .ok .rbPush := by decide
theorem test_decode_rbGet : decode 0b00000000000000000000000000100010 = .ok .rbGet := by decide
theorem test_decode_rbUpdate : decode 0b00000000000000000000000000100011 = .ok .rbUpdate := by decide
theorem test_decode_envNoteDown : decode 0b00000000000000000000000000110000 = .ok .envNoteDown := by decide
theorem test_decode_envNoteUp : decode 0b00000000000000000000000000110001 = .ok .envNoteUp := by decide
theorem test_decode_envTick : decode 0b00000000000000000000000000110010 = .ok .envTick := by decide
theorem test_decode_oscInit_pulse_blep :
    decode 0b00000000000000000000110101000000 = .ok (.oscInit 5 true) := by decide
theorem test_decode_oscInit_square_naive :
    decode 0b00000000000000000000001001000000 = .ok (.oscInit 2 false) := by decide
theorem test_decode_oscSetFreq : decode 0b00000000000000000000000001000001 = .ok .oscSetFreq := by decide
theorem test_decode_oscSetTranspose :
    decode 0b00000000000000000000000001000010 = .ok .oscSetTranspose := by decide
theorem test_decode_oscSetBend : decode 0b00000000000000000000000001000011 = .ok .oscSetBend := by decide
theorem test_decode_oscTick : decode 0b00000000000000000000000001000100 = .ok (.oscTick false) := by decide
theorem test_decode_oscTick_lfo : decode 0b00000000000000000000000101000100 = .ok (.oscTick true) := by decide

/-- 95_test_vectors.md D-3, D-4, D-7, D-9, D-12, D-14: the ILLEGAL words by their reasons. -/
theorem test_decode_illegal :
    decode 0x00000100 = .error (.reservedBits 0x00) ∧ decode 0x00000002 = .error (.reservedOpcode 0x02) ∧
      decode 0x00000640 = .error (.reservedWave 6) ∧ decode 0x00001040 = .error (.reservedBits 0x40) ∧
      decode 0x00000244 = .error (.reservedBits 0x44) ∧ decode 0x80000001 = .error (.reservedBits 0x01) := by
  decide

theorem test_decodeTableWord : decodeTableWord 32 0x00000D40 = some (.oscInit 5 true) := by decide

/-- The word placed by `withFetchWord` runs as the first command after reset. -/
theorem test_withFetchWord_runs_step : view (step (State.reset.withFetchWord 32 1)) (·.time) = some 1 := by decide

/-! ### Arithmetic (95_test_vectors.md L2.4 to L2.6) -/

theorem test_q30_table :
    q30ToF32 0x40000000 = 0x3F800000 ∧ q30ToF32 0x00000001 = 0x30800000 ∧ q30ToF32 0x00FFFFFF = 0x3C7FFFFF ∧
      q30ToF32 0x01000001 = 0x3C800000 ∧ q30ToF32 0x15555555 = 0x3EAAAAAB ∧ q30ToF32 0x3FFFFFFF = 0x3F800000 ∧
      q30ToF32 0x7FFFFFFF = 0x40000000 ∧ q30ToF32 0xC0000000 = 0xBF800000 ∧
      q30ToF32 0x80000000 = 0xC0000000 := by
  decide +kernel

/-- 44_oscillator.md R230: the sine of PI_F32; 95_test_vectors.md L2.6, tick 1. -/
theorem test_sin32 : sin32 0x40490FDB = 0xB3BBBD2E ∧ sin32 0x3F20D97C = 0x3F167918 := by decide +kernel

/-- 95_test_vectors.md L2.4, the table TW for P = 8, entries 1 and 3. -/
theorem test_twiddle_8 :
    twiddle 8 1 = ⟨0x3F3504F3, 0xBF3504F3⟩ ∧ twiddle 8 3 = ⟨0xBF3504F3, 0xBF3504F3⟩ := by
  decide +kernel

/-- 95_test_vectors.md L2.4: the twiddle multiplier and the butterfly on TW4[1]. -/
theorem test_butterfly :
    cmul ⟨0, 0xBF800000⟩ ⟨0, 0x3F800000⟩ = ⟨0x3F800000, 0⟩ ∧
      butterfly ⟨0x3F800000, 0⟩ ⟨0, 0x3F800000⟩ ⟨0, 0xBF800000⟩ = (⟨0x40000000, 0⟩, ⟨0, 0⟩) := by
  decide +kernel

/-! ### One step of each command (95_test_vectors.md) -/

/-- L2.1: NOP after an error keeps ERR. -/
theorem test_nop_keeps_err :
    view (exec .nop { State.reset with status := { code := .outTooShort, err := true } }) (·.status.toWord) =
      some 0x00000100 := by
  decide

/-- L2.1: the carry of TIME into its high half, and its wrap. -/
theorem test_step_carries :
    view (exec .step { State.reset with time := 0xFFFFFFFF }) (fun t => (loWord t.time, hiWord t.time)) =
      some (0, 1) := by
  decide
theorem test_step_wraps : view (exec .step { State.reset with time := 0xFFFFFFFFFFFFFFFF }) (·.time) = some 0 := by
  decide

/-- F-5 and F-11: FFT_CONFIG of 5, and of a size whose padding is 2^32. -/
theorem test_fftConfig_5 :
    view (exec .fftConfig (args 5 0 0 0)) (fun t => (t.fft.ctrlWord, t.fft.sizeWord, t.res0, t.status.toWord)) =
      some (0x00000301, 8, 8, 0) := by
  decide +kernel
theorem test_fftConfig_too_large :
    view (exec .fftConfig (args 0xFFFFFFFF 0 0 0)) (fun t => (t.fft.ctrlWord, t.res0, t.status.toWord)) =
      some (0, 0, 0x00000105) := by
  decide +kernel

/-- T-6: the forward transform of 1, 2, 3, 4. -/
theorem test_fftFwd_4 :
    view (exec .fftFwd (fftState 2 [re 0x3F800000, re 0x40000000, re 0x40400000, re 0x40800000] (args 0 4 8 4)))
      (fun t => elements t 8 4) =
      some [(some 0x41200000, some 0), (some 0xC0000000, some 0x40000000), (some 0xC0000000, some 0),
        (some 0xC0000000, some 0xC0000000)] := by
  decide +kernel
/-- T-8: an input of three elements is padded with zero. -/
theorem test_fftFwd_pads :
    view (exec .fftFwd (fftState 2 [re 0x3F800000, re 0x40000000, re 0x40400000] (args 0 3 8 4)))
      (fun t => elements t 8 4) =
      some [(some 0x40C00000, some 0), (some 0xC0000000, some 0xC0000000), (some 0x40000000, some 0),
        (some 0xC0000000, some 0x40000000)] := by
  decide +kernel
/-- T-7: the inverse transform, with its signed zeros. -/
theorem test_fftInv_4 :
    view (exec .fftInv (fftState 2
        [re 0x41200000, ⟨0xC0000000, 0x40000000⟩, re 0xC0000000, ⟨0xC0000000, 0xC0000000⟩] (args 0 4 8 4)))
      (fun t => elements t 8 4) =
      some [(some 0x3F800000, some 0x80000000), (some 0x40000000, some 0x80000000), (some 0x40400000, some 0),
        (some 0x40800000, some 0x80000000)] := by
  decide +kernel
/-- E-9: the exact sum `0xFFFFFFF9 + 8` does not wrap. -/
theorem test_fftInv_range :
    view (exec .fftInv (fftState 3 [] (args 0 0 0xFFFFFFF9 8))) (·.status.toWord) = some 0x00000107 := by
  decide +kernel

/-- R-3 and R-4: the largest capacity and the one above it. -/
theorem test_rbInit_above_max :
    view (exec .rbInit (args 17 0 0 0)) (fun t => (t.ring.cap, t.status.toWord)) = some (16, 0x00000105) := by
  decide
theorem test_rbInit_max : view (exec .rbInit (args 16 0 0 0)) (fun t => (t.ring.cap, t.status.toWord)) = some (16, 0) := by
  decide

/-- R-5: the third push into a buffer of two overwrites slot 0 and moves the start. -/
theorem test_rbPush_full :
    view (exec .rbPush (ringState 2 0 2 [(0, 0x3F800000), (1, 0x40000000)] (args 0x40400000 0 0 0)))
      (fun t => (t.ring.startT, t.ring.endT, t.ring.slots)) =
      some (1, 3, [(0, 0x40400000), (1, 0x40000000)]) := by
  decide
/-- R-15: with capacity 3 the fifth push goes to slot 4 mod 3. -/
theorem test_rbPush_mod_3 :
    view (exec .rbPush (ringState 3 1 4 [(0, 0x40800000), (1, 0x40000000), (2, 0x40400000)] (args 0x40A00000 0 0 0)))
      (fun t => (t.ring.startT, t.ring.endT, t.ring.slots)) =
      some (2, 5, [(0, 0x40800000), (1, 0x40A00000), (2, 0x40400000)]) := by
  decide

/-- R-8 and R-13: a time in the window, and one whose high word takes it out. -/
theorem test_rbGet_in_window :
    view (exec .rbGet (ringState 2 1 3 [(0, 0x40400000), (1, 0x40000000)] (args 2 0 0 0)))
      (fun t => (t.res0, t.status.toWord)) = some (0x40400000, 0) := by
  decide
theorem test_rbGet_high_word :
    view (exec .rbGet (ringState 2 1 3 [(0, 0x40400000), (1, 0x40000000)] (args 1 1 0 0)))
      (fun t => (t.res0, t.status.toWord)) = some (0, 1) := by
  decide

/-- R-10 and R-12: an update in the window, and below it. -/
theorem test_rbUpdate_in_window :
    view (exec .rbUpdate (ringState 2 1 3 [(0, 0x40400000), (1, 0x40000000)] (args 1 0 0x40A00000 0)))
      (fun t => (t.ring.slots, t.status.toWord)) = some ([(0, 0x40400000), (1, 0x40A00000)], 0) := by
  decide
theorem test_rbUpdate_below :
    view (exec .rbUpdate (ringState 2 1 3 [(0, 0x40400000), (1, 0x40000000)] (args 0 0 0x40A00000 0)))
      (fun t => (t.ring.slots, t.status.toWord)) = some ([(0, 0x40400000), (1, 0x40000000)], 2) := by
  decide

/-- V-5: a retrigger in Decay at level 0.75. -/
theorem test_envNoteDown_retrigger :
    view (exec .envNoteDown (envState (cycle .decay 0x30000000 0xF8000000 8) 6))
      (fun t => (t.env.statWord, t.env.delta, t.env.nextT, t.env.level)) =
      some (0x9, 0x04000000, 10, 0x30000000) := by
  decide +kernel
/-- V-4: the release delta truncates toward zero. -/
theorem test_envNoteUp_truncates :
    view (exec .envNoteUp (envState { cycle .sustain 0x20000000 0 0 with release := 3 } 0))
      (fun t => (t.env.statWord, t.env.delta, t.env.nextT)) = some (0xC, 0xF5555556, 3) := by
  decide +kernel

/-- L2.5, full cycle, T = 4: Decay is entered before the addition. -/
theorem test_envTick_transition :
    view (exec .envTick (envState (cycle .attack 0x40000000 0x10000000 4) 4))
      (fun t => (t.env.statWord, t.env.level, t.env.delta, t.env.nextT, frameGet t.env.output 0)) =
      some (0xA, 0x38000000, 0xF8000000, 8, 0x3F333333) := by
  decide +kernel
/-- V-7: after a missed transition the level saturates. -/
theorem test_envTick_saturates :
    view (exec .envTick (envState (cycle .attack 0x70000000 0x10000000 4) 8))
      (fun t => (t.env.phase, t.env.level)) = some (.attack, 0x7FFFFFFF) := by
  decide +kernel

/-- D-11 and O-17: OSC_INIT PULSE, BLEP restarts and keeps the multipliers. -/
theorem test_oscInit_pulse_blep :
    view (exec (.oscInit 5 true) (oscState .sine false 0x3F20D97C 0x3F20D97C 0x3F800000))
      (fun t => (t.osc.cfgWord, t.osc.phase, t.osc.prev, t.osc.out, t.osc.inc)) =
      some (0xD, 0, 0, 0, 0x3F20D97C) := by
  decide

/-- O-1 and O-6: the base increment of 4410 Hz and of -4410 Hz. -/
theorem test_oscSetFreq_4410 : view (exec .oscSetFreq (args 0x4589D000 0 0 0)) (·.osc.inc) = some 0x3F20D97C := by
  decide +kernel
theorem test_oscSetFreq_negative : view (exec .oscSetFreq (args 0xC589D000 0 0 0)) (·.osc.inc) = some 0xBF20D97C := by
  decide +kernel

/-- O-8 and O-9: seven semitones up, an octave down. -/
theorem test_oscSetTranspose_7 :
    view (exec .oscSetTranspose (args 0x40E00000 0 0 0)) (·.osc.transpose) = some 0x3FBFC887 := by
  decide +kernel
theorem test_oscSetBend_octave_down :
    view (exec .oscSetBend (args 0xC1400000 0 0 0)) (·.osc.bend) = some 0x3F000000 := by
  decide +kernel

/-- L2.6, saw BLEP, tick 10: the phase wraps and the correction applies. -/
theorem test_oscTick_saw_blep :
    view (exec (.oscTick false) (oscState .saw true 0x3F20D97C 0x40B4F4AC 0x3F4CCCCE))
      (fun t => (t.osc.phase, t.osc.out, t.osc.prev)) = some (0x35000000, 0xB5B00000, 0xB5B00000) := by
  decide +kernel
/-- O-12: modulation by half an octave down. -/
theorem test_oscTick_lfo :
    view (exec (.oscTick true) (let s := oscState .saw false 0x3F20D97C 0 0 (args 0xBF800000 0 0 0);
        { s with osc := { s.osc with lfoInt := 0x3F000000 } })) (fun t => (t.osc.phase, t.osc.out)) =
      some (0x3EE379C2, 0xBF5BCBCF) := by
  decide +kernel

/-! ### The bus (95_test_vectors.md L2.2) -/

/-- B-8, B-10, B-11: an absent channel, a misaligned offset and a 16-bit write are BusErrors. -/
theorem test_bus_errors :
    faultOf (step (waiting [.read 0x344 4])) = some (.busError 0x344) ∧
      faultOf (step (waiting [.read 0x006 4])) = some (.busError 0x006) ∧
      faultOf (step (waiting [.write 0x008 2 1])) = some (.busError 0x008) := by
  decide
/-- B-16: a DMEM word never written. -/
theorem test_bus_unwritten :
    faultOf (step (waiting [.read 0x1000008 4])) = some (.unwrittenDmem 0x1000008) := by
  decide
/-- B-5: a write of bit 8 clears ERR and keeps CODE. -/
theorem test_status_clear :
    view (step (waiting [.write 0x004 4 0x00000100] { State.reset with status := { code := .badArg, err := true } }))
      (·.status.toWord) = some 0x00000005 := by
  decide
/-- B-13, B-14: the sustain level clamps at both ends. -/
theorem test_sustain_clamps :
    view (step (waiting [.write 0x320 4 0x7FFFFFFF])) (·.env.sustain) = some 0x40000000 ∧
      view (step (waiting [.write 0x320 4 0x80000000])) (·.env.sustain) = some 0 := by
  decide
/-- The window holds its own 32 MiB of the host's addresses, no more. -/
theorem test_window :
    Params.windowOffset { Params.ps with blockBase := 0x4000000 } 0x4000004 = some 0x004 ∧
      Params.windowOffset { Params.ps with blockBase := 0x4000000 } 0x6000000 = none := by
  decide

/-! ### Witnesses: for every statement with hypotheses, values that meet them, at the boundaries of each
clause -/

/-- O2, the three kinds of ILLEGAL word, at the bus. -/
theorem witness_IllegalWordOnlyReports :
    (waiting [cmdWrite 0x00000002]).port.pending = cmdWrite 0x00000002 :: [] ∧
      (0x00000002 : Word).toNat % 2 ^ 8 ∉
        [0x00, 0x01, 0x10, 0x11, 0x12, 0x20, 0x21, 0x22, 0x23, 0x30, 0x31, 0x32, 0x41, 0x42, 0x43] ∧
      (0x00000100 : Word).toNat / 2 ^ 8 ≠ 0 ∧ (0x00001040 : Word).toNat / 2 ^ 12 ≠ 0 ∧
      (0x00000244 : Word).toNat / 2 ^ 9 ≠ 0 ∧ 5 < (0x00000640 : Word).toNat / 2 ^ 8 % 2 ^ 3 := by
  decide

theorem witness_StepRunsDecodedCommand :
    (waiting [cmdWrite 0x00000021]).port.pending = cmdWrite 0x00000021 :: [] ∧ decode 0x00000021 = .ok .rbPush := by
  decide

theorem witness_PaddedIsLeastPowerOfTwo : 5 ≤ 2 ^ 3 := by decide

theorem witness_BitReversalReversesBits : (7 : Nat) < 2 ^ 3 ∧ (0 : Nat) < 2 ^ 0 := by decide

theorem witness_TwiddleExactEntries : 1 ≤ 1 ∧ 2 ≤ 2 ∧ 3 ≤ 3 := by decide

/-- O10: the only index of size 1, and the first and the last of size 8. -/
theorem witness_TwiddleIsRoundedRoot : 0 < 2 ^ 0 ∧ 0 < 2 ^ 3 ∧ 7 < 2 ^ 3 := by decide

/-- O11: the sizes 2^4 (the largest) and 2^4 + 1 (refused) under PS. -/
theorem witness_FftConfigBuildsContext :
    ((args 16 0 0 0).arg0.toNat ≤ 2 ^ 4 ∧ ∀ c : Nat, (args 16 0 0 0).arg0.toNat ≤ 2 ^ c → 4 ≤ c) ∧
      4 ≤ (args 16 0 0 0).params.log2Pmax ∧
      ((args 17 0 0 0).arg0.toNat ≤ 2 ^ 5 ∧ ∀ c : Nat, (args 17 0 0 0).arg0.toNat ≤ 2 ^ c → 5 ≤ c) ∧
      (args 17 0 0 0).params.log2Pmax < 5 := by
  have h16 : (args 16 0 0 0).arg0.toNat = 16 := rfl
  have h17 : (args 17 0 0 0).arg0.toNat = 17 := rfl
  refine ⟨⟨by decide, fun c hc => ?_⟩, by decide, ⟨by decide, fun c hc => ?_⟩, by decide⟩
  · by_contra h
    have : 2 ^ c ≤ 2 ^ 3 := Nat.pow_le_pow_right (by norm_num) (by omega)
    omega
  · by_contra h
    have : 2 ^ c ≤ 2 ^ 4 := Nat.pow_le_pow_right (by norm_num) (by omega)
    omega

/-- O12: each check at its boundary, with the context of size 8 under PS (E-1, E-3 to E-9). -/
theorem witness_TransformChecksInOrder :
    (args 0 4 8 0).fft.context = none ∧
      (let s := fftState 3 [] (args 0 8 100 7);
        s.fft.context = some (fftContext 3) ∧ s.arg3.toNat < 2 ^ 3) ∧
      (let s := fftState 3 [] (args 9 8 0 8);
        s.fft.context = some (fftContext 3) ∧ 2 ^ 3 ≤ s.arg3.toNat ∧
          s.params.dmemSize < s.arg0.toNat + min s.arg1.toNat (2 ^ 3)) ∧
      (let s := fftState 3 [] (args 8 8 9 8);
        s.fft.context = some (fftContext 3) ∧ 2 ^ 3 ≤ s.arg3.toNat ∧
          s.arg0.toNat + min s.arg1.toNat (2 ^ 3) ≤ s.params.dmemSize ∧ s.params.dmemSize < s.arg2.toNat + 2 ^ 3) ∧
      (let s := fftState 0 [re 0x3F800000] (args 0 1 15 1);
        s.fft.context = some (fftContext 0) ∧ 2 ^ 0 ≤ s.arg3.toNat ∧
          s.arg0.toNat + min s.arg1.toNat (2 ^ 0) ≤ s.params.dmemSize ∧ s.arg2.toNat + 2 ^ 0 ≤ s.params.dmemSize ∧
          view (exec .fftFwd s) (·.status) = some { code := .ok, err := false }) := by
  refine ⟨rfl, ⟨rfl, by decide⟩, ⟨rfl, by decide, by decide⟩, ⟨rfl, by decide, by decide, by decide⟩,
    ⟨rfl, by decide, by decide, by decide, by decide +kernel⟩⟩

/-- The input of O13 and O14: one element, of a context of size 2, at the end of DMEM. -/
def transformWitness : State := fftState 1 [re 0x3F800000] (args 0 1 14 2)

theorem witness_FftFwdWritesTransform :
    transformWitness.fft.context = some (fftContext 1) ∧ 2 ^ 1 ≤ transformWitness.arg3.toNat ∧
      transformWitness.arg0.toNat + min transformWitness.arg1.toNat (2 ^ 1) ≤ transformWitness.params.dmemSize ∧
      transformWitness.arg2.toNat + 2 ^ 1 ≤ transformWitness.params.dmemSize ∧
      ∀ j, j < min transformWitness.arg1.toNat (2 ^ 1) →
        Memory.readWord transformWitness.dmem (0x1000000 + 8 * (transformWitness.arg0.toNat + j)) =
            some ((fun _ : Nat => re 0x3F800000) j).re ∧
          Memory.readWord transformWitness.dmem (0x1000004 + 8 * (transformWitness.arg0.toNat + j)) =
            some ((fun _ : Nat => re 0x3F800000) j).im := by
  refine ⟨rfl, by decide, by decide, by decide, by decide +kernel⟩

/-- It has the hypotheses of O13; this is what its conclusion then says, by hand from R165 to R169. -/
theorem witness_FftInvWritesTransform :
    transformWitness.fft.context = some (fftContext 1) ∧ 2 ^ 1 ≤ transformWitness.arg3.toNat ∧
      transformWitness.arg0.toNat + min transformWitness.arg1.toNat (2 ^ 1) ≤ transformWitness.params.dmemSize ∧
      transformWitness.arg2.toNat + 2 ^ 1 ≤ transformWitness.params.dmemSize ∧
      view (exec .fftInv transformWitness) (fun t => elements t 14 2) =
        some [(some 0x3F000000, some 0x80000000), (some 0x3F000000, some 0)] := by
  refine ⟨rfl, by decide, by decide, by decide, by decide +kernel⟩

/-- O15: the stages of a network of size 4, of one of size 1 (none), and the pairs of a stage. -/
theorem witness_StageIsButterflies :
    (let wb := [re 1, re 2, re 3, re 4];
      let stage := fun j => (List.range j).foldl (fun w i => stagePass [] (2 ^ 2) (2 ^ (i + 1)) w) wb;
      stage 0 = wb ∧ ∀ j, j < 2 → stage (j + 1) = stagePass [] (2 ^ 2) (2 ^ (j + 1)) (stage j)) ∧
      0 < 2 ∧ [re 1, re 2, re 3, re 4].length = 2 ^ 2 ∧ 1 * 2 ^ (0 + 1) < 2 ^ 2 ∧ 0 < 2 ^ (0 + 1) / 2 := by
  refine ⟨⟨rfl, fun j _ => ?_⟩, by decide⟩
  simp [List.range_succ]

/-- O16: the impulse with L = 1, and with L = 8 and its zeros. -/
theorem witness_ImpulseHasFlatSpectrum :
    let s := fftState 3 [re 0x3F800000] (args 0 1 8 8)
    let z := fftState 3 (re 0x3F800000 :: List.replicate 7 (re 0)) (args 0 8 8 8)
    (s.fft.context = some (fftContext 3) ∧ z.fft.context = some (fftContext 3)) ∧ 8 ≤ s.arg3.toNat ∧
      s.arg0.toNat + s.arg1.toNat ≤ s.params.dmemSize ∧ s.arg2.toNat + 8 ≤ s.params.dmemSize ∧
      z.arg0.toNat + z.arg1.toNat ≤ z.params.dmemSize ∧ s.arg1 = 1 ∧ z.arg1 = 8 ∧
      (∀ j, j < s.arg1.toNat →
        Memory.readWord s.dmem (0x1000000 + 8 * (s.arg0.toNat + j)) = some (if j = 0 then 0x3F800000 else 0) ∧
          Memory.readWord s.dmem (0x1000004 + 8 * (s.arg0.toNat + j)) = some 0) ∧
      ∀ j, j < z.arg1.toNat →
        Memory.readWord z.dmem (0x1000000 + 8 * (z.arg0.toNat + j)) = some (if j = 0 then 0x3F800000 else 0) ∧
          Memory.readWord z.dmem (0x1000004 + 8 * (z.arg0.toNat + j)) = some 0 := by
  refine ⟨⟨rfl, rfl⟩, by decide, by decide, by decide, by decide, rfl, rfl, by decide +kernel, by decide +kernel⟩

theorem witness_InverseScaleIsDivision : 21 ≤ 21 := by decide

theorem witness_RbInitSetsCapacity :
    (1 ≤ (args 1 0 0 0).arg0.toNat ∧ (args 16 0 0 0).arg0.toNat ≤ (args 16 0 0 0).params.rbMax) ∧
      (args 0 0 0 0).arg0.toNat = 0 ∧ (args 17 0 0 0).params.rbMax < (args 17 0 0 0).arg0.toNat := by
  decide

/-- O19: a full window, one that is not, and the last count of pushes. -/
theorem witness_RbPushAppends :
    (ringState 2 0 2 [] State.reset).ring.endT.toNat =
        (ringState 2 0 2 [] State.reset).ring.startT.toNat + (ringState 2 0 2 [] State.reset).ring.cap.toNat ∧
      State.reset.ring.endT.toNat + 1 < 2 ^ 64 ∧
      State.reset.ring.endT.toNat ≠ State.reset.ring.startT.toNat + State.reset.ring.cap.toNat ∧
      (ringState 2 0xFFFFFFFFFFFFFFFD 0xFFFFFFFFFFFFFFFF [] State.reset).ring.endT.toNat + 1 = 2 ^ 64 := by
  decide

/-- O20: the times at both ends of the window [1, 3) and just outside it. -/
theorem witness_RbGetReadsWindow :
    let s := fun a : Word => ringState 2 1 3 [] (args a 0 0x40A00000 0)
    let t := fun a : Word => (s a).arg0.toNat + 2 ^ 32 * (s a).arg1.toNat
    ((s 1).ring.startT.toNat ≤ t 1 ∧ t 1 < (s 1).ring.endT.toNat) ∧
      ((s 2).ring.startT.toNat ≤ t 2 ∧ t 2 < (s 2).ring.endT.toNat) ∧
      t 0 < (s 0).ring.startT.toNat ∧ (s 3).ring.endT.toNat ≤ t 3 := by
  decide

/-- It has the hypotheses of O20. -/
theorem witness_RbUpdateOverwritesWindow :
    let s := fun a : Word => ringState 2 1 3 [] (args a 0 0x40A00000 0)
    let t := fun a : Word => (s a).arg0.toNat + 2 ^ 32 * (s a).arg1.toNat
    ((s 1).ring.startT.toNat ≤ t 1 ∧ t 1 < (s 1).ring.endT.toNat) ∧
      ((s 2).ring.startT.toNat ≤ t 2 ∧ t 2 < (s 2).ring.endT.toNat) ∧
      t 0 < (s 0).ring.startT.toNat ∧ (s 3).ring.endT.toNat ≤ t 3 := by
  decide

theorem witness_WindowSlotsDiffer :
    let r := (ringState 2 1 3 [] State.reset).ring
    r.endT.toNat ≤ r.startT.toNat + r.cap.toNat ∧ r.inWindow 1 = true ∧ r.inWindow 2 = true ∧
      (1 : Time) ≠ 2 := by
  decide

/-- O23: capacity 2, k = 1, the times 0 (below), 1 and 2 (in the window), 3 (above). -/
theorem witness_WindowAfterPushes :
    let s := ringState 2 0 0 [] State.reset
    let vs : List Word := [0x3F800000, 0x40000000, 0x40400000]
    s.ring.startT = 0 ∧ s.ring.endT = 0 ∧ 1 ≤ s.ring.cap.toNat ∧ 1 ≤ 1 ∧ vs.length = s.ring.cap.toNat + 1 ∧
      vs.length < 2 ^ 64 ∧ 0 < 1 ∧ vs[1]? = some 0x40000000 ∧ vs[2]? = some 0x40400000 ∧
      s.ring.cap.toNat + 1 ≤ 3 := by
  decide

theorem witness_EnvTickProcessesFrame : State.reset.params.envNch ≤ 8 := by decide

theorem witness_RampNeverPassesTarget :
    1 ≤ 1 ∧ (0 : Word).toInt ≤ (0x40000000 : Word).toInt ∧ (0 : Word).toInt ≤ (0x40000000 : Word).toInt := by decide

/-- O28: entry by an event, in each of the three states, and by the transition due at this tick. -/
theorem witness_RampShape :
    let e := cycle .attack 0x40000000 0x10000000 4
    (∀ p, p = .attack ∨ p = .decay ∨ p = .release → EntersAt e (envState (e.enter p 4) 4).env p 4) ∧
      EntersAt e (envState e 4).env .decay 4 ∧ levelInRange e.level ∧ e.sustain.toNat ≤ 0x40000000 := by
  refine ⟨fun p _ => .inl rfl, .inr ⟨rfl, rfl, rfl, rfl⟩, ?_, by decide⟩
  unfold levelInRange
  decide

/-- O29: the last tick of an attack, and an envelope that schedules nothing. -/
theorem witness_PassKeepsSchedule :
    (cycle .attack 0x30000000 0x10000000 4).OnSchedule 3 ∧ Envelope.reset.OnSchedule 0 ∧
      (cycle .attack 0x30000000 0x10000000 4).sustain.toNat ≤ 0x40000000 := by
  refine ⟨⟨by unfold levelInRange; decide, fun _ => ⟨1, by decide, by decide, ?_⟩, fun h => (by cases h)⟩,
    ⟨by unfold levelInRange; decide, fun h => (by cases h), fun _ => rfl⟩, by decide⟩
  intro j hj
  have h0 : s32 (cycle .attack 0x30000000 0x10000000 4).level = 0x30000000 := by decide
  have h1 : s32 (cycle .attack 0x30000000 0x10000000 4).delta = 0x10000000 := by decide
  rw [h0, h1]
  omega

/-- O30: under PS a pass with a note, its ENV_TICK and its STEP; and a pass that has had its ENV_TICK. -/
theorem witness_LevelStaysInRange :
    Params.ps.Legal ∧
      oneTickPerPass false [cmdWrite 0x00000030, cmdWrite 0x00000032, cmdWrite 0x00000001] = true ∧
      (view (Core.run Sys2Proof.core 3 ((State.resetWith Params.ps).setPending
        [cmdWrite 0x00000030, cmdWrite 0x00000032, cmdWrite 0x00000001])) fun _ => ()) = some () ∧
      (waiting [cmdWrite 0x00000001]).InPass true ∧
      (view (step (waiting [cmdWrite 0x00000001])) fun _ => ()) = some () ∧
      (waiting [cmdWrite 0x00000032]).InPass false ∧
      (view (step (waiting [cmdWrite 0x00000032])) fun _ => ()) = some () := by
  have level : levelInRange State.reset.env.level := by unfold levelInRange; decide
  refine ⟨by decide, by decide, by decide +kernel, ⟨by decide, by decide, ⟨level, fun h => (by cases h), fun _ => rfl⟩,
    by decide⟩, by decide +kernel, ⟨by decide, by decide, ⟨level, fun h => (by cases h), fun _ => rfl⟩, by decide⟩,
    by decide +kernel⟩

theorem witness_SustainLeftOnlyByNotes :
    let s := envState { Envelope.reset with phase := .sustain } 0
    s.env.phase = .sustain ∧ s.env.sched = false ∧ (view (exec .envTick s) fun _ => ()) = some () ∧
      Instr.envTick ≠ .envNoteDown ∧ Instr.envTick ≠ .envNoteUp := by
  decide +kernel

theorem witness_OscInitRestarts :
    ((5 : BitVec 3), Waveform.pulseTrain) ∈
      [((0 : BitVec 3), Waveform.sine), (1, .saw), (2, .square), (3, .triangle), (4, .whiteNoise), (5, .pulseTrain)] := by
  decide

/-- O35: after the discontinuity, before the next one, and between (95_test_vectors.md L2.6, ticks 10 and 1). -/
theorem witness_BlepIsTwoSamplePolynomial :
    lt32 0x33A2F983 0x3DCCCCCD = true ∧
      (lt32 0x3F7FFFFF 0x3DCCCCCD = false ∧ lt32 (sub32 0x3F800000 0x3DCCCCCD) 0x3F7FFFFF = true) ∧
      lt32 0x3F000000 0x3DCCCCCD = false ∧ lt32 (sub32 0x3F800000 0x3DCCCCCD) 0x3F000000 = false := by
  decide +kernel

theorem witness_NoiseStaysInUnitRange :
    (oscState .whiteNoise false 0 0 0).osc.wave = .whiteNoise ∧
      (view (exec (.oscTick false) (oscState .whiteNoise false 0 0 0)) fun _ => ()) = some () ∧
      (ge32 0xBF800000 0xBF800000 = true ∧ ge32 0x3F800000 0xBF800000 = true) ∧
      ge32 0x3F800000 0xBF800000 = true ∧ ge32 0x3F800000 0x3F800000 = true := by
  decide +kernel

/-- O37: the largest phase and increment below 2π, and phase 0. -/
theorem witness_PhaseStaysBelowTwoPi :
    let s := oscState .sine false 0x40C90FDA 0x40C90FDA 0
    let e := s.osc.effInc (s.lfoOperand false)
    ge32 s.osc.phase 0 = true ∧ lt32 s.osc.phase 0x40C90FDB = true ∧ ge32 e 0 = true ∧ lt32 e 0x40C90FDB = true ∧
      ge32 State.reset.osc.phase 0 = true := by
  decide +kernel

theorem witness_AaIgnoredBySmoothWaves :
    let s := oscState .pulseTrain true 0x3F20D97C 0 0
    s.osc.wave = .pulseTrain ∧ (view (exec (.oscTick false) s) fun _ => ()) = some () ∧
      (view (exec (.oscTick false) { s with osc := { s.osc with aa := false } }) fun _ => ()) = some () := by
  decide +kernel

theorem witness_UnitMultipliersKeepIncrement :
    (oscState .sine false 0x00000001 0 0).osc.bend = 0x3F800000 ∧
      (oscState .sine false 0x00000001 0 0).osc.transpose = 0x3F800000 ∧
      isNaN32 (oscState .sine false 0x00000001 0 0).osc.inc = false := by
  decide

theorem witness_RationalsRoundToNearestEven : 0 < 1 := by decide

/-- O41: 1.0 and 0.5 are values whose sum, difference, product and quotient are not zero; 1.0 and -1.0, and
+0.0 and -0.0, give exact zeros. -/
theorem witness_ArithmeticRoundsExactResult :
    (ValueOf 0x3F800000 1 ∧ ValueOf 0x3F000000 (1 / 2) ∧ (1 : ℝ) + 1 / 2 ≠ 0 ∧ (1 : ℝ) - 1 / 2 ≠ 0 ∧
      (1 : ℝ) * (1 / 2) ≠ 0 ∧ (1 / 2 : ℝ) ≠ 0 ∧ (1 : ℝ) / (1 / 2) ≠ 0) ∧
      (ValueOf 0xBF800000 (-1) ∧ (1 : ℝ) + -1 = 0 ∧ (1 : ℝ) - 1 = 0) ∧
      ValueOf 0 0 ∧ ValueOf 0x80000000 0 ∧ (0 : ℝ) * 0 = 0 := by
  have h1 : signedUnits 0x3F800000 = 2 ^ 149 := by decide +kernel
  have h2 : signedUnits 0x3F000000 = 2 ^ 148 := by decide +kernel
  have h3 : signedUnits 0xBF800000 = -2 ^ 149 := by decide +kernel
  have h4 : signedUnits 0 = 0 := by decide
  have h5 : signedUnits 0x80000000 = 0 := by decide
  refine ⟨⟨⟨by unfold isFinite32; decide, ?_⟩, ⟨by unfold isFinite32; decide, ?_⟩, by norm_num, by norm_num,
    by norm_num, by norm_num, by norm_num⟩, ⟨⟨by unfold isFinite32; decide, ?_⟩, by norm_num, by norm_num⟩,
    ⟨by unfold isFinite32; decide, ?_⟩, ⟨by unfold isFinite32; decide, ?_⟩, by norm_num⟩
  · rw [h1]; norm_num
  · rw [h2]; norm_num
  · rw [h3]; norm_num
  · rw [h4]; simp
  · rw [h5]; simp

/-- O42: a NaN operand, a NaN result, infinities of both signs, a finite value and zeros. -/
theorem witness_NaNResultsAreCanonical :
    isNaN32 0x7FC00001 = true ∧ isNaN32 (add32 0x7F800000 0xFF800000) = true ∧ (31 : Nat) < 32 ∧
      (isNaN32 0x7F800000 = false ∧ isInf32 0x7F800000 = true) ∧
      (isNaN32 0xFF800000 = false ∧ isInf32 0xFF800000 = true) ∧
      (isNaN32 0x7F7FFFFF = false ∧ isInf32 0x7F7FFFFF = false) ∧
      isNaN32 0x80000000 = false ∧ isInf32 0x80000000 = false ∧ isZero32 0x80000000 = true := by
  decide +kernel

theorem witness_ComparisonsOrderValues : ValueOf 0 0 ∧ ValueOf 0x80000000 0 ∧ isNaN32 0x7FC00001 = true := by
  have h1 : signedUnits 0 = 0 := by decide
  have h2 : signedUnits 0x80000000 = 0 := by decide
  refine ⟨⟨by unfold isFinite32; decide, ?_⟩, ⟨by unfold isFinite32; decide, ?_⟩, by decide⟩
  · rw [h1]
    simp
  · rw [h2]
    simp

theorem witness_FixedPointConversionRounds : |(0x00FFFFFF : Word).toInt| < 2 ^ 24 := by decide

/-- O45: the two zeros are finite values, and an infinity is not finite. -/
theorem witness_SineAndCosineCorrectlyRounded :
    ValueOf 0 0 ∧ ValueOf 0x80000000 0 ∧ ¬ isFinite32 0x7F800000 := by
  obtain ⟨h1, h2, -⟩ := witness_ComparisonsOrderValues
  exact ⟨h1, h2, by unfold isFinite32; decide⟩

/-- O46: a finite value and a NaN. -/
theorem witness_ExpTwoCorrectlyRounded : ValueOf 0x80000000 0 ∧ isNaN32 0x7FC00001 = true :=
  witness_ComparisonsOrderValues.2

/-- O47: a command, a write that clears ERR, and each reset. -/
theorem witness_ErrIsSticky :
    let s := { args 17 0 0 0 with status := { code := .badArg, err := true } }
    (view (exec .rbInit s) fun t => (decide (3 ≤ t.status.code.number), t.status.err)) = some (true, true) ∧
      (view (exec .nop s) fun t => (decide (t.status.code.number < 3), t.status.err)) = some (true, true) ∧
      (waiting [.write 0x004 4 0x100] s).port.pending = .write 0x004 4 0x100 :: [] ∧
      (view (step (waiting [.write 0x004 4 0x100] s)) fun t => t.status.err) = some false ∧
      (view (step (waiting [.reset] s)) fun t => t.status.err) = some false ∧
      (view (step (waiting [.resetDuring 0] s)) fun t => t.status.err) = some false := by
  decide +kernel

theorem witness_CommandsWriteListedCodes :
    Instr.rbUpdate.wellFormed = true ∧ (view (exec .rbUpdate State.reset) fun t => t.status.code.number) = some 2 := by
  decide

theorem witness_FailureChangesOnlyStatus :
    (view (exec .rbGet State.reset) fun t => decide (1 ≤ t.status.code.number)) = some true ∧
      (view (executeWord exec 0x00000640 State.reset) fun t => decide (1 ≤ t.status.code.number)) = some true := by
  decide

theorem witness_CommandsWriteOnlyTheirUnit :
    (view (exec .envTick State.reset) fun _ => ()) = some () ∧ Instr.envTick ≠ .step ∧ Instr.envTick ≠ .rbGet := by
  decide +kernel

/-- O51: one access refused for its width, one for its alignment, one unmapped; the last mapped words. -/
theorem witness_BusErrorsExactly :
    State.reset.params.Legal ∧ (waiting [.read 0x008 2]).port.pending = .read 0x008 2 :: [] ∧
      (waiting [.write 0x006 4 0]).port.pending = .write 0x006 4 0 :: [] ∧
      ¬ MappedOffset State.reset.params 0x344 ∧ MappedOffset State.reset.params 0x41C ∧
      MappedOffset State.reset.params 0x340 ∧ MappedOffset State.reset.params 0x100007C := by
  refine ⟨by decide, rfl, rfl, ?_, .inl (by decide), .inr (.inl ⟨0, by decide, .inl rfl⟩),
    .inr (.inr ⟨15, by decide, .inr rfl⟩)⟩
  have hn : State.reset.params.envNch = 1 := rfl
  rintro (h | ⟨c, hc, h⟩ | ⟨i, _, h⟩)
  · revert h
    decide
  · rw [hn] at hc
    omega
  · omega

/-- O52: a host read of a written word and of an unwritten one; and a transform of one element, never
written, by each command. -/
theorem witness_DmemReadReturnsStoredWord :
    (let s := waiting [.read 0x1000000 4] (fftState 0 [re 0x3F800000] State.reset);
      0 < s.params.dmemSize ∧ s.params.Legal ∧ (0x1000000 : Offset).toNat = 0x1000000 + 8 * 0 ∧
      s.port.pending = .read 0x1000000 4 :: [] ∧ Memory.readWord s.dmem 0x1000000 = some 0x3F800000 ∧
      Memory.readWord State.reset.dmem 0x1000000 = none) ∧
    let s := fftState 0 [] (args 0 1 0 1)
    s.fft.context = some (fftContext 0) ∧ 2 ^ 0 ≤ s.arg3.toNat ∧
      s.arg0.toNat + min s.arg1.toNat (2 ^ 0) ≤ s.params.dmemSize ∧ s.arg2.toNat + 2 ^ 0 ≤ s.params.dmemSize ∧
      0 < min s.arg1.toNat (2 ^ 0) ∧ Memory.readWord s.dmem (0x1000004 + 8 * (s.arg0.toNat + 0)) = none := by
  refine ⟨by decide, rfl, by decide, by decide, by decide, by decide, by decide⟩

theorem witness_ReadsHaveNoSideEffect :
    (waiting [.read 0x030 4]).port.pending = .read 0x030 4 :: [] ∧
      (view (step (waiting [.read 0x030 4])) fun t => t.port.response) = some (some (.data 0x00000104)) := by
  decide

theorem witness_WriteThenReadReturns :
    (let s := waiting [.write 0x414 4 0x7FC00001, .read 0x414 4];
      s.params.Legal ∧ s.port.pending = .write 0x414 4 0x7FC00001 :: .read 0x414 4 :: [] ∧
        (0x414 : Offset).toNat ∈ [0x008, 0x00C, 0x010, 0x014, 0x318, 0x31C, 0x324, 0x414]) ∧
      (let s := waiting [.write 0x340 4 1, .read 0x340 4];
        0 < s.params.envNch ∧ (0x340 : Offset).toNat = 0x340 + 4 * 0) ∧
      (let s := waiting [.write 0x100007C 4 1, .read 0x100007C 4];
        15 < s.params.dmemSize ∧ (0x100007C : Offset).toNat = 0x1000004 + 8 * 15) ∧
      (0x320 : Offset).toNat = 0x320 := by
  decide

theorem witness_HostWriteChangesOnlyItsRegister :
    State.reset.params.Legal ∧ (waiting [.write 0x008 4 1]).port.pending = .write 0x008 4 1 :: [] ∧
      (waiting [.write 0x41C 4 1]).port.pending = .write 0x41C 4 1 :: [] ∧
      (0 < State.reset.params.envNch ∧ (0x360 : Offset).toNat = 0x360 + 4 * 0) ∧
      15 < State.reset.params.dmemSize ∧ (0x100007C : Offset).toNat = 0x1000004 + 8 * 15 := by
  decide

/-- O56: reads of the first and the last fixed row and of the channel PS has, without and with a context. -/
theorem witness_FieldsReadAtTheirBits :
    State.reset.params.Legal ∧ State.reset.fft.Inv State.reset.params.log2Pmax ∧
      (fftState 4 [] State.reset).fft.Inv State.reset.params.log2Pmax ∧
      (waiting [.read 0x000 4]).port.pending = .read 0x000 4 :: [] ∧ (0x41C : Offset).toNat = 0x41C ∧
      0 < State.reset.params.envNch ∧ (0x340 : Offset).toNat = 0x340 + 4 * 0 ∧ (0x360 : Offset).toNat = 0x360 + 4 * 0 := by
  refine ⟨by decide, ⟨fun c h => (by cases h), by decide⟩, ⟨fun c h => ?_, by decide⟩, rfl, by decide, by decide, by decide, by decide⟩
  cases h
  exact ⟨by decide, rfl⟩

theorem witness_ResetLeavesTheTable :
    Params.ps.Legal ∧ (waiting [.reset]).port.pending = .reset :: [] ∧
      (waiting [.resetDuring 1]).port.pending = .resetDuring 1 :: [] := by
  decide

theorem witness_ResetSatisfiesInvariant :
    Params.ps.Legal ∧ (⟨0, 1, 1, 1, 1, 0⟩ : Params).Legal ∧ (⟨21, 2 ^ 21, 2 ^ 24, 8, 2 ^ 24, 2 ^ 25⟩ : Params).Legal := by
  decide

/-- The reset state under PS has the invariant. -/
theorem reset_inv : State.reset.Inv := by
  refine ⟨by decide, ⟨by decide, by decide, rfl, fun t h => ?_⟩,
    ⟨by decide, ⟨fun _ => .inr rfl, fun _ => rfl⟩, fun _ => ⟨rfl, rfl⟩, fun c _ => ?_⟩,
    ⟨fun c h => (by cases h), by decide⟩, ⟨rfl, fun a h => (by cases h)⟩, rfl⟩
  · have h1 : State.reset.ring.endT.toNat = 0 := rfl
    simp [RingBuffer.inWindow, h1] at h
  · have h2 : frameGet (Vector.replicate 8 0) c = 0 := by
      rw [frameGet_eq]
      split <;> simp
    exact ⟨h2, h2⟩

theorem witness_StepKeepsInvariant :
    (waiting [cmdWrite 0x00000021]).Inv ∧ (view (step (waiting [cmdWrite 0x00000021])) fun _ => ()) = some () :=
  ⟨reset_inv, by decide⟩

/-- O60: one sample pushed after reset, its time in the window. -/
theorem witness_RbGetReturnsWrittenSample :
    let s := ringState 16 0 1 [(0, 0x3F800000)] State.reset
    s.Inv ∧ (view (exec .rbGet s) fun t => (t.status.code, t.res0)) = some (.ok, 0x3F800000) := by
  refine ⟨⟨by decide, ⟨by decide, by decide, rfl, fun t h => ?_⟩, reset_inv.2.2.1, reset_inv.2.2.2.1,
    reset_inv.2.2.2.2.1, rfl⟩, by decide⟩
  have h1 : (ringState 16 0 1 [(0, 0x3F800000)] State.reset).ring.endT.toNat = 1 := rfl
  have h2 : (ringState 16 0 1 [(0, 0x3F800000)] State.reset).ring.startT.toNat = 0 := rfl
  simp only [RingBuffer.inWindow, h1, h2, Bool.and_eq_true, decide_eq_true_eq] at h
  have ht : t = 0 := BitVec.eq_of_toNat_eq (by simp; omega)
  subst ht
  decide

end Sys2Proof.Tests
end

section
/-! PROOFS. The statements of 00_scope.md: the binary32 arithmetic (R17, R18, R22), the correctly rounded
functions (R19) and the range of the white-noise draws (R11). First the classes and the values of patterns,
then the operations case by case, then the functions, then the obligations. -/

namespace Sys2Proof.Machine

/-! ### Classes of patterns -/

/-- Every pattern is a NaN, an infinity or finite. -/
theorem nan_or_inf_or_finite (v : Word) : isNaN32 v = true ∨ isInf32 v = true ∨ isFinite32 v := by
  unfold isNaN32 isInf32 isFinite32
  simp only [decide_eq_true_eq]
  omega

/-- A pattern that is not finite is a NaN or an infinity. -/
theorem nan_or_inf_of_not_finite {v : Word} (h : ¬ isFinite32 v) : (isNaN32 v || isInf32 v) = true := by
  rcases nan_or_inf_or_finite v with hn | hi | hf
  · rw [hn, Bool.true_or]
  · rw [hi, Bool.or_true]
  · exact absurd hf h

theorem finite_of_flags {v : Word} (hn : isNaN32 v = false) (hi : isInf32 v = false) : isFinite32 v :=
  ((nan_or_inf_or_finite v).resolve_left (by simp [hn])).resolve_left (by simp [hi])

theorem isNaN32_of_magnitude_le {v : Word} (h : magnitude v ≤ 0x7F800000) : isNaN32 v = false := by
  unfold isNaN32
  exact decide_eq_false (by omega)

@[simp] theorem isNaN32_neg32 (v : Word) : isNaN32 (neg32 v) = isNaN32 v := by
  unfold isNaN32; rw [magnitude_neg32]

@[simp] theorem isInf32_neg32 (v : Word) : isInf32 (neg32 v) = isInf32 v := by
  unfold isInf32; rw [magnitude_neg32]

/-- An infinity's bits, by its sign. -/
theorem inf32_eq (s : Bool) : inf32 s = if s then 0xFF800000 else 0x7F800000 := by cases s <;> decide

/-- A zero's bits, by its sign. -/
theorem packSign_zero (s : Bool) : packSign s 0 = if s then 0x80000000 else 0 := by cases s <;> decide

theorem isNaN32_inf32 (s : Bool) : isNaN32 (inf32 s) = false := packSign_not_nan s _ (le_refl _)

/-! ### The values of finite patterns -/

theorem isZero32_iff_units (v : Word) : isZero32 v = true ↔ units v = 0 := by
  rw [units_zero_iff]
  unfold isZero32
  exact decide_eq_true_iff

theorem ValueOf.signedUnits_eq {v : Word} {x : ℝ} (h : ValueOf v x) : (signedUnits v : ℝ) = x * 2 ^ 149 := by
  rw [h.2, div_mul_cancel₀ _ (by positivity)]

/-- The absolute value of a finite pattern's number, in units. -/
theorem ValueOf.abs_eq {v : Word} {x : ℝ} (h : ValueOf v x) : |x| * 2 ^ 149 = units v := by
  calc |x| * 2 ^ 149 = |x * 2 ^ 149| := by rw [abs_mul, abs_of_pos (by positivity : (0 : ℝ) < 2 ^ 149)]
    _ = |(if signBit v then -1 else 1) * (units v : ℝ)| := by rw [← h.signedUnits_eq, signedUnits_abs]
    _ = units v := by cases signBit v <;> simp

/-- A finite pattern's number is its sign times its units. -/
theorem ValueOf.eq_sign_mul {v : Word} {x : ℝ} (h : ValueOf v x) :
    x = (if signBit v then -1 else 1) * ((units v : ℝ) / 2 ^ 149) := by
  rw [h.2, signedUnits_abs, mul_div_assoc]

theorem ValueOf.eq_zero_iff {v : Word} {x : ℝ} (h : ValueOf v x) : x = 0 ↔ units v = 0 := by
  rw [← abs_eq_zero, ← Nat.cast_eq_zero (R := ℝ), ← h.abs_eq]
  simp

theorem ValueOf.isZero32_iff {v : Word} {x : ℝ} (h : ValueOf v x) : isZero32 v = true ↔ x = 0 := by
  rw [isZero32_iff_units, h.eq_zero_iff]

theorem ValueOf.neg {v : Word} {x : ℝ} (h : ValueOf v x) : ValueOf (neg32 v) (-x) := by
  refine ⟨isFinite_neg h.1, ?_⟩
  rw [signedUnits_neg32, Int.cast_neg, neg_div, ← h.2]

theorem valueOf_zero32 : ValueOf zero32 0 := by
  refine ⟨by unfold isFinite32; decide, ?_⟩
  rw [show signedUnits zero32 = 0 by decide, Int.cast_zero, zero_div]

/-- The largest finite value is `(2^24 - 1)·2^104`. -/
theorem units_le_of_finite {v : Word} (h : isFinite32 v) : units v ≤ 0xFFFFFF * 2 ^ 253 := by
  have hmax : units (packSign false (253 * 2 ^ 23 + 0xFFFFFF)) = 0xFFFFFF * 2 ^ 253 :=
    units_packSign false 253 0xFFFFFF (by norm_num) (.inr (by norm_num)) (by norm_num)
  rw [← hmax, ← not_lt, units_lt_iff, magnitude_packSign _ _ (by norm_num)]
  unfold isFinite32 at h
  omega

/-- A finite pattern's number lies below the midpoint at which rounding overflows. -/
theorem ValueOf.abs_lt {v : Word} {x : ℝ} (h : ValueOf v x) : |x| < (2 : ℝ) ^ 128 - 2 ^ 103 := by
  have hu : (units v : ℝ) ≤ 0xFFFFFF * 2 ^ 253 := by exact_mod_cast units_le_of_finite h.1
  rw [← h.abs_eq] at hu
  have e : (0xFFFFFF : ℝ) * 2 ^ 253 = (2 ^ 128 - 2 ^ 104) * 2 ^ 149 := by norm_num
  rw [e] at hu
  have := le_of_mul_le_mul_right hu (by positivity)
  linarith [(by norm_num : (2 : ℝ) ^ 103 < 2 ^ 104)]

/-- Every integer below `2^24` times a power of two in the exponent range has a pattern of either sign. -/
theorem exists_units_eq (s : Bool) {m k : Nat} (hm : m < 2 ^ 24) (hk : k ≤ 253) :
    ∃ g, g < 0x7F800000 ∧ units (packSign s g) = m * 2 ^ k := by
  induction k generalizing m with
  | zero => exact ⟨0 * 2 ^ 23 + m, by omega, units_packSign s 0 m hm.le (.inl rfl) (by omega)⟩
  | succ k ih =>
    by_cases h : 2 ^ 23 ≤ m
    · exact ⟨(k + 1) * 2 ^ 23 + m, by omega, units_packSign s (k + 1) m hm.le (.inr h) (by omega)⟩
    · obtain ⟨g, hg, hu⟩ := ih (m := 2 * m) (by omega) (by omega)
      exact ⟨g, hg, by rw [hu, pow_succ]; ring⟩

/-- Every signed 24-bit integer times a power of two in the exponent range is the value of a pattern. -/
theorem exists_valueOf {z : Int} {k : Nat} (hz : |z| < 2 ^ 24) (hk : k ≤ 253) :
    ∃ v, ValueOf v ((z * 2 ^ k : ℝ) / 2 ^ 149) := by
  obtain ⟨g, hg, hu⟩ := exists_units_eq (decide (z < 0)) (m := z.natAbs) (by rw [Int.abs_eq_natAbs] at hz; omega) hk
  refine ⟨packSign (decide (z < 0)) g, by unfold isFinite32; rwa [magnitude_packSign _ _ (by omega)], ?_⟩
  rw [signedUnits_abs, signBit_packSign _ _ (by omega), hu, Nat.cast_mul, Nat.cast_natAbs]
  rcases lt_or_ge z 0 with h | h
  · simp [h, abs_of_neg h]
  · simp [not_lt.2 h, abs_of_nonneg h]

/-! ### Rounding -/

/-- `f32` of every rational is that number rounded, zero included. -/
theorem roundsTo_f32OfRat_of_pos (n : Int) {d : Nat} (hd : 0 < d) : RoundsTo ((n : ℝ) / d) (f32OfRat n d) := by
  by_cases hn : n = 0
  · rw [hn, f32OfRat, if_pos rfl, Int.cast_zero, zero_div]
    exact roundsTo_zero
  · exact roundsTo_f32OfRat hn hd

/-- Among all patterns a number rounds to exactly the one it is known to round to. -/
theorem RoundsTo.iff_eq {x : ℝ} {w : Word} (h : RoundsTo x w) (v : Word) : RoundsTo x v ↔ w = v :=
  ⟨fun hv => h.unique hv, fun e => e ▸ h⟩

/-- A number that some pattern has is not changed by rounding. -/
theorem RoundsTo.valueOf {x : ℝ} {v w : Word} (h : RoundsTo x v) (hw : ValueOf w x) : ValueOf v x := by
  by_cases hx : x = 0
  · rw [h.1 hx, hx]
    exact valueOf_zero32
  obtain ⟨hfin, near⟩ := h.2.2.2 hw.abs_lt
  have hle := (near w hw.1).1
  rw [hw.abs_eq, sub_self, abs_zero] at hle
  have hu : (units w : ℝ) = units v := sub_eq_zero.1 (abs_nonpos_iff.1 hle)
  refine ⟨hfin, ?_⟩
  rw [signedUnits_abs, h.2.1 hx, ← hu, ← hw.abs_eq]
  rcases lt_or_gt_of_ne hx with hneg | hpos
  · simp [hneg, abs_of_neg hneg]
  · simp [not_lt.2 hpos.le, abs_of_pos hpos]

/-- From the midpoint above the largest finite value on, a positive number rounds to infinity. -/
theorem roundsTo_inf {x : ℝ} (h : (2 : ℝ) ^ 128 - 2 ^ 103 ≤ x) : RoundsTo x (inf32 false) := by
  have hx : 0 < x := lt_of_lt_of_le (by norm_num) h
  refine ⟨fun h0 => absurd h0 hx.ne', fun _ => ?_, fun _ => by decide, fun hlt => ?_⟩
  · rw [decide_eq_false (not_lt.2 hx.le)]
    decide
  · rw [abs_of_pos hx] at hlt
    exact absurd h (not_le.2 hlt)

/-- A positive number below half the least subnormal rounds to +0.0. -/
theorem roundsTo_zero_of_lt {x : ℝ} (hx : 0 < x) (h : x * 2 ^ 149 < 1 / 2) : RoundsTo x zero32 := by
  refine ⟨fun h0 => absurd h0 hx.ne', fun _ => ?_, fun hbig => ?_, fun _ => ?_⟩
  · rw [decide_eq_false (not_lt.2 hx.le)]
    decide
  · rw [abs_of_pos hx] at hbig
    have := mul_le_mul_of_nonneg_right hbig (by positivity : (0 : ℝ) ≤ 2 ^ 149)
    norm_num at this h
    linarith
  refine ⟨valueOf_zero32.1, fun w _ => ⟨?_, fun _ _ => by decide⟩⟩
  rw [nearer_iff, abs_of_pos hx, show units zero32 = 0 by decide, Nat.cast_zero, sub_zero, zero_add]
  rcases Nat.eq_zero_or_pos (units w) with h0 | h0
  · rw [h0, Nat.cast_zero, zero_mul, zero_mul]
  · have h1 : (1 : ℝ) ≤ units w := by exact_mod_cast h0
    exact mul_le_mul_of_nonneg_left (by linarith) (by linarith)

/-! ### The operations case by case (R17, R18, log entry 21)

One equation for each operation and class of operands: a NaN, an infinity, finite operands. -/

section Cases

variable {a b : Word}

theorem add32_of_nan (h : isNaN32 a = true ∨ isNaN32 b = true) : add32 a b = canonicalNaN :=
  if_pos (by simpa using h)

theorem sub32_of_nan (h : isNaN32 a = true ∨ isNaN32 b = true) : sub32 a b = canonicalNaN :=
  if_pos (by simpa using h)

theorem mul32_of_nan (h : isNaN32 a = true ∨ isNaN32 b = true) : mul32 a b = canonicalNaN :=
  if_pos (by simpa using h)

theorem div32_of_nan (h : isNaN32 a = true ∨ isNaN32 b = true) : div32 a b = canonicalNaN :=
  if_pos (by simpa using h)

/-- Subtraction of numbers is the addition of the negation. -/
theorem sub32_eq_add32 (ha : isNaN32 a = false) (hb : isNaN32 b = false) : sub32 a b = add32 a (neg32 b) := by
  simp [sub32, ha, hb]

theorem add32_inf_left (ha : isInf32 a = true) (hb : isNaN32 b = false) :
    add32 a b = if isInf32 b = true ∧ signBit a ≠ signBit b then canonicalNaN else a := by
  simp [add32, inf_not_nan ha, hb, ha]

theorem sub32_inf_left (ha : isInf32 a = true) (hb : isNaN32 b = false) :
    sub32 a b = if isInf32 b = true ∧ signBit a = signBit b then canonicalNaN else a := by
  rw [sub32_eq_add32 (inf_not_nan ha) hb, add32_inf_left ha (by rwa [isNaN32_neg32]), isInf32_neg32, signBit_neg32]
  simp only [Bool.ne_not]

theorem add32_inf_right (hna : isNaN32 a = false) (ha : isInf32 a = false) (hb : isInf32 b = true) :
    add32 a b = b := by
  simp [add32, hna, inf_not_nan hb, ha, hb]

theorem sub32_inf_right (hna : isNaN32 a = false) (ha : isInf32 a = false) (hb : isInf32 b = true) :
    sub32 a b = neg32 b := by
  rw [sub32_eq_add32 hna (inf_not_nan hb), add32_inf_right hna ha (by rwa [isInf32_neg32])]

theorem add32_finite (ha : isFinite32 a) (hb : isFinite32 b) :
    add32 a b = if signedUnits a + signedUnits b = 0 then packSign (signBit a && signBit b) 0
      else f32OfRat (signedUnits a + signedUnits b) (2 ^ 149) := by
  simp [add32, isFinite_flags ha, isFinite_flags hb]

theorem mul32_inf (ha : isNaN32 a = false) (hb : isNaN32 b = false) (h : isInf32 a = true ∨ isInf32 b = true) :
    mul32 a b = if isZero32 a = true ∨ isZero32 b = true then canonicalNaN
      else inf32 (signBit a != signBit b) := by
  simp [mul32, ha, hb, h]

theorem mul32_finite (ha : isFinite32 a) (hb : isFinite32 b) :
    mul32 a b = packSign (signBit a != signBit b) (roundMag (units a * units b) (2 ^ 298)) := by
  simp [mul32, isFinite_flags ha, isFinite_flags hb, -Nat.reducePow]

theorem div32_inf_left (ha : isInf32 a = true) (hb : isNaN32 b = false) :
    div32 a b = if isInf32 b = true then canonicalNaN else inf32 (signBit a != signBit b) := by
  simp [div32, inf_not_nan ha, hb, ha]

theorem div32_inf_right (hna : isNaN32 a = false) (ha : isInf32 a = false) (hb : isInf32 b = true) :
    div32 a b = packSign (signBit a != signBit b) 0 := by
  simp [div32, hna, inf_not_nan hb, ha, hb]

theorem div32_by_zero (hna : isNaN32 a = false) (ha : isInf32 a = false) (hb : isZero32 b = true) :
    div32 a b = if isZero32 a = true then canonicalNaN else inf32 (signBit a != signBit b) := by
  have hfin : isFinite32 b := by
    unfold isZero32 at hb
    unfold isFinite32
    rw [of_decide_eq_true hb]
    norm_num
  simp [div32, hna, isFinite_flags hfin, ha, hb]

theorem div32_finite (ha : isFinite32 a) (hb : isFinite32 b) (h0 : isZero32 b = false) :
    div32 a b = packSign (signBit a != signBit b) (roundMag (units a) (units b)) := by
  simp [div32, isFinite_flags ha, isFinite_flags hb, h0]

end Cases

/-! ### NaN results (R18) -/

theorem add32_canonical (a b : Word) : add32 a b = canonicalNaN ∨ isNaN32 (add32 a b) = false := by
  by_cases hn : isNaN32 a = true ∨ isNaN32 b = true
  · exact .inl (add32_of_nan hn)
  obtain ⟨hna, hnb⟩ : isNaN32 a = false ∧ isNaN32 b = false := by simpa using hn
  cases hia : isInf32 a with
  | true =>
    rw [add32_inf_left hia hnb]
    split_ifs
    · exact .inl rfl
    · exact .inr hna
  | false =>
    cases hib : isInf32 b with
    | true =>
      rw [add32_inf_right hna hia hib]
      exact .inr hnb
    | false =>
      rw [add32_finite (finite_of_flags hna hia) (finite_of_flags hnb hib)]
      split_ifs
      · exact .inr (packSign_not_nan _ _ (by norm_num))
      · exact .inr (f32OfRat_not_nan _ _)

theorem sub32_canonical (a b : Word) : sub32 a b = canonicalNaN ∨ isNaN32 (sub32 a b) = false := by
  by_cases hn : isNaN32 a = true ∨ isNaN32 b = true
  · exact .inl (sub32_of_nan hn)
  obtain ⟨hna, hnb⟩ : isNaN32 a = false ∧ isNaN32 b = false := by simpa using hn
  rw [sub32_eq_add32 hna hnb]
  exact add32_canonical a (neg32 b)

theorem mul32_canonical (a b : Word) : mul32 a b = canonicalNaN ∨ isNaN32 (mul32 a b) = false := by
  by_cases hn : isNaN32 a = true ∨ isNaN32 b = true
  · exact .inl (mul32_of_nan hn)
  obtain ⟨hna, hnb⟩ : isNaN32 a = false ∧ isNaN32 b = false := by simpa using hn
  by_cases hi : isInf32 a = true ∨ isInf32 b = true
  · rw [mul32_inf hna hnb hi]
    split_ifs
    · exact .inl rfl
    · exact .inr (isNaN32_inf32 _)
  · obtain ⟨hia, hib⟩ : isInf32 a = false ∧ isInf32 b = false := by simpa using hi
    rw [mul32_finite (finite_of_flags hna hia) (finite_of_flags hnb hib)]
    exact .inr (packSign_not_nan _ _ (roundMag_le _ _))

theorem div32_canonical (a b : Word) : div32 a b = canonicalNaN ∨ isNaN32 (div32 a b) = false := by
  by_cases hn : isNaN32 a = true ∨ isNaN32 b = true
  · exact .inl (div32_of_nan hn)
  obtain ⟨hna, hnb⟩ : isNaN32 a = false ∧ isNaN32 b = false := by simpa using hn
  cases hia : isInf32 a with
  | true =>
    rw [div32_inf_left hia hnb]
    split_ifs
    · exact .inl rfl
    · exact .inr (isNaN32_inf32 _)
  | false =>
    cases hib : isInf32 b with
    | true =>
      rw [div32_inf_right hna hia hib]
      exact .inr (packSign_not_nan _ _ (by norm_num))
    | false =>
      cases hz : isZero32 b with
      | true =>
        rw [div32_by_zero hna hia hz]
        split_ifs
        · exact .inl rfl
        · exact .inr (isNaN32_inf32 _)
      | false =>
        rw [div32_finite (finite_of_flags hna hia) (finite_of_flags hnb hib) hz]
        exact .inr (packSign_not_nan _ _ (roundMag_le _ _))

/-- A result that is the canonical NaN or no NaN, and the canonical NaN under `p`, is a NaN under `p` and then
canonical. -/
theorem nan_spec_of_canonical {r : Word} {p : Prop} (h : r = canonicalNaN ∨ isNaN32 r = false)
    (hp : p → r = canonicalNaN) : (isNaN32 r = true → r = canonicalNaN) ∧ (p → isNaN32 r = true) := by
  refine ⟨fun hr => h.resolve_right (by simp [hr]), fun h' => ?_⟩
  rw [hp h']
  decide

/-- `neg32` bit by bit. -/
theorem getLsbD_neg32 (a : Word) {i : Nat} (hi : i < 32) :
    (neg32 a).getLsbD i = if i = 31 then !a.getLsbD 31 else a.getLsbD i := by
  have hmask : ∀ j < 32, (0x80000000 : Word).getLsbD j = decide (j = 31) := by decide
  rw [neg32, BitVec.getLsbD_xor, hmask i hi]
  by_cases h : i = 31
  · simp [h]
  · simp [h]

/-- An infinity with the sign of a product or quotient. -/
theorem inf32_bne (s t : Bool) : inf32 (s != t) = if s = t then 0x7F800000 else 0xFF800000 := by
  rw [inf32_eq]
  cases s <;> cases t <;> rfl

/-- A zero with the sign of a product or quotient. -/
theorem packSign_bne_zero (s t : Bool) : packSign (s != t) 0 = if s = t then 0 else 0x80000000 := by
  rw [packSign_zero]
  cases s <;> cases t <;> rfl

/-! ### Exact results rounded once (R17) -/

section Values

variable {a b : Word} {x y : ℝ}

/-- The units of the operands sum to zero where the numbers do. -/
theorem ValueOf.add_eq_zero_iff (ha : ValueOf a x) (hb : ValueOf b y) :
    x + y = 0 ↔ signedUnits a + signedUnits b = 0 := by
  have e : ((signedUnits a + signedUnits b : Int) : ℝ) = (x + y) * 2 ^ 149 := by
    rw [Int.cast_add, ha.signedUnits_eq, hb.signedUnits_eq, add_mul]
  rw [← Int.cast_eq_zero (α := ℝ), e]
  simp

theorem add32_roundsTo (ha : ValueOf a x) (hb : ValueOf b y) (h : x + y ≠ 0) : RoundsTo (x + y) (add32 a b) := by
  rw [add32_finite ha.1 hb.1, if_neg (mt (ha.add_eq_zero_iff hb).2 h)]
  have e : x + y = ((signedUnits a + signedUnits b : Int) : ℝ) / (2 ^ 149 : Nat) := by
    rw [ha.2, hb.2, ← add_div, Int.cast_add, Nat.cast_pow, Nat.cast_ofNat]
  rw [e]
  exact roundsTo_f32OfRat_of_pos _ (by positivity)

theorem add32_of_sum_zero (ha : ValueOf a x) (hb : ValueOf b y) (h : x + y = 0) :
    add32 a b = packSign (signBit a && signBit b) 0 := by
  rw [add32_finite ha.1 hb.1, if_pos ((ha.add_eq_zero_iff hb).1 h)]

theorem ValueOf.not_nan (ha : ValueOf a x) : isNaN32 a = false := (isFinite_flags ha.1).1

theorem sub32_roundsTo (ha : ValueOf a x) (hb : ValueOf b y) (h : x - y ≠ 0) : RoundsTo (x - y) (sub32 a b) := by
  rw [sub32_eq_add32 ha.not_nan hb.not_nan, sub_eq_add_neg]
  exact add32_roundsTo ha hb.neg (by rwa [← sub_eq_add_neg])

theorem sub32_of_difference_zero (ha : ValueOf a x) (hb : ValueOf b y) (h : x - y = 0) :
    sub32 a b = packSign (signBit a && !signBit b) 0 := by
  rw [sub32_eq_add32 ha.not_nan hb.not_nan, add32_of_sum_zero ha hb.neg (by rwa [← sub_eq_add_neg]), signBit_neg32]

/-- The sign of a product or quotient as a factor. -/
theorem sign_factor_bne (s t : Bool) :
    (if (s != t) then (-1 : ℝ) else 1) = (if s then -1 else 1) * (if t then -1 else 1) := by
  cases s <;> cases t <;> simp

theorem sign_factor_inv (s : Bool) : (if s then (-1 : ℝ) else 1)⁻¹ = if s then -1 else 1 := by
  cases s <;> simp

theorem mul32_roundsTo (ha : ValueOf a x) (hb : ValueOf b y) (h : x * y ≠ 0) : RoundsTo (x * y) (mul32 a b) := by
  obtain ⟨hx, hy⟩ := mul_ne_zero_iff.1 h
  have hpos : 0 < units a * units b :=
    Nat.mul_pos (Nat.pos_of_ne_zero (mt ha.eq_zero_iff.2 hx)) (Nat.pos_of_ne_zero (mt hb.eq_zero_iff.2 hy))
  rw [mul32_finite ha.1 hb.1]
  refine roundsTo_pack _ _ (by positivity) hpos _ _ ?_
  rw [sign_factor_bne, ha.eq_sign_mul, hb.eq_sign_mul, Nat.cast_mul, Nat.cast_pow, Nat.cast_ofNat,
    show (2 : ℝ) ^ 298 = 2 ^ 149 * 2 ^ 149 by rw [← pow_add]]
  ring

theorem mul32_of_product_zero (ha : ValueOf a x) (hb : ValueOf b y) (h : x * y = 0) :
    mul32 a b = packSign (signBit a != signBit b) 0 := by
  have h0 : units a * units b = 0 := by
    rcases mul_eq_zero.1 h with hx | hy
    · rw [ha.eq_zero_iff.1 hx, Nat.zero_mul]
    · rw [hb.eq_zero_iff.1 hy, Nat.mul_zero]
  rw [mul32_finite ha.1 hb.1, h0, roundMag_zero]

theorem ValueOf.not_zero (hb : ValueOf b y) (hy : y ≠ 0) : isZero32 b = false :=
  Bool.eq_false_iff.2 (mt hb.isZero32_iff.1 hy)

theorem div32_roundsTo (ha : ValueOf a x) (hb : ValueOf b y) (hy : y ≠ 0) (h : x / y ≠ 0) :
    RoundsTo (x / y) (div32 a b) := by
  have hx : x ≠ 0 := (div_ne_zero_iff.1 h).1
  rw [div32_finite ha.1 hb.1 (hb.not_zero hy)]
  refine roundsTo_pack _ _ (Nat.pos_of_ne_zero (mt hb.eq_zero_iff.2 hy))
    (Nat.pos_of_ne_zero (mt ha.eq_zero_iff.2 hx)) _ _ ?_
  rw [sign_factor_bne, ha.eq_sign_mul, hb.eq_sign_mul, mul_div_mul_comm, div_div_div_cancel_right₀ (by positivity),
    div_eq_mul_inv (if signBit a then _ else _), sign_factor_inv]

theorem div32_of_zero_left (ha : ValueOf a x) (hb : ValueOf b y) (hy : y ≠ 0) (hx : x = 0) :
    div32 a b = packSign (signBit a != signBit b) 0 := by
  rw [div32_finite ha.1 hb.1 (hb.not_zero hy), ha.eq_zero_iff.1 hx, roundMag_zero]

/-! ### Comparisons (R17) -/

theorem natAbs_orderKey (v : Word) : (orderKey v).natAbs = magnitude v := by
  unfold orderKey
  split <;> simp

theorem ge32_eq_true_iff (a b : Word) :
    ge32 a b = true ↔ isNaN32 a = false ∧ isNaN32 b = false ∧ orderKey b ≤ orderKey a := by
  simp [ge32, and_assoc]

/-- The order keys of finite patterns order as their numbers do. -/
theorem ValueOf.orderKey_lt_iff (ha : ValueOf a x) (hb : ValueOf b y) : orderKey a < orderKey b ↔ x < y := by
  rw [Machine.orderKey_lt_iff, ha.2, hb.2, div_lt_div_iff_of_pos_right (by positivity), Int.cast_lt]

theorem lt32_iff (ha : ValueOf a x) (hb : ValueOf b y) : lt32 a b = true ↔ x < y := by
  simp [lt32, ha.not_nan, hb.not_nan, ha.orderKey_lt_iff hb]

theorem ge32_iff (ha : ValueOf a x) (hb : ValueOf b y) : ge32 a b = true ↔ y ≤ x := by
  simp [ge32_eq_true_iff, ha.not_nan, hb.not_nan, ← not_lt, ha.orderKey_lt_iff hb]

end Values

theorem lt32_of_nan {a b : Word} (h : isNaN32 a = true ∨ isNaN32 b = true) : lt32 a b = false := by
  rcases h with h | h <;> simp [lt32, h]

theorem ge32_of_nan {a b : Word} (h : isNaN32 a = true ∨ isNaN32 b = true) : ge32 a b = false := by
  rcases h with h | h <;> simp [ge32, h]

/-! ### The range of the draws (R11) -/

/-- Lying in [-1.0, 1.0] is having a magnitude up to that of 1.0; in particular it is being no NaN. -/
theorem in_unit_range_iff (v : Word) :
    (ge32 v 0xBF800000 = true ∧ ge32 0x3F800000 v = true) ↔ magnitude v ≤ 0x3F800000 := by
  have nan : isNaN32 0xBF800000 = false ∧ isNaN32 0x3F800000 = false := by decide
  have key : orderKey 0xBF800000 = -0x3F800000 ∧ orderKey 0x3F800000 = 0x3F800000 := by decide
  rw [ge32_eq_true_iff, ge32_eq_true_iff, nan.1, nan.2, key.1, key.2]
  have habs := natAbs_orderKey v
  constructor
  · rintro ⟨⟨-, -, h1⟩, -, -, h2⟩
    omega
  · intro h
    have hv := isNaN32_of_magnitude_le (h.trans (by norm_num))
    exact ⟨⟨hv, rfl, by omega⟩, rfl, hv, by omega⟩

theorem magnitude_unitRange_le (v : Word) : magnitude (unitRange v) ≤ 0x3F800000 := by
  unfold unitRange
  split
  · assumption
  · decide

theorem unitRange_of_magnitude_le {v : Word} (h : magnitude v ≤ 0x3F800000) : unitRange v = v := if_pos h

theorem exec_oscTick (lfo : Bool) (s : State) :
    exec (.oscTick lfo) s =
      .next (((s.setOsc (s.osc.tick (s.lfoOperand lfo) (noiseSample s.draws))).drawFor).report .ok) := rfl

theorem Oscillator.sample_whiteNoise {o : Oscillator} (h : o.wave = .whiteNoise) (p e noise : Word) :
    o.sample p e noise = noise := by
  simp [Oscillator.sample, h]

/-- What a white-noise tick answers: its draw, and the count of draws one higher. -/
theorem exec_oscTick_whiteNoise {s : State} (h : s.osc.wave = .whiteNoise) (lfo : Bool) :
    ∃ t, exec (.oscTick lfo) s = .next t ∧ t.osc.out = unitRange (Config.noiseRaw s.draws) ∧
      t.draws = s.draws + 1 := by
  refine ⟨_, exec_oscTick lfo s, ?_, ?_⟩
  · simp [Oscillator.sample_whiteNoise h, noiseSample]
  · simp [State.drawFor_draws, h]

/-! ### Fixed point (R22) -/

/-- A fixed-point number below 2^24 in absolute value is the value of a pattern. -/
theorem exists_valueOf_q30 {z : Int} (h : |z| < 2 ^ 24) : ∃ v, ValueOf v ((z : ℝ) / 2 ^ 30) := by
  have e : (z : ℝ) / 2 ^ 30 = (z * 2 ^ 119 : ℝ) / 2 ^ 149 := by
    rw [show (2 : ℝ) ^ 149 = 2 ^ 30 * 2 ^ 119 by rw [← pow_add], mul_div_mul_right _ _ (by positivity)]
  rw [e]
  exact exists_valueOf h (by norm_num)

theorem q30ToF32_roundsTo (q : Word) : RoundsTo ((q.toInt : ℝ) / 2 ^ 30) (q30ToF32 q) := by
  have := roundsTo_f32OfRat_of_pos q.toInt (d := 2 ^ 30) (by positivity)
  rwa [Nat.cast_pow, Nat.cast_ofNat] at this

/-! ### Sine and cosine (R19) -/

section Circular

variable {a : Word} {x : ℝ}

theorem sin32_of_not_finite (h : ¬ isFinite32 a) : sin32 a = canonicalNaN := if_pos (nan_or_inf_of_not_finite h)

theorem cos32_of_not_finite (h : ¬ isFinite32 a) : cos32 a = canonicalNaN := if_pos (nan_or_inf_of_not_finite h)

theorem sin32_of_zero (h : isFinite32 a) (hz : isZero32 a = true) : sin32 a = zero32 := by
  rw [sin32, if_neg (by simp [isFinite_flags h]), if_pos hz]

theorem cos32_of_zero (h : isFinite32 a) (hz : isZero32 a = true) : cos32 a = one32 := by
  rw [cos32, if_neg (by simp [isFinite_flags h]), if_pos hz]

/-- The sine is odd: that of the absolute value is enclosed, and its negation rounded for a negative operand. -/
theorem sin32_of_nonzero (h : isFinite32 a) (hz : isZero32 a = false) :
    sin32 a = if signBit a then
        roundEncNeg (encCisRat (units a) (2 ^ 149)).2 fun _ => sinFloor (signedUnits a / 2 ^ 149)
      else roundEnc (encCisRat (units a) (2 ^ 149)).2 fun _ => sinFloor (signedUnits a / 2 ^ 149) := by
  rw [sin32, if_neg (by simp [isFinite_flags h]), if_neg (by simp [hz])]

theorem cos32_of_nonzero (h : isFinite32 a) (hz : isZero32 a = false) :
    cos32 a = roundEnc (encCisRat (units a) (2 ^ 149)).1 fun _ => cosFloor (signedUnits a / 2 ^ 149) := by
  rw [cos32, if_neg (by simp [isFinite_flags h]), if_neg (by simp [hz])]

/-- The rational a finite operand stands for, from which its exact floors are taken. -/
theorem ValueOf.eq_ratCast (h : ValueOf a x) : x = ((signedUnits a / 2 ^ 149 : ℚ) : ℝ) := by
  rw [h.2]
  push_cast
  rfl

/-- The cosine and the sine of an operand's absolute value are enclosed. -/
theorem encCisRat_units_holds (a : Word) : CisHolds (encCisRat (units a) (2 ^ 149)) ((units a : ℝ) / 2 ^ 149) := by
  have := encCisRat_holds (units a) (d := 2 ^ 149) (by positivity)
  rwa [Nat.cast_pow, Nat.cast_ofNat] at this

theorem ValueOf.ratCast_ne_zero (h : ValueOf a x) (hx : x ≠ 0) : (signedUnits a / 2 ^ 149 : ℚ) ≠ 0 := by
  intro h0
  rw [h.eq_ratCast, h0, Rat.cast_zero] at hx
  exact hx rfl

theorem sin32_roundsTo (h : ValueOf a x) : RoundsTo (Real.sin x) (sin32 a) := by
  by_cases hx : x = 0
  · rw [sin32_of_zero h.1 (h.isZero32_iff.2 hx), hx, Real.sin_zero]
    exact roundsTo_zero
  have floor := sinFloor_spec (h.ratCast_ne_zero hx)
  rw [← h.eq_ratCast] at floor
  have enc := (encCisRat_units_holds a).2
  rw [sin32_of_nonzero h.1 (h.not_zero hx)]
  cases hs : signBit a with
  | true =>
    rw [if_pos rfl]
    have e : (units a : ℝ) / 2 ^ 149 = -x := by rw [h.eq_sign_mul, hs]; simp
    rw [e, Real.sin_neg] at enc
    have := roundEncNeg_roundsTo (floor := fun _ => sinFloor (signedUnits a / 2 ^ 149)) enc (by rwa [neg_neg])
    rwa [neg_neg] at this
  | false =>
    rw [if_neg Bool.false_ne_true]
    have e : (units a : ℝ) / 2 ^ 149 = x := by rw [h.eq_sign_mul, hs]; simp
    rw [e] at enc
    exact roundEnc_roundsTo (floor := fun _ => sinFloor (signedUnits a / 2 ^ 149)) enc floor

theorem cos32_roundsTo (h : ValueOf a x) : RoundsTo (Real.cos x) (cos32 a) := by
  by_cases hx : x = 0
  · rw [cos32_of_zero h.1 (h.isZero32_iff.2 hx), hx, Real.cos_zero]
    exact roundsTo_one
  have floor := cosFloor_spec (h.ratCast_ne_zero hx)
  rw [← h.eq_ratCast] at floor
  have enc := (encCisRat_units_holds a).1
  have e : Real.cos ((units a : ℝ) / 2 ^ 149) = Real.cos x := by
    rw [h.eq_sign_mul]
    cases signBit a <;> simp
  rw [e] at enc
  rw [cos32_of_nonzero h.1 (h.not_zero hx)]
  exact roundEnc_roundsTo (floor := fun _ => cosFloor (signedUnits a / 2 ^ 149)) enc floor

end Circular

/-! ### The power of two (R19) -/

/-- An operand is its integer part and its fraction. -/
theorem ValueOf.eq_floor_add_fract {a : Word} {x : ℝ} (h : ValueOf a x) :
    x = ((signedUnits a / 2 ^ 149 : Int) : ℝ) + ((signedUnits a % 2 ^ 149).toNat : ℝ) / 2 ^ 149 := by
  have hm : 0 ≤ signedUnits a % 2 ^ 149 := Int.emod_nonneg _ (by norm_num)
  have hd : (signedUnits a : ℝ) =
      2 ^ 149 * ((signedUnits a / 2 ^ 149 : Int) : ℝ) + ((signedUnits a % 2 ^ 149 : Int) : ℝ) := by
    have := congrArg (Int.cast (R := ℝ)) (Int.mul_ediv_add_emod (signedUnits a) (2 ^ 149))
    rw [Int.cast_add, Int.cast_mul, Int.cast_pow, Int.cast_ofNat] at this
    exact this.symm
  have ht : (((signedUnits a % 2 ^ 149).toNat : Nat) : ℝ) = ((signedUnits a % 2 ^ 149 : Int) : ℝ) := by
    exact_mod_cast Int.toNat_of_nonneg hm
  rw [h.2, ht, hd, add_div, mul_div_cancel_left₀ _ (by positivity)]

/-- An integer power of two as the quotient `exp2_32` forms. -/
theorem two_zpow_eq_div (n : Int) : (2 : ℝ) ^ (n : ℝ) = 2 ^ n.toNat / 2 ^ (-n).toNat := by
  have hn : (n : ℝ) = (n.toNat : ℝ) - ((-n).toNat : ℝ) := by
    exact_mod_cast (by omega : n = (n.toNat : Int) - ((-n).toNat : Int))
  rw [hn, Real.rpow_sub (by norm_num), Real.rpow_natCast, Real.rpow_natCast]

/-- From 2^128 on a power of two rounds to infinity. -/
theorem roundsTo_two_rpow_of_le {x : ℝ} (h : 128 ≤ x) : RoundsTo ((2 : ℝ) ^ x) (inf32 false) := by
  refine roundsTo_inf ?_
  calc (2 : ℝ) ^ 128 - 2 ^ 103 ≤ 2 ^ 128 := sub_le_self _ (by positivity)
    _ = (2 : ℝ) ^ ((128 : ℕ) : ℝ) := (Real.rpow_natCast 2 128).symm
    _ ≤ (2 : ℝ) ^ x := Real.rpow_le_rpow_of_exponent_le (by norm_num) (by exact_mod_cast h)

/-- Below half the least subnormal, 2^-150, a power of two rounds to zero. -/
theorem roundsTo_two_rpow_of_lt {x : ℝ} (h : x < -150) : RoundsTo ((2 : ℝ) ^ x) zero32 := by
  refine roundsTo_zero_of_lt (by positivity) ?_
  calc (2 : ℝ) ^ x * 2 ^ 149 = (2 : ℝ) ^ (x + ((149 : ℕ) : ℝ)) := by
        rw [Real.rpow_add (by norm_num), Real.rpow_natCast]
    _ < (2 : ℝ) ^ (-1 : ℝ) := Real.rpow_lt_rpow_of_exponent_lt (by norm_num) (by push_cast; linarith)
    _ = 1 / 2 := by rw [Real.rpow_neg_one, one_div]

/-- At an integer the power of two is a rational. -/
theorem roundsTo_two_rpow_int (n : Int) :
    RoundsTo ((2 : ℝ) ^ (n : ℝ)) (f32OfRat (2 ^ n.toNat) (2 ^ (-n).toNat)) := by
  have := roundsTo_f32OfRat_of_pos (2 ^ n.toNat) (d := 2 ^ (-n).toNat) (by positivity)
  rwa [Int.cast_pow, Int.cast_ofNat, Nat.cast_pow, Nat.cast_ofNat, ← two_zpow_eq_div] at this

/-- Between integers the enclosure of `2^f`, scaled by `2^n`, or else the exact floor decides. -/
theorem roundsTo_two_rpow_fract {n : Int} (hn : -151 ≤ n) {f : Nat} (h0 : f ≠ 0) (hf : f < 2 ^ 149) :
    RoundsTo ((2 : ℝ) ^ ((n : ℝ) + f / 2 ^ 149))
      (roundEnclosed ((encExpTwo f).lo * 2 ^ n.toNat) ((encExpTwo f).hi * 2 ^ n.toNat)
        (encScale * 2 ^ (-n).toNat) fun _ => expTwoFloor n f) := by
  obtain ⟨hlo, hhi⟩ := encExpTwo_holds hf
  have hx : (2 : ℝ) ^ ((n : ℝ) + f / 2 ^ 149) * (encScale * 2 ^ (-n).toNat : Nat) =
      (2 : ℝ) ^ ((f : ℝ) / 2 ^ 149) * encScale * 2 ^ n.toNat := by
    rw [Real.rpow_add (by norm_num), two_zpow_eq_div]
    push_cast
    field_simp
  refine roundEnclosed_roundsTo (Nat.mul_pos (by exact_mod_cast encScale_pos) (by positivity)) ?_ ?_
    (expTwoFloor_spec hn h0 hf)
  · rw [hx, Int.cast_mul, Int.cast_pow, Int.cast_ofNat]
    exact mul_le_mul_of_nonneg_right hlo (by positivity)
  · rw [hx, Int.cast_mul, Int.cast_pow, Int.cast_ofNat]
    exact mul_le_mul_of_nonneg_right hhi (by positivity)

theorem exp2_32_roundsTo {a : Word} {x : ℝ} (h : ValueOf a x) : RoundsTo ((2 : ℝ) ^ x) (exp2_32 a) := by
  obtain ⟨hn, hi⟩ := isFinite_flags h.1
  have hx := h.eq_floor_add_fract
  have hf : (signedUnits a % 2 ^ 149).toNat < 2 ^ 149 := by
    have := Int.emod_lt_of_pos (signedUnits a) (by norm_num : (0 : Int) < 2 ^ 149)
    omega
  simp only [exp2_32, hn, hi, Bool.false_eq_true, if_false]
  generalize signedUnits a / 2 ^ 149 = n at hx ⊢
  generalize (signedUnits a % 2 ^ 149).toNat = f at hx hf ⊢
  have fract_nonneg : (0 : ℝ) ≤ (f : ℝ) / 2 ^ 149 := by positivity
  have fract_lt : (f : ℝ) / 2 ^ 149 < 1 := by
    rw [div_lt_one (by positivity)]
    exact_mod_cast hf
  split_ifs with hbig hsmall h0
  · have : (128 : ℝ) ≤ n := by exact_mod_cast hbig
    exact roundsTo_two_rpow_of_le (by linarith)
  · have : (n : ℝ) < -151 := by exact_mod_cast hsmall
    exact roundsTo_two_rpow_of_lt (by linarith)
  · rw [hx, h0, Nat.cast_zero, zero_div, add_zero]
    exact roundsTo_two_rpow_int n
  · rw [hx]
    exact roundsTo_two_rpow_fract (by omega) h0 hf

theorem exp2_32_of_nan {a : Word} (h : isNaN32 a = true) : exp2_32 a = canonicalNaN := if_pos h

/-! ### The obligations -/

/-- Settles O36: a white-noise tick answers `unitRange` of its draw, whose magnitude is at most that of 1.0. -/
theorem noiseStaysInUnitRange : Obligations.NoiseStaysInUnitRange := by
  refine ⟨fun s lfo hw => ?_, fun v h1 h2 => unitRange_of_magnitude_le ((in_unit_range_iff v).1 ⟨h1, h2⟩)⟩
  obtain ⟨t, ht, hout, hdraws⟩ := exec_oscTick_whiteNoise hw lfo
  have hmag : magnitude t.osc.out ≤ 0x3F800000 := hout ▸ magnitude_unitRange_le _
  obtain ⟨hlo, hhi⟩ := (in_unit_range_iff _).2 hmag
  exact ⟨t, ht, hout, hdraws, hlo, hhi, isNaN32_of_magnitude_le (hmag.trans (by norm_num))⟩

/-- Settles O40: an exact zero is +0.0, and every other rational is rounded by its integer quotient. -/
theorem rationalsRoundToNearestEven : Obligations.RationalsRoundToNearestEven :=
  fun n _ hd => roundsTo_f32OfRat_of_pos n hd

/-- Settles O41: each operation rounds its exact integer quotient once; its exact zeros are signed zeros. -/
theorem arithmeticRoundsExactResult : Obligations.ArithmeticRoundsExactResult := by
  intro a b x y ha hb zero
  refine ⟨⟨add32_roundsTo ha hb, sub32_roundsTo ha hb, mul32_roundsTo ha hb, div32_roundsTo ha hb⟩,
    fun h => ?_, fun h => ?_, fun h => ?_, fun hy hx => ?_⟩
  · rw [add32_of_sum_zero ha hb h, packSign_zero]
  · rw [sub32_of_difference_zero ha hb h, packSign_zero]
  · rw [mul32_of_product_zero ha hb h, packSign_zero]
  · rw [div32_of_zero_left ha hb hy hx, packSign_zero]

/-- Settles O42, from the equations of the operations on NaNs, infinities and zeros. -/
theorem nanResultsAreCanonical : Obligations.NaNResultsAreCanonical := by
  refine ⟨?_, fun a i hi => getLsbD_neg32 a hi, fun a b hna hnb => ?_⟩
  · rintro a b r (rfl | rfl | rfl | rfl)
    · exact nan_spec_of_canonical (add32_canonical a b) add32_of_nan
    · exact nan_spec_of_canonical (sub32_canonical a b) sub32_of_nan
    · exact nan_spec_of_canonical (mul32_canonical a b) mul32_of_nan
    · exact nan_spec_of_canonical (div32_canonical a b) div32_of_nan
  · refine ⟨fun ha => add32_inf_left ha hnb, fun ha => sub32_inf_left ha hnb,
      fun ha hb => ⟨add32_inf_right hna ha hb, sub32_inf_right hna ha hb⟩, fun h => ?_, fun ha => ?_,
      fun ha hb => ?_, fun ha hz => ?_⟩
    · rw [mul32_inf hna hnb h, inf32_bne]
      rfl
    · rw [div32_inf_left ha hnb, inf32_bne]
      rfl
    · rw [div32_inf_right hna ha hb, packSign_bne_zero]
    · rw [div32_by_zero hna ha hz, inf32_bne]
      rfl

/-- Settles O43: the order keys of finite patterns order as their numbers do. -/
theorem comparisonsOrderValues : Obligations.ComparisonsOrderValues :=
  ⟨fun _ _ _ _ ha hb => ⟨lt32_iff ha hb, ge32_iff ha hb⟩, fun _ _ h => ⟨lt32_of_nan h, ge32_of_nan h⟩⟩

/-- Settles O44: a fixed-point number below 2^24 in absolute value has a pattern, and rounding keeps it. -/
theorem fixedPointConversionRounds : Obligations.FixedPointConversionRounds := by
  refine ⟨q30ToF32_roundsTo, fun q hq => ?_⟩
  obtain ⟨v, hv⟩ := exists_valueOf_q30 hq
  exact (q30ToF32_roundsTo q).valueOf hv

/-- Settles O45: the enclosures hold the sine and the cosine, the exact floors decide the rest, and rounding
gives one pattern only. -/
theorem sineAndCosineCorrectlyRounded : Obligations.SineAndCosineCorrectlyRounded :=
  ⟨fun _ _ h => ⟨(sin32_roundsTo h).iff_eq, (cos32_roundsTo h).iff_eq⟩,
    fun _ h => ⟨sin32_of_not_finite h, cos32_of_not_finite h⟩⟩

/-- Settles O46: out of range by the bounds of the exponent, exactly at an integer, and by the scaled enclosure
and the exact floor elsewhere. -/
theorem expTwoCorrectlyRounded : Obligations.ExpTwoCorrectlyRounded :=
  ⟨fun _ _ h => (exp2_32_roundsTo h).iff_eq, fun _ h => exp2_32_of_nan h, by decide, by decide⟩

end Sys2Proof.Machine
end

section
/-! PROOFS. The statements of 10_state.md: what reset leaves (R64), what a host reads at each register's
offset (R36), and the invariant of the block, which reset has and every step keeps (R40 to R48, R54, R61).
First the words and the bus, then the invariant of each unit, then the commands, then the obligations. -/

namespace Sys2Proof.Machine

/-! ### Words a host reads -/

theorem loWord_toNat (t : Time) : (loWord t).toNat = t.toNat % 2 ^ 32 := by
  simp [loWord]

theorem hiWord_toNat (t : Time) : (hiWord t).toNat = t.toNat / 2 ^ 32 := by
  have := t.isLt
  simp only [hiWord, BitVec.extractLsb'_toNat, Nat.shiftRight_eq_div_pow]
  omega

/-- A value of at most 31 bits is held whole. -/
theorem toNat_ofNat_of_le_two_pow {n k : Nat} (h : n ≤ 2 ^ k) (hk : k < 32) : (BitVec.ofNat 32 n).toNat = n :=
  Nat.mod_eq_of_lt (h.trans_lt (Nat.pow_lt_pow_right (by decide) hk))

/-- A three-bit code with a flag at bit `k` above it, as STATUS, ENV_STAT and OSC_CFG are read. -/
theorem codeAndFlag_toNat {n k : Nat} (hn : n < 2 ^ 3) (hk : k ≤ 8) (b : Bool) :
    (BitVec.ofNat 32 (n + 2 ^ k * flagNat b)).toNat = n + if b then 2 ^ k else 0 := by
  have hpow : 2 ^ k ≤ 2 ^ 8 := Nat.pow_le_pow_right (by decide) hk
  cases b <;> simp only [flagNat, BitVec.toNat_ofNat, reduceIte, Bool.false_eq_true] <;> omega

theorem ResultCode.number_lt (c : ResultCode) : c.number < 2 ^ 3 := by cases c <;> decide

theorem EnvPhase.number_lt (p : EnvPhase) : p.number < 2 ^ 3 := by cases p <;> decide

theorem Waveform.number_lt (w : Waveform) : w.number < 2 ^ 3 := by cases w <;> decide

theorem Status.toWord_toNat (st : Status) :
    st.toWord.toNat = st.code.number + if st.err then 2 ^ 8 else 0 :=
  codeAndFlag_toNat st.code.number_lt (by decide) st.err

theorem Envelope.statWord_toNat (e : Envelope) :
    e.statWord.toNat = e.phase.number + if e.sched then 2 ^ 3 else 0 :=
  codeAndFlag_toNat e.phase.number_lt (by decide) e.sched

theorem Oscillator.cfgWord_toNat (o : Oscillator) :
    o.cfgWord.toNat = o.wave.number + if o.aa then 2 ^ 3 else 0 :=
  codeAndFlag_toNat o.wave.number_lt (by decide) o.aa

/-- Under the invariant LOG2P fits its field. -/
theorem FftUnit.ctrlWord_toNat {u : FftUnit} {l : Nat} (hu : u.Inv l) (hl : l ≤ 21) :
    u.ctrlWord.toNat = u.context.elim 0 fun c => 1 + 2 ^ 8 * c.log2p := by
  unfold FftUnit.ctrlWord
  cases hc : u.context with
  | none => rfl
  | some c =>
    obtain ⟨hlog, -⟩ := hu.1 c hc
    simp only [BitVec.toNat_ofNat, Option.elim_some]
    omega

/-- Under the invariant the padded size fits the word. -/
theorem FftUnit.sizeWord_toNat {u : FftUnit} {l : Nat} (hu : u.Inv l) (hl : l ≤ 21) :
    u.sizeWord.toNat = u.context.elim 0 fun c => 2 ^ c.log2p := by
  unfold FftUnit.sizeWord
  cases hc : u.context with
  | none => rfl
  | some c =>
    obtain ⟨hlog, -⟩ := hu.1 c hc
    have hpow : 2 ^ c.log2p ≤ 2 ^ 21 := Nat.pow_le_pow_right (by decide) (hlog.trans hl)
    exact toNat_ofNat_of_le_two_pow hpow (by decide)

/-- Under legal parameters PARAM0 packs LOG2_PMAX and ENV_NCH whole. -/
theorem param0_toNat {p : Params} (hp : p.Legal) :
    (BitVec.ofNat 32 (p.log2Pmax % 2 ^ 5 + 2 ^ 8 * (p.envNch % 2 ^ 8))).toNat = p.log2Pmax + 2 ^ 8 * p.envNch := by
  obtain ⟨hlog, -, -, ⟨-, hnch⟩, -, -⟩ := hp
  rw [BitVec.toNat_ofNat]
  omega

/-- After reset only PARAM0 to PARAM3 and RB_CAP read what the parameters say. -/
theorem readReg_resetWith (p : Params) {r : Reg} (hr : r ∉ [Reg.param0, .param1, .param2, .param3, .rbCap]) :
    readReg (State.resetWith p) r = readReg State.reset r := by
  cases r with
  | param0 | param1 | param2 | param3 | rbCap => simp at hr
  | _ => rfl

/-! ### The registers an access reaches -/

/-- No fixed row lies among the channels or in DMEM, and each is a multiple of 4. -/
theorem registerMap_row : ∀ row ∈ registerMap,
    ¬ (0x340 ≤ row.1 ∧ row.1 < 0x380) ∧ row.1 < dmemBase ∧ row.1 % 4 = 0 ∧
      findKey registerMap row.1 = some row.2 := by
  decide

theorem accessTarget_fixed {p : Params} (hp : p.Legal) {off : Offset} {r : Reg}
    (h : (off.toNat, r) ∈ registerMap) : accessTarget p off 4 = some r := by
  obtain ⟨-, -, -, ⟨-, hnch⟩, -, -⟩ := hp
  obtain ⟨hchannel, hdmem, halign, hfind⟩ := registerMap_row _ h
  dsimp only at hchannel hdmem halign hfind
  rw [accessTarget, if_pos ⟨rfl, halign⟩, regAt, if_neg (by omega), if_neg (by omega), if_neg (by omega), hfind]

theorem accessTarget_envIn {p : Params} {off : Offset} {c : Nat} (hc : c < p.envNch)
    (h : off.toNat = 0x340 + 4 * c) : accessTarget p off 4 = some (.envIn c) := by
  rw [accessTarget, if_pos ⟨rfl, by omega⟩, regAt, if_pos (by omega), h]
  simp

theorem accessTarget_envOut {p : Params} (hp : p.Legal) {off : Offset} {c : Nat} (hc : c < p.envNch)
    (h : off.toNat = 0x360 + 4 * c) : accessTarget p off 4 = some (.envOut c) := by
  obtain ⟨-, -, -, ⟨-, hnch⟩, -, -⟩ := hp
  rw [accessTarget, if_pos ⟨rfl, by omega⟩, regAt, if_neg (by omega), if_pos (by omega), h]
  simp

/-- The channels and elements the block has under the parameters `p`; every other register it always has. -/
def Reg.Within (p : Params) : Reg → Prop
  | .envIn c => c < p.envNch
  | .envOut c => c < p.envNch
  | .dmemRe i => i < p.dmemSize
  | .dmemIm i => i < p.dmemSize
  | _ => True

/-- An access reaches only channels and elements the block has. -/
theorem accessTarget_within {p : Params} {off : Offset} {n : Nat} {r : Reg}
    (h : accessTarget p off n = some r) : r.Within p := by
  unfold accessTarget at h
  split at h
  · rcases regAt_cases h with ⟨c, rfl, hc, hlo, hhi⟩ | ⟨c, rfl, hc, hlo, hhi⟩ | ⟨i, hr, hi, hlo, hhi⟩ | hrow
    · simp only [Reg.Within]; omega
    · simp only [Reg.Within]; omega
    · rcases hr with ⟨rfl, -⟩ | ⟨rfl, -⟩ <;> simp only [Reg.Within] <;> omega
    · have hfixed : ∀ row ∈ registerMap, row.2.Within p := by simp [registerMap, Reg.Within]
      exact hfixed _ hrow
  · cases h

/-- A read of a register that holds a word answers it and changes only the bus. -/
theorem step_of_read {s : State} {off : Offset} {es : List HostEvent} {r : Reg} {v : Word}
    (hp : s.port.pending = .read off 4 :: es) (ht : accessTarget s.params off 4 = some r)
    (hr : readReg s r = .ok v) :
    step s = .next { s with port := { pending := es, response := some (.data v) } } := by
  have hr' : readReg (s.setPending es) r = .ok v := by rw [← hr]; cases r <;> rfl
  rw [step_of_pending hp]
  simp only [serve, hostRead, State.setPending_params, ht, hr']
  rfl

/-- The fixed row at offset `a` holds the word of value `n`. -/
def State.Holds (s : State) (a n : Nat) : Prop :=
  ∃ r v, (a, r) ∈ registerMap ∧ readReg s r = .ok v ∧ v.toNat = n

theorem State.Holds.step_eq {s : State} {off : Offset} {es : List HostEvent} {n : Nat}
    (h : s.Holds off.toNat n) (hl : s.params.Legal) (hp : s.port.pending = .read off 4 :: es) :
    ∃ v : Word, v.toNat = n ∧
      step s = .next { s with port := { pending := es, response := some (.data v) } } := by
  obtain ⟨r, v, hrow, hread, hv⟩ := h
  exact ⟨v, hv, step_of_read hp (accessTarget_fixed hl hrow) hread⟩

/-- A register that reads a word holds its value at its offset. -/
theorem State.Holds.of_readReg {s : State} (r : Reg) {a n : Nat} {v : Word} (hread : readReg s r = .ok v)
    (hv : v.toNat = n) (hrow : (a, r) ∈ registerMap := by decide) : s.Holds a n :=
  ⟨r, v, hrow, hread, hv⟩

/-! ### The invariant and the updates of the state

The invariant speaks of the parameters, the ring buffer, the envelope, the transform unit, DMEM and the
oscillator alone. -/

@[simp] theorem State.inv_report (s : State) (c : ResultCode) : (s.report c).Inv ↔ s.Inv := Iff.rfl
@[simp] theorem State.inv_respond (s : State) (r : BusResponse) : (s.respond r).Inv ↔ s.Inv := Iff.rfl
@[simp] theorem State.inv_setPending (s : State) (es : List HostEvent) : (s.setPending es).Inv ↔ s.Inv := Iff.rfl
@[simp] theorem State.inv_countDraw (s : State) : s.countDraw.Inv ↔ s.Inv := Iff.rfl

@[simp] theorem State.inv_drawFor (s : State) : s.drawFor.Inv ↔ s.Inv := by
  unfold State.drawFor
  split <;> simp

theorem State.Inv.legal {s : State} (h : s.Inv) : s.params.Legal := h.1

theorem State.Inv.ring {s : State} (h : s.Inv) : s.ring.Inv s.params.rbMax := h.2.1

theorem State.Inv.env {s : State} (h : s.Inv) : s.env.Inv s.params.envNch := h.2.2.1

theorem State.Inv.fft {s : State} (h : s.Inv) : s.fft.Inv s.params.log2Pmax := h.2.2.2.1

theorem State.Inv.dmem {s : State} (h : s.Inv) : Memory.Inv s.params.dmemSize s.dmem := h.2.2.2.2.1

theorem State.Inv.osc {s : State} (h : s.Inv) : s.osc.Inv := h.2.2.2.2.2

theorem State.Inv.setRing {s : State} (h : s.Inv) {r : RingBuffer} (hr : r.Inv s.params.rbMax) :
    (s.setRing r).Inv :=
  ⟨h.legal, hr, h.env, h.fft, h.dmem, h.osc⟩

theorem State.Inv.setEnv {s : State} (h : s.Inv) {e : Envelope} (he : e.Inv s.params.envNch) : (s.setEnv e).Inv :=
  ⟨h.legal, h.ring, he, h.fft, h.dmem, h.osc⟩

theorem State.Inv.setOsc {s : State} (h : s.Inv) {o : Oscillator} (ho : o.Inv) : (s.setOsc o).Inv :=
  ⟨h.legal, h.ring, h.env, h.fft, h.dmem, ho⟩

theorem State.Inv.setDmem {s : State} (h : s.Inv) {m : Memory} (hm : Memory.Inv s.params.dmemSize m) :
    State.Inv { s with dmem := m } :=
  ⟨h.legal, h.ring, h.env, h.fft, hm, h.osc⟩

/-! ### The ring buffer (R47, R48) -/

theorem RingBuffer.inv_reset {p : Params} (hp : p.Legal) : (RingBuffer.reset p).Inv p.rbMax := by
  obtain ⟨-, -, ⟨hlo, hhi⟩, -, -, -⟩ := hp
  have hcap : (RingBuffer.reset p).cap.toNat = p.rbMax := toNat_ofNat_of_le_two_pow hhi (by decide)
  refine ⟨by omega, ⟨le_refl _, Nat.zero_le _⟩, rfl, fun t ht => ?_⟩
  have hwindow := (RingBuffer.inWindow_iff _ t).1 ht
  exact absurd hwindow.2 (Nat.not_lt_zero _)

/-- Every slot written stays written, and a write makes its own slot written. -/
theorem findKey_putKey_isSome {β : Type} {m : List (Nat × β)} {x : Nat} (a : Nat) (b : β)
    (h : x = a ∨ (findKey m x).isSome = true) : (findKey (putKey m a b) x).isSome = true := by
  rw [findKey_putKey]
  split
  · rfl
  · next hne => exact h.resolve_left hne

theorem RingBuffer.Inv.init {n : Nat} {r : RingBuffer} (h : r.Inv n) {c : Word} (hlo : 1 ≤ c.toNat)
    (hhi : c.toNat ≤ n) : (r.init c).Inv n := by
  obtain ⟨-, -, hrise, -⟩ := h
  refine ⟨⟨hlo, hhi⟩, ⟨le_refl _, Nat.zero_le _⟩, hrise, fun t ht => ?_⟩
  have hwindow := (RingBuffer.inWindow_iff _ t).1 ht
  exact absurd hwindow.2 (Nat.not_lt_zero _)

theorem RingBuffer.Inv.writeSlot {n : Nat} {r : RingBuffer} (h : r.Inv n) (j : Nat) (v : Word) :
    (r.writeSlot j v).Inv n := by
  obtain ⟨hcap, hwindow, hrise, hwritten⟩ := h
  exact ⟨hcap, hwindow, keysRise_putKey hrise, fun t ht => findKey_putKey_isSome _ _ (.inr (hwritten t ht))⟩

/-- The window after a push: no counter wraps, and the start moves exactly when the buffer is full. -/
theorem RingBuffer.push_window {r : RingBuffer} (horder : r.startT.toNat ≤ r.endT.toNat)
    (hend : r.endT.toNat + 1 < 2 ^ 64) (v : Word) :
    (r.push v).endT.toNat = r.endT.toNat + 1 ∧
      (r.push v).startT.toNat =
        if r.endT.toNat = r.startT.toNat + r.cap.toNat then r.startT.toNat + 1 else r.startT.toNat := by
  simp only [RingBuffer.push_endT, RingBuffer.push_startT, RingBuffer.full, decide_eq_true_eq]
  refine ⟨BitVec.toNat_add_of_lt hend, ?_⟩
  split
  · exact BitVec.toNat_add_of_lt (lt_of_le_of_lt (Nat.succ_le_succ horder) hend)
  · rfl

theorem RingBuffer.Inv.push {n : Nat} {r : RingBuffer} (h : r.Inv n) (hend : r.endT.toNat + 1 < 2 ^ 64) (v : Word) :
    (r.push v).Inv n := by
  obtain ⟨hcap, hwindow, hrise, hwritten⟩ := h
  obtain ⟨hendT, hstartT⟩ := RingBuffer.push_window hwindow.1 hend v
  refine ⟨hcap, ?_, keysRise_putKey hrise, fun t ht => findKey_putKey_isSome _ _ ?_⟩
  · rw [hendT, hstartT, RingBuffer.push_cap]
    split <;> omega
  · rw [RingBuffer.inWindow_iff, hendT, hstartT] at ht
    have hlo : r.startT.toNat ≤ t.toNat := le_trans (by split <;> omega) ht.1
    rcases (Nat.lt_succ_iff.1 ht.2).eq_or_lt with hnew | hold
    · exact .inl (by rw [BitVec.eq_of_toNat_eq hnew]; rfl)
    · exact .inr (hwritten t ((r.inWindow_iff t).2 ⟨hlo, hold⟩))

/-- Under the invariant an in-window read answers the sample its slot lists. -/
theorem RingBuffer.Inv.findKey_slot {n : Nat} {r : RingBuffer} (h : r.Inv n) {t : Time} (ht : r.inWindow t = true) :
    findKey r.slots (r.slot t) = some (r.readSlot (r.slot t)) := by
  obtain ⟨-, -, -, hwritten⟩ := h
  obtain ⟨v, hv⟩ := Option.isSome_iff_exists.1 (hwritten t ht)
  rw [RingBuffer.readSlot, hv, Option.getD_some]

/-! ### The envelope (R54, 43_envelope.md R195) -/

theorem frameGet_zero (c : Nat) : frameGet (Vector.replicate 8 0) c = 0 := by
  rw [frameGet_eq]
  split <;> simp

theorem Envelope.inv_reset (n : Nat) : Envelope.reset.Inv n :=
  ⟨by decide, by decide, fun _ => ⟨rfl, rfl⟩, fun c _ => ⟨frameGet_zero c, frameGet_zero c⟩⟩

/-- Only Sustain and Silent schedule no transition. -/
theorem Envelope.ramp_isSome_false_iff (e : Envelope) (p : EnvPhase) :
    (e.ramp p).isSome = false ↔ p = .sustain ∨ p = .silent := by
  cases p <;> simp [Envelope.ramp]

theorem Envelope.enter_sched (e : Envelope) (p : EnvPhase) (t : Time) :
    (e.enter p t).sched = (e.ramp p).isSome :=
  congrArg Envelope.sched (e.enter_spec p t)

/-- Entry into a state that schedules nothing clears the schedule and DELTA. -/
theorem Envelope.enter_of_unscheduled {e : Envelope} {p : EnvPhase} {t : Time} (h : (e.enter p t).sched = false) :
    (e.enter p t).nextT = 0 ∧ (e.enter p t).delta = 0 := by
  rw [Envelope.enter_sched, Option.isSome_eq_false_iff, Option.isNone_iff_eq_none] at h
  simp [Envelope.enter, h]

theorem Envelope.Inv.enter {n : Nat} {e : Envelope} (h : e.Inv n) (p : EnvPhase) (t : Time) : (e.enter p t).Inv n := by
  obtain ⟨hsustain, -, -, hframes⟩ := h
  refine ⟨by rwa [Envelope.enter_sustain], ?_, Envelope.enter_of_unscheduled, fun c hc => ?_⟩
  · rw [Envelope.enter_sched, Envelope.enter_phase, Envelope.ramp_isSome_false_iff]
  · rw [Envelope.enter_input, Envelope.enter_output]
    exact hframes c hc

theorem Envelope.Inv.transition {n : Nat} {e : Envelope} (h : e.Inv n) (t : Time) : (e.transition t).Inv n := by
  unfold Envelope.transition
  split
  · exact h.enter _ t
  · exact h

theorem Envelope.Inv.applyLevel {n : Nat} {e : Envelope} (h : e.Inv n) (hn : n ≤ 8) : (e.applyLevel n).Inv n := by
  obtain ⟨hsustain, hsched, hclear, hframes⟩ := h
  refine ⟨hsustain, hsched, hclear, fun c hc => ⟨(hframes c hc).1, ?_⟩⟩
  rw [Envelope.applyLevel_output, frameGet_frameFill _ _ _ _ hn, if_neg (by omega)]
  exact (hframes c hc).2

/-- A tick keeps the invariant: the level itself is free. -/
theorem Envelope.Inv.tick {n : Nat} {e : Envelope} (h : e.Inv n) (hn : n ≤ 8) (t : Time) : (e.tick n t).Inv n :=
  have hadd : ((e.transition t).addDelta).Inv n := h.transition t
  hadd.applyLevel hn

/-- The sustain level a write stores is legal. -/
theorem clampSustain_toNat_le (v : Word) : (clampSustain v).toNat ≤ 0x40000000 := by
  unfold clampSustain u32OfInt clampInt
  rw [BitVec.toNat_ofInt]
  omega

theorem Envelope.Inv.setSustain {n : Nat} {e : Envelope} (h : e.Inv n) (v : Word) :
    Envelope.Inv n { e with sustain := clampSustain v } := by
  obtain ⟨-, hsched, hclear, hframes⟩ := h
  exact ⟨clampSustain_toNat_le v, hsched, hclear, hframes⟩

theorem Envelope.Inv.setInput {n : Nat} {e : Envelope} (h : e.Inv n) {c : Nat} (hc : c < n) (v : Word) :
    Envelope.Inv n { e with input := frameSet e.input c v } := by
  obtain ⟨hsustain, hsched, hclear, hframes⟩ := h
  refine ⟨hsustain, hsched, hclear, fun d hd => ⟨?_, (hframes d hd).2⟩⟩
  rw [frameGet_frameSet, if_neg (by omega)]
  exact (hframes d hd).1

/-! ### The transform unit (R40 to R45) -/

theorem FftUnit.inv_reset (l : Nat) : FftUnit.Inv l { context := none, wb := [] } :=
  ⟨fun _ hc => (nomatch hc), Nat.zero_le _⟩

theorem FftUnit.Inv.setContext {l b : Nat} {u : FftUnit} (h : u.Inv l) (hb : b ≤ l) :
    FftUnit.Inv l { u with context := some (fftContext b) } := by
  refine ⟨fun c hc => ?_, h.2⟩
  cases hc
  exact ⟨hb, rfl⟩

/-- WB never grows past the padded size of a transform or the length it had. -/
theorem FftUnit.Inv.setWork {l : Nat} {u : FftUnit} (h : u.Inv l) {ys : List Complex32} (hys : ys.length ≤ 2 ^ l) :
    (u.setWork ys).Inv l := by
  obtain ⟨hcontext, hwb⟩ := h
  refine ⟨hcontext, ?_⟩
  rw [FftUnit.setWork_wb, List.length_append, List.length_drop]
  omega

theorem ilog_padded (n : Nat) : ilog (padded n) = paddedLog n := Nat.log2_two_pow

/-- A transform computes one element for each entry of REV. -/
theorem transformCore_length {m : Memory} {c : FftContext} {src len : Nat} {inverse : Bool} {ys : List Complex32}
    (h : transformCore m c src len inverse = .ok ys) : ys.length = c.rev.length := by
  unfold transformCore at h
  split at h
  · cases h
  · next wb hwb =>
    cases h
    rw [network_length, loadInput_length hwb]

theorem revTable_length (b : Nat) : (revTable b).length = 2 ^ b := by
  simp [revTable]

/-- Under the invariant a transform computes as many elements as its padded size. -/
theorem FftUnit.Inv.transform_length {l : Nat} {u : FftUnit} (h : u.Inv l) {c : FftContext} (hc : u.context = some c)
    {m : Memory} {src len : Nat} {inverse : Bool} {ys : List Complex32}
    (hys : transformCore m c src len inverse = .ok ys) : ys.length = c.size ∧ c.size ≤ 2 ^ l := by
  obtain ⟨hlog, htables⟩ := h.1 c hc
  refine ⟨?_, Nat.pow_le_pow_right (by decide) hlog⟩
  rw [transformCore_length hys, htables]
  exact revTable_length _

/-! ### DMEM (R46, 20_memory.md R77) -/

theorem Memory.inv_nil (size : Nat) : Memory.Inv size [] := ⟨rfl, fun _ h => nomatch h⟩

/-- The bytes that are written after a word write. -/
theorem Memory.readByte_writeWord_isSome (m : Memory) (a : Nat) (v : Word) (x : Nat) :
    (Memory.readByte (m.writeWord a v) x).isSome = true ↔
      (a ≤ x ∧ x < a + 4) ∨ (Memory.readByte m x).isSome = true := by
  rw [Memory.readByte_writeWord]
  split
  · next hin => simp [hin]
  · next hout => simp [hout]

/-- An aligned word write inside DMEM keeps DMEM written in whole words. -/
theorem Memory.Inv.writeWord {size a : Nat} {m : Memory} (h : Memory.Inv size m) (halign : a % 4 = 0)
    (hlo : dmemBase ≤ a) (hhi : a + 4 ≤ dmemBase + 8 * size) (v : Word) : Memory.Inv size (m.writeWord a v) := by
  obtain ⟨hwf, hbytes⟩ := h
  refine ⟨Memory.wf_writeWord hwf a v, fun x hx => ?_⟩
  simp only [Memory.readByte_writeWord_isSome] at hx ⊢
  rcases hx with hnew | hold
  · exact ⟨by omega, fun k hk => .inl (by omega)⟩
  · obtain ⟨hrange, hwhole⟩ := hbytes x hold
    exact ⟨hrange, fun k hk => .inr (hwhole k hk)⟩

theorem Memory.Inv.writeRe {size i : Nat} {m : Memory} (h : Memory.Inv size m) (hi : i < size) (v : Word) :
    Memory.Inv size (m.writeWord (reOffset i) v) := by
  refine h.writeWord ?_ ?_ ?_ v <;> simp only [reOffset, dmemBase] <;> omega

theorem Memory.Inv.writeIm {size i : Nat} {m : Memory} (h : Memory.Inv size m) (hi : i < size) (v : Word) :
    Memory.Inv size (m.writeWord (imOffset i) v) := by
  refine h.writeWord ?_ ?_ ?_ v <;> simp only [imOffset, dmemBase] <;> omega

theorem Memory.Inv.storeElements {size : Nat} (ys : List Complex32) {m : Memory} (h : Memory.Inv size m) {i : Nat}
    (hi : i + ys.length ≤ size) : Memory.Inv size (Memory.storeElements m i ys) := by
  induction ys generalizing m i with
  | nil => exact h
  | cons y ys ih =>
    rw [List.length_cons] at hi
    exact ih ((h.writeRe (by omega) y.re).writeIm (by omega) y.im) (by omega)

/-! ### Reset -/

theorem State.inv_resetWith {p : Params} (hp : p.Legal) : (State.resetWith p).Inv :=
  ⟨hp, RingBuffer.inv_reset hp, Envelope.inv_reset _, FftUnit.inv_reset _, Memory.inv_nil _, rfl⟩

/-- The reset event keeps the parameters, so it leaves a state with the invariant. -/
theorem State.Inv.afterReset {s : State} (h : s.Inv) : s.afterReset.Inv := State.inv_resetWith h.legal

/-! ### Commands -/

theorem execFftConfig_keeps_inv {s t : State} (h : s.Inv) (ht : execFftConfig s = .next t) : t.Inv := by
  unfold execFftConfig at ht
  dsimp only at ht
  split at ht
  · cases ht; exact h
  · next hfits =>
    cases ht
    have hlog : paddedLog (operandU32 s.arg0) ≤ s.params.log2Pmax :=
      (Nat.pow_le_pow_iff_right (by decide)).1 (Nat.not_lt.1 hfits)
    rw [ilog_padded]
    exact ⟨h.legal, h.ring, h.env, h.fft.setContext hlog, h.dmem, h.osc⟩

theorem transform_keeps_inv {inverse : Bool} {out : FftContext → Complex32 → Complex32} {s t : State} (h : s.Inv)
    (ht : transform inverse out s = .next t) : t.Inv := by
  rcases transform_next ht with ⟨code, -, rfl⟩ | ⟨c, ys, hchecks, hcore, rfl⟩
  · exact h
  · obtain ⟨hcontext, -, -, hdst⟩ := transformChecks_ok hchecks
    obtain ⟨hlength, hsize⟩ := h.fft.transform_length hcontext hcore
    exact ⟨h.legal, h.ring, h.env, h.fft.setWork (by omega),
      h.dmem.storeElements _ (by rw [List.length_map]; omega), h.osc⟩

theorem execRbInit_keeps_inv {s t : State} (h : s.Inv) (ht : execRbInit s = .next t) : t.Inv := by
  unfold execRbInit at ht
  dsimp only [operandU32] at ht
  split at ht
  · cases ht; exact h
  · cases ht
    exact h.setRing (h.ring.init (by omega) (by omega))

theorem execRbPush_keeps_inv {s t : State} (h : s.Inv) (ht : execRbPush s = .next t) : t.Inv := by
  unfold execRbPush at ht
  split at ht
  · cases ht
  · cases ht
    have hend := s.ring.endT.isLt
    exact h.setRing (h.ring.push (by omega) _)

theorem execRbGet_keeps_inv {s t : State} (h : s.Inv) (ht : execRbGet s = .next t) : t.Inv := by
  unfold execRbGet at ht
  dsimp only at ht
  split at ht <;> (cases ht; exact h)

/-- What RB_GET does when it succeeds: the time is in the window and RES0 takes its slot. -/
theorem execRbGet_ok {s t : State} (ht : execRbGet s = .next t) (hok : t.status.code = .ok) :
    s.ring.inWindow s.timeOperand = true ∧ t.res0 = s.ring.readSlot (s.ring.slot s.timeOperand) := by
  unfold execRbGet at ht
  dsimp only at ht
  split at ht
  · next hin => cases ht; exact ⟨hin, rfl⟩
  · cases ht; cases hok

theorem execRbUpdate_keeps_inv {s t : State} (h : s.Inv) (ht : execRbUpdate s = .next t) : t.Inv := by
  unfold execRbUpdate at ht
  dsimp only at ht
  split at ht
  · cases ht; exact h.setRing (h.ring.writeSlot _ _)
  · cases ht; exact h

theorem execEnvTick_keeps_inv {s t : State} (h : s.Inv) (ht : execEnvTick s = .next t) : t.Inv := by
  obtain ⟨-, -, -, ⟨-, hnch⟩, -, -⟩ := h.legal
  cases ht
  exact h.setEnv (h.env.tick hnch _)

theorem execOscInit_keeps_inv {w : BitVec 3} {aa : Bool} {s t : State} (h : s.Inv)
    (ht : execOscInit w aa s = .next t) : t.Inv := by
  unfold execOscInit at ht
  split at ht
  · cases ht; exact h.setOsc rfl
  · cases ht; exact h

theorem execOscTick_keeps_inv {lfo : Bool} {s t : State} (h : s.Inv) (ht : execOscTick lfo s = .next t) : t.Inv := by
  cases ht
  rw [State.inv_report, State.inv_drawFor]
  exact h.setOsc rfl

/-- Every command keeps the invariant. -/
theorem exec_keeps_inv {i : Instr} {s t : State} (h : s.Inv) (ht : exec i s = .next t) : t.Inv := by
  cases i with
  | nop => cases ht; exact h
  | step => cases ht; exact h
  | fftConfig => exact execFftConfig_keeps_inv h ht
  | fftFwd => exact transform_keeps_inv h ht
  | fftInv => exact transform_keeps_inv h ht
  | rbInit => exact execRbInit_keeps_inv h ht
  | rbPush => exact execRbPush_keeps_inv h ht
  | rbGet => exact execRbGet_keeps_inv h ht
  | rbUpdate => exact execRbUpdate_keeps_inv h ht
  | envNoteDown => cases ht; exact h.setEnv (h.env.enter _ _)
  | envNoteUp => cases ht; exact h.setEnv (h.env.enter _ _)
  | envTick => exact execEnvTick_keeps_inv h ht
  | oscInit w aa => exact execOscInit_keeps_inv h ht
  | oscSetFreq => cases ht; exact h.setOsc h.osc
  | oscSetTranspose => cases ht; exact h.setOsc h.osc
  | oscSetBend => cases ht; exact h.setOsc h.osc
  | oscTick lfo => exact execOscTick_keeps_inv h ht

/-! ### Host accesses -/

/-- A host write of a register the block has keeps the invariant. -/
theorem writeReg_keeps_inv {s : State} (h : s.Inv) (v : Word) {r : Reg} (hr : r.Within s.params) :
    (writeReg s v r).Inv := by
  cases r with
  | envSustain => exact h.setEnv (h.env.setSustain v)
  | envIn c => exact h.setEnv (h.env.setInput hr v)
  | dmemRe i => exact h.setDmem (h.dmem.writeRe hr v)
  | dmemIm i => exact h.setDmem (h.dmem.writeIm hr v)
  | _ => exact h

/-! ### The obligations -/

/-- Settles O57: the reset state's registers read by computation, and both reset events leave that state. -/
theorem resetLeavesTheTable : Obligations.ResetLeavesTheTable := by
  refine ⟨fun p hp => ?_, fun s es hs => ⟨_, step_of_pending hs, rfl⟩,
    fun s w es hs => ⟨_, Config.abandonedResponse s.draws, step_of_pending hs, rfl⟩⟩
  obtain ⟨-, -, ⟨-, hrb⟩, -, -, -⟩ := hp
  refine ⟨rfl, fun r hr => ?_, fun c => ?_, rfl, rfl, ⟨_, rfl, ?_⟩, rfl, fun a => rfl⟩
  · rw [readReg_resetWith p (by revert r; decide)]
    revert r
    decide
  · exact ⟨congrArg Except.ok (frameGet_zero c), congrArg Except.ok (frameGet_zero c)⟩
  · exact toNat_ofNat_of_le_two_pow hrb (by decide)

/-- Settles O58, unit by unit. -/
theorem resetSatisfiesInvariant : Obligations.ResetSatisfiesInvariant := fun _ hp => State.inv_resetWith hp

/-- Settles O60: an in-window time's slot is written, and RB_GET answers only in-window times. -/
theorem rbGetReturnsWrittenSample : Obligations.RbGetReturnsWrittenSample := by
  intro s t h ht hok
  obtain ⟨hin, hres⟩ := execRbGet_ok ht hok
  rw [hres, ← operandT64_toNat]
  exact h.ring.findKey_slot hin

/-- Settles O56: each fixed row is a register that holds the row's content, and a read answers it. -/
theorem fieldsReadAtTheirBits : Obligations.FieldsReadAtTheirBits := by
  intro s off es hl hfft hp bit code ctrl size phase wave fixed answers
  obtain ⟨hlog, ⟨-, hdmem⟩, ⟨-, hrb⟩, -, ⟨-, hrate⟩, -⟩ := id hl
  have hctrl : s.fft.ctrlWord.toNat = ctrl := by
    rw [FftUnit.ctrlWord_toNat hfft hlog]
    simp only [ctrl]
    cases s.fft.context <;> rfl
  have hsize : s.fft.sizeWord.toNat = size := by
    rw [FftUnit.sizeWord_toNat hfft hlog]
    simp only [size]
    cases s.fft.context <;> rfl
  have hfixed : ∀ row ∈ fixed, s.Holds row.1 row.2 := by
    simp only [fixed, List.forall_mem_cons]
    exact ⟨.of_readReg .cmd rfl rfl, .of_readReg .status rfl s.status.toWord_toNat,
      .of_readReg .arg0 rfl rfl, .of_readReg .arg1 rfl rfl, .of_readReg .arg2 rfl rfl, .of_readReg .arg3 rfl rfl,
      .of_readReg .res0 rfl rfl,
      .of_readReg .timeLo rfl (loWord_toNat _), .of_readReg .timeHi rfl (hiWord_toNat _),
      .of_readReg .param0 rfl (param0_toNat hl),
      .of_readReg .param1 rfl (toNat_ofNat_of_le_two_pow hdmem (by decide)),
      .of_readReg .param2 rfl (toNat_ofNat_of_le_two_pow hrb (by decide)),
      .of_readReg .param3 rfl (toNat_ofNat_of_le_two_pow hrate (by decide)),
      .of_readReg .fftCtrl rfl hctrl, .of_readReg .fftSize rfl hsize,
      .of_readReg .rbCap rfl rfl,
      .of_readReg .rbStartLo rfl (loWord_toNat _), .of_readReg .rbStartHi rfl (hiWord_toNat _),
      .of_readReg .rbEndLo rfl (loWord_toNat _), .of_readReg .rbEndHi rfl (hiWord_toNat _),
      .of_readReg .envStat rfl s.env.statWord_toNat,
      .of_readReg .envLevel rfl rfl, .of_readReg .envDelta rfl rfl,
      .of_readReg .envNextLo rfl (loWord_toNat _), .of_readReg .envNextHi rfl (hiWord_toNat _),
      .of_readReg .envAttack rfl rfl, .of_readReg .envDecay rfl rfl,
      .of_readReg .envSustain rfl rfl, .of_readReg .envRelease rfl rfl,
      .of_readReg .oscCfg rfl s.osc.cfgWord_toNat,
      .of_readReg .oscPhase rfl rfl, .of_readReg .oscInc rfl rfl,
      .of_readReg .oscTranspose rfl rfl, .of_readReg .oscBend rfl rfl,
      .of_readReg .oscLfoInt rfl rfl, .of_readReg .oscPrev rfl rfl, .of_readReg .oscOut rfl rfl,
      fun _ h => nomatch h⟩
  refine ⟨fun row hrow hoff => ?_, fun c hc => ⟨fun hoff => ?_, fun hoff => ?_⟩⟩
  · exact State.Holds.step_eq (hoff ▸ hfixed row hrow) hl hp
  · exact ⟨_, rfl, step_of_read hp (accessTarget_envIn hc hoff) rfl⟩
  · exact ⟨_, rfl, step_of_read hp (accessTarget_envOut hl hc hoff) rfl⟩

/-- Settles O59: a step waits, answers a read, runs a command, reports ILLEGAL, writes a register of the block,
or resets. -/
theorem stepKeepsInvariant : Obligations.StepKeepsInvariant := by
  intro s t h ht
  rcases step_next ht with ⟨-, rfl⟩ | ⟨e, es, -, hserved⟩
  · exact h
  have hpending : (s.setPending es).Inv := (State.inv_setPending s es).2 h
  rcases hserved with ⟨_, _, _, _, -, -, -, rfl⟩ | ⟨_, _, _, -, -, ⟨i, -, hexec⟩ | ⟨-, rfl⟩⟩ |
    ⟨_, _, w, r, -, -, hr, rfl⟩ | ⟨-, rfl⟩ | ⟨_, -, rfl⟩
  · exact h
  · exact exec_keeps_inv ((State.inv_respond _ _).2 hpending) hexec
  · exact h
  · exact writeReg_keeps_inv hpending w (accessTarget_within hr)
  · exact hpending.afterReset
  · exact hpending.afterReset

end Sys2Proof.Machine
end

section
/-! PROOFS. The statements of 20_memory.md: which accesses are BusErrors (R73, R74), that a read has no side
effect (R76), and what a read after a write of the same offset answers. First the register an access
reaches, then the steps that serve a write, then the obligations. -/

namespace Sys2Proof.Machine

/-! ### The mapped offsets (10_state.md R36) -/

theorem accessTarget_eq_some_iff {p : Params} {off : Offset} {n : Nat} {r : Reg} :
    accessTarget p off n = some r ↔ (n = 4 ∧ off.toNat % 4 = 0) ∧ regAt p off.toNat = some r :=
  Option.ite_none_right_eq_some

theorem accessTarget_dmemRe {p : Params} {off : Offset} {i : Nat} (hi : i < p.dmemSize) (hp : p.Legal)
    (h : off.toNat = 0x1000000 + 8 * i) : accessTarget p off 4 = some (.dmemRe i) := by
  obtain ⟨-, -, -, ⟨-, hnch⟩, -, -⟩ := hp
  rw [accessTarget, if_pos ⟨rfl, by omega⟩, regAt, if_neg (by omega), if_neg (by omega), dmemBase,
    if_pos (by omega), if_pos (by omega), h]
  simp

theorem accessTarget_dmemIm {p : Params} {off : Offset} {i : Nat} (hi : i < p.dmemSize) (hp : p.Legal)
    (h : off.toNat = 0x1000004 + 8 * i) : accessTarget p off 4 = some (.dmemIm i) := by
  obtain ⟨-, -, -, ⟨-, hnch⟩, -, -⟩ := hp
  have hindex : (0x1000004 + 8 * i - 0x1000000) / 8 = i := by omega
  rw [accessTarget, if_pos ⟨rfl, by omega⟩, regAt, if_neg (by omega), if_neg (by omega), dmemBase,
    if_pos (by omega), if_neg (by omega), h, hindex]

/-- The offsets R36 prints are those of the fixed rows. -/
theorem mem_fixedOffsets_iff {a : Nat} : a ∈ fixedOffsets ↔ ∃ r, (a, r) ∈ registerMap := by
  rw [show fixedOffsets = registerMap.map Prod.fst from rfl]
  simp

/-- An aligned offset that names a register is mapped. -/
theorem mappedOffset_of_regAt {p : Params} {a : Nat} {r : Reg} (halign : a % 4 = 0) (h : regAt p a = some r) :
    MappedOffset p a := by
  rcases regAt_cases h with ⟨c, -, hc, hlo, hhi⟩ | ⟨c, -, hc, hlo, hhi⟩ | ⟨i, -, hi, hlo, hhi⟩ | hrow
  · exact .inr (.inl ⟨c, by omega, .inl (by omega)⟩)
  · exact .inr (.inl ⟨c, by omega, .inr (by omega)⟩)
  · unfold dmemBase at hi hlo hhi
    exact .inr (.inr ⟨i, by omega, by omega⟩)
  · exact .inl (mem_fixedOffsets_iff.2 ⟨r, hrow⟩)

/-- A 32-bit access of a mapped offset reaches a register. -/
theorem MappedOffset.exists_accessTarget {p : Params} (hp : p.Legal) {off : Offset} (h : MappedOffset p off.toNat) :
    ∃ r, accessTarget p off 4 = some r := by
  rcases h with hfixed | ⟨c, hc, hin | hout⟩ | ⟨i, hi, hre | him⟩
  · obtain ⟨r, hrow⟩ := mem_fixedOffsets_iff.1 hfixed
    exact ⟨r, accessTarget_fixed hp hrow⟩
  · exact ⟨_, accessTarget_envIn hc hin⟩
  · exact ⟨_, accessTarget_envOut hp hc hout⟩
  · exact ⟨_, accessTarget_dmemRe hi hp hre⟩
  · exact ⟨_, accessTarget_dmemIm hi hp him⟩

/-- The bus answers with an error where the width, the alignment or the offset is wrong (R73, R74). -/
theorem accessTarget_eq_none {p : Params} {off : Offset} {n : Nat}
    (h : ¬ (n = 4 ∧ off.toNat % 4 = 0 ∧ MappedOffset p off.toNat)) : accessTarget p off n = none := by
  refine Option.eq_none_iff_forall_ne_some.2 fun r hr => h ?_
  obtain ⟨⟨hn, halign⟩, hreg⟩ := accessTarget_eq_some_iff.1 hr
  exact ⟨hn, halign, mappedOffset_of_regAt halign hreg⟩

/-- CMD stands at offset 0 alone. -/
theorem accessTarget_ne_cmd {p : Params} {off : Offset} {n : Nat} {r : Reg} (h : accessTarget p off n = some r)
    (hoff : off ≠ 0) : r ≠ .cmd := by
  rintro rfl
  rcases regAt_cases (accessTarget_eq_some_iff.1 h).2 with ⟨_, hr, -⟩ | ⟨_, hr, -⟩ | ⟨_, ⟨hr, -⟩ | ⟨hr, -⟩, -⟩ | hrow
  · cases hr
  · cases hr
  · cases hr
  · cases hr
  · have hzero : ∀ row ∈ registerMap, row.2 = .cmd → row.1 = 0 := by decide
    exact hoff (BitVec.eq_of_toNat_eq (hzero _ hrow rfl))

/-! ### Reads -/

/-- Below DMEM every register an access reaches holds a word. -/
theorem readReg_below_dmem (s : State) {p : Params} {off : Offset} {n : Nat} {r : Reg}
    (h : accessTarget p off n = some r) (hoff : off.toNat < dmemBase) : ∃ v, readReg s r = .ok v := by
  rcases regAt_cases (accessTarget_eq_some_iff.1 h).2 with ⟨_, rfl, -⟩ | ⟨_, rfl, -⟩ | ⟨_, -, -, hlo, -⟩ | hrow
  · exact ⟨_, rfl⟩
  · exact ⟨_, rfl⟩
  · omega
  · cases r with
    | dmemRe i => simp [registerMap] at hrow
    | dmemIm i => simp [registerMap] at hrow
    | _ => exact ⟨_, rfl⟩

theorem step_of_read_busError {s : State} {off : Offset} {n : Nat} {es : List HostEvent}
    (hp : s.port.pending = .read off n :: es) (h : accessTarget s.params off n = none) :
    step s = .fault (.busError off) := by
  rw [step_of_pending hp]
  simp only [serve, hostRead, State.setPending_params, h]

/-! ### Writes -/

theorem step_of_write_busError {s : State} {off : Offset} {n : Nat} {v : Word} {es : List HostEvent}
    (hp : s.port.pending = .write off n v :: es) (h : accessTarget s.params off n = none) :
    step s = .fault (.busError off) := by
  rw [step_of_pending hp]
  simp only [serve, hostWrite, State.setPending_params, h]

/-- A write of a register other than CMD stores the word and is acknowledged. -/
theorem step_of_write {s : State} {off : Offset} {n : Nat} {v : Word} {es : List HostEvent} {r : Reg}
    (hp : s.port.pending = .write off n v :: es) (h : accessTarget s.params off n = some r) (hr : r ≠ .cmd) :
    step s = .next ((writeReg (s.setPending es) v r).respond .ack) := by
  rw [step_of_pending hp]
  simp only [serve, hostWrite, State.setPending_params, h]

@[simp] theorem writeReg_params (s : State) (v : Word) (r : Reg) : (writeReg s v r).params = s.params := by
  cases r <;> rfl

@[simp] theorem writeReg_port (s : State) (v : Word) (r : Reg) : (writeReg s v r).port = s.port := by
  cases r <;> rfl

@[simp] theorem readReg_respond (s : State) (b : BusResponse) (r : Reg) : readReg (s.respond b) r = readReg s r := by
  cases r <;> rfl

/-! ### A write and a read of the same register -/

/-- At these offsets stand the fixed RW registers that keep the word a write gives them. -/
theorem fixed_row_keeps_word :
    ∀ a ∈ [0x008, 0x00C, 0x010, 0x014, 0x318, 0x31C, 0x324, 0x414], ∃ r, (a, r) ∈ registerMap ∧ r ≠ .cmd ∧
      ∀ (s : State) (v : Word), readReg (writeReg s v r) r = .ok v := by
  simp only [List.forall_mem_cons]
  exact ⟨⟨.arg0, by decide, by decide, fun _ _ => rfl⟩, ⟨.arg1, by decide, by decide, fun _ _ => rfl⟩,
    ⟨.arg2, by decide, by decide, fun _ _ => rfl⟩, ⟨.arg3, by decide, by decide, fun _ _ => rfl⟩,
    ⟨.envAttack, by decide, by decide, fun _ _ => rfl⟩, ⟨.envDecay, by decide, by decide, fun _ _ => rfl⟩,
    ⟨.envRelease, by decide, by decide, fun _ _ => rfl⟩, ⟨.oscLfoInt, by decide, by decide, fun _ _ => rfl⟩,
    fun _ h => nomatch h⟩

/-- ENV_SUSTAIN keeps the written word clamped (10_state.md R54). -/
theorem readReg_writeReg_envSustain (s : State) (v : Word) :
    readReg (writeReg s v .envSustain) .envSustain = .ok (clampSustain v) := rfl

theorem readReg_writeReg_envIn (s : State) (v : Word) {c : Nat} (hc : c < 8) :
    readReg (writeReg s v (.envIn c)) (.envIn c) = .ok v := by
  simp [readReg, writeReg, frameGet_frameSet, hc]

theorem readReg_writeReg_dmemRe (s : State) (v : Word) (i : Nat) :
    readReg (writeReg s v (.dmemRe i)) (.dmemRe i) = .ok v := by
  simp [readReg, writeReg, Memory.loadWord]

theorem readReg_writeReg_dmemIm (s : State) (v : Word) (i : Nat) :
    readReg (writeReg s v (.dmemIm i)) (.dmemIm i) = .ok v := by
  simp [readReg, writeReg, Memory.loadWord]

/-- Two steps at the bus: a register that holds the word `w` after a write answers it to the read that
follows. -/
theorem write_then_read {s : State} {off : Offset} {v w : Word} {es : List HostEvent} {r : Reg}
    (hp : s.port.pending = .write off 4 v :: .read off 4 :: es) (hr : accessTarget s.params off 4 = some r)
    (hcmd : r ≠ .cmd) (hw : ∀ s' : State, readReg (writeReg s' v r) r = .ok w) :
    ∃ t, step s = .next t ∧ ∃ u, step t = .next u ∧ u.port.response = some (.data w) := by
  have hread : ((writeReg (s.setPending (.read off 4 :: es)) v r).respond .ack).port.pending = .read off 4 :: es := by
    rw [State.respond_port, writeReg_port]
    rfl
  exact ⟨_, step_of_write hp hr hcmd, _,
    step_of_read hread (by simpa using hr) ((readReg_respond _ _ _).trans (hw _)), rfl⟩

/-! ### The obligations -/

/-- Settles O51: the accesses without a target are the refused ones, and a target below DMEM is readable. -/
theorem busErrorsExactly : Obligations.BusErrorsExactly := by
  intro s off n v es hl
  refine ⟨fun hbad => ?_, fun hn _ hmapped => ?_⟩
  · have hnone := accessTarget_eq_none hbad
    exact ⟨fun hp => step_of_read_busError hp hnone, fun hp => step_of_write_busError hp hnone⟩
  · subst hn
    obtain ⟨r, hr⟩ := hmapped.exists_accessTarget hl
    refine ⟨fun hp hoff => ?_, fun hp hoff => ⟨_, step_of_write hp hr (accessTarget_ne_cmd hr hoff)⟩⟩
    obtain ⟨w, hw⟩ := readReg_below_dmem s hr hoff
    exact ⟨_, step_of_read hp hr hw⟩

/-- Settles O54, one kind of register after another. -/
theorem writeThenReadReturns : Obligations.WriteThenReadReturns := by
  intro s off v es hl hp
  obtain ⟨-, -, -, ⟨-, hnch⟩, -, -⟩ := id hl
  refine ⟨?_, fun hoff => ?_⟩
  · rintro (hfixed | ⟨c, hc, hoff⟩ | ⟨i, hi, hre | him⟩)
    · obtain ⟨r, hrow, hcmd, hkeeps⟩ := fixed_row_keeps_word _ hfixed
      exact write_then_read hp (accessTarget_fixed hl hrow) hcmd fun s' => hkeeps s' v
    · exact write_then_read hp (accessTarget_envIn hc hoff) nofun fun s' =>
        readReg_writeReg_envIn s' v (by omega)
    · exact write_then_read hp (accessTarget_dmemRe hi hl hre) nofun fun s' => readReg_writeReg_dmemRe s' v i
    · exact write_then_read hp (accessTarget_dmemIm hi hl him) nofun fun s' => readReg_writeReg_dmemIm s' v i
  · have hrow : (off.toNat, Reg.envSustain) ∈ registerMap := hoff ▸ by decide
    exact write_then_read hp (accessTarget_fixed hl hrow) nofun fun s' => readReg_writeReg_envSustain s' v

/-- Settles O53: a read that goes on answers a word and leaves the rest of the state. -/
theorem readsHaveNoSideEffect : Obligations.ReadsHaveNoSideEffect := by
  intro s t off n es hp ht
  rw [step_of_pending hp] at ht
  obtain ⟨_, v, -, -, rfl⟩ := hostRead_next ht
  exact ⟨v, rfl⟩

end Sys2Proof.Machine
end

section
/-! PROOFS. The statements of 30_encoding.md: decode and encode agree (R95, R96), and the ILLEGAL words only
report (R97). First the fields of a word as numbers and what `decode` answers at each kind of opcode, then
the words of the commands, then the ILLEGAL words, then the obligations. -/

namespace Sys2Proof

/-! ### Fields of a command word (R90 to R93) -/

theorem opcodeField_eq (w : Word) : opcodeField w = w.toNat % 2 ^ 8 := by
  simp [opcodeField]

/-- A field that reaches up to bit 31, as RSVD does in every format, is zero where the number above it is. -/
theorem topField_eq_zero_iff (w : Word) {k n : Nat} (h : k + n = 32) :
    w.extractLsb' k n = 0 ↔ w.toNat / 2 ^ k = 0 := by
  have hlt : w.toNat / 2 ^ k < 2 ^ n := Nat.div_lt_of_lt_mul (by rw [← pow_add, h]; exact w.isLt)
  rw [BitVec.toNat_eq, BitVec.extractLsb'_toNat, Nat.shiftRight_eq_div_pow, Nat.mod_eq_of_lt hlt]
  rfl

theorem waveField_toNat (w : Word) : (w.extractLsb' 8 3).toNat = w.toNat / 2 ^ 8 % 2 ^ 3 := by
  rw [BitVec.extractLsb'_toNat, Nat.shiftRight_eq_div_pow]

theorem getLsbD_toNat (w : Word) (k : Nat) : (w.getLsbD k).toNat = w.toNat / 2 ^ k % 2 := by
  rw [← BitVec.testBit_toNat, Nat.toNat_testBit]

/-! ### What `decode` answers at each kind of opcode (R96) -/

/-- The opcodes of the format-N commands (R95). -/
def formatNOpcodes : List Nat := formatN.map Prod.fst

theorem mem_formatNOpcodes_iff {n : Nat} : n ∈ formatNOpcodes ↔ ∃ i, (n, i) ∈ formatN := by
  simp [formatNOpcodes]

/-- No opcode stands in two rows. -/
theorem lookup_of_mem_formatN : ∀ row ∈ formatN, formatN.lookup row.1 = some row.2 := by
  decide

theorem lookup_formatN_eq_none {n : Nat} (h : n ∉ formatNOpcodes) : formatN.lookup n = none := by
  refine List.lookup_eq_none_iff.2 fun row hrow => bne_iff_ne.2 ?_
  rintro rfl
  exact h (List.mem_map_of_mem hrow)

/-- The opcode of a word is one of format N, that of OSC_INIT, that of OSC_TICK, or in no row of R95. -/
theorem opcode_cases (w : Word) :
    (∃ i, (w.toNat % 2 ^ 8, i) ∈ formatN) ∨ w.toNat % 2 ^ 8 = 0x40 ∨ w.toNat % 2 ^ 8 = 0x44 ∨
      (w.toNat % 2 ^ 8 ∉ formatNOpcodes ∧ w.toNat % 2 ^ 8 ≠ 0x40 ∧ w.toNat % 2 ^ 8 ≠ 0x44) := by
  rw [← mem_formatNOpcodes_iff]
  tauto

theorem decode_formatN {w : Word} {i : Instr} (h : (w.toNat % 2 ^ 8, i) ∈ formatN) :
    decode w = if w.toNat / 2 ^ 8 = 0 then .ok i else .error (.reservedBits (w.toNat % 2 ^ 8)) := by
  simp only [decode, opcodeField_eq, lookup_of_mem_formatN _ h, topField_eq_zero_iff w (show 8 + 24 = 32 from rfl)]

theorem decode_formatW {w : Word} (h : w.toNat % 2 ^ 8 = 0x40) :
    decode w =
      if w.toNat / 2 ^ 12 = 0 then
        if w.toNat / 2 ^ 8 % 2 ^ 3 ≤ 5 then .ok (.oscInit (w.extractLsb' 8 3) (w.getLsbD 11))
        else .error (.reservedWave (w.toNat / 2 ^ 8 % 2 ^ 3))
      else .error (.reservedBits 0x40) := by
  have hnone : formatN.lookup 0x40 = none := lookup_formatN_eq_none (by decide)
  simp only [decode, opcodeField_eq, h, hnone, waveField_toNat, reduceIte,
    topField_eq_zero_iff w (show 12 + 20 = 32 from rfl)]

theorem decode_formatL {w : Word} (h : w.toNat % 2 ^ 8 = 0x44) :
    decode w = if w.toNat / 2 ^ 9 = 0 then .ok (.oscTick (w.getLsbD 8)) else .error (.reservedBits 0x44) := by
  have hnone : formatN.lookup 0x44 = none := lookup_formatN_eq_none (by decide)
  simp only [decode, opcodeField_eq, h, hnone, reduceIte, Nat.reduceEqDiff,
    topField_eq_zero_iff w (show 9 + 23 = 32 from rfl)]

theorem decode_unlisted {w : Word} (hN : w.toNat % 2 ^ 8 ∉ formatNOpcodes) (hW : w.toNat % 2 ^ 8 ≠ 0x40)
    (hL : w.toNat % 2 ^ 8 ≠ 0x44) : decode w = .error (.reservedOpcode (w.toNat % 2 ^ 8)) := by
  simp only [decode, opcodeField_eq, lookup_formatN_eq_none hN, if_neg hW, if_neg hL]

/-! ### The words of the commands (R95) -/

/-- A format-N command is well formed, and its word is its opcode. -/
theorem encode_formatN : ∀ row ∈ formatN, row.2.wellFormed = true ∧ (encode row.2).toNat = row.1 := by
  decide

theorem encode_oscInit_toNat (wave : BitVec 3) (aa : Bool) :
    (encode (.oscInit wave aa)).toNat = 0x40 + 2 ^ 8 * wave.toNat + 2 ^ 11 * aa.toNat := by
  revert wave aa
  decide

theorem encode_oscTick_toNat (lfo : Bool) : (encode (.oscTick lfo)).toNat = 0x44 + 2 ^ 8 * lfo.toNat := by
  cases lfo <;> rfl

/-- A command that a word decodes to is well formed, and its word is that word: the opcode and the fields make up
the whole number, since RSVD is zero. -/
theorem encode_of_decode {w : Word} {i : Instr} (h : decode w = .ok i) : i.wellFormed = true ∧ encode i = w := by
  rcases opcode_cases w with ⟨j, hj⟩ | hW | hL | ⟨hN, hW, hL⟩
  · rw [decode_formatN hj] at h
    split_ifs at h with hrsvd
    cases h
    obtain ⟨hwf, hword⟩ := encode_formatN _ hj
    refine ⟨hwf, BitVec.eq_of_toNat_eq (hword.trans ?_)⟩
    omega
  · rw [decode_formatW hW] at h
    split_ifs at h with hrsvd hwave
    cases h
    refine ⟨decide_eq_true (waveField_toNat w ▸ hwave), BitVec.eq_of_toNat_eq ?_⟩
    rw [encode_oscInit_toNat, waveField_toNat, getLsbD_toNat]
    omega
  · rw [decode_formatL hL] at h
    split_ifs at h with hrsvd
    cases h
    refine ⟨rfl, BitVec.eq_of_toNat_eq ?_⟩
    rw [encode_oscTick_toNat, getLsbD_toNat]
    omega
  · rw [decode_unlisted hN hW hL] at h
    cases h

/-- The word of a well-formed command decodes to it. -/
theorem decode_encode {i : Instr} (h : i.wellFormed = true) : decode (encode i) = .ok i := by
  cases i with
  | oscInit wave aa =>
    revert wave aa
    decide
  | oscTick lfo => cases lfo <;> rfl
  | _ => rfl

/-! ### The ILLEGAL words (R97) -/

/-- The words of the cases (a), (b) and (c) of R97. -/
def IsIllegalWord (w : Word) : Prop :=
  let opc := w.toNat % 2 ^ 8
  (opc ∉ formatNOpcodes ∧ opc ≠ 0x40 ∧ opc ≠ 0x44) ∨
    ((opc ∈ formatNOpcodes ∧ w.toNat / 2 ^ 8 ≠ 0) ∨ (opc = 0x40 ∧ w.toNat / 2 ^ 12 ≠ 0) ∨
      (opc = 0x44 ∧ w.toNat / 2 ^ 9 ≠ 0)) ∨
    (opc = 0x40 ∧ 5 < w.toNat / 2 ^ 8 % 2 ^ 3)

/-- A checked result is an error where the check fails or the result is one. -/
theorem exists_error_ite_iff {ε α : Type} {c : Prop} [Decidable c] {r : Except ε α} {x : ε} :
    (∃ e, (if c then r else .error x) = .error e) ↔ (c → ∃ e, r = .error e) := by
  split_ifs with hc <;> simp [hc]

/-- The ILLEGAL words are those of R97, kind of opcode by kind of opcode. -/
theorem decode_error_iff (w : Word) : (∃ e, decode w = .error e) ↔ IsIllegalWord w := by
  unfold IsIllegalWord
  rcases opcode_cases w with ⟨i, hi⟩ | hW | hL | ⟨hN, hW, hL⟩
  · have hN := mem_formatNOpcodes_iff.2 ⟨i, hi⟩
    have hW : w.toNat % 2 ^ 8 ≠ 0x40 := fun h => absurd (h ▸ hN) (by decide)
    have hL : w.toNat % 2 ^ 8 ≠ 0x44 := fun h => absurd (h ▸ hN) (by decide)
    rw [decode_formatN hi, exists_error_ite_iff]
    tauto
  · have hN : 0x40 ∉ formatNOpcodes := by decide
    rw [decode_formatW hW, exists_error_ite_iff, exists_error_ite_iff, hW, ← not_le]
    tauto
  · have hN : 0x44 ∉ formatNOpcodes := by decide
    rw [decode_formatL hL, exists_error_ite_iff, hL]
    tauto
  · rw [decode_unlisted hN hW hL]
    exact iff_of_true ⟨_, rfl⟩ (.inl ⟨hN, hW, hL⟩)

end Sys2Proof

namespace Sys2Proof.Machine

/-- A CMD write is taken off the bus, acknowledged, and its word executed (40_control.md R112). -/
theorem step_of_cmdWrite {s : State} {w : Word} {es : List HostEvent} (h : s.port.pending = cmdWrite w :: es) :
    step s = executeWord exec w ((s.setPending es).respond .ack) := by
  rw [step_of_pending h]
  simp only [cmdWrite, serve, hostWrite, accessTarget_cmd]

theorem executeWord_of_error {run : Runner} {w : Word} {x : IllegalWord} (h : decode w = .error x) (s : State) :
    executeWord run w s = .next s.illegal := by
  simp only [executeWord, h]

/-- `status(ILLEGAL)` sets ERR (60_exceptions.md R262). -/
theorem Status.record_illegal (st : Status) : st.record .illegal = { code := .illegal, err := true } :=
  congrArg (Status.mk .illegal) (Bool.or_true st.err)

/-! ### The obligations -/

/-- Settles O1: one direction reads the word off its fields, the other runs the decoder on each command's word. -/
theorem decodeEncodeAgree : Obligations.DecodeEncodeAgree :=
  fun _ _ => ⟨encode_of_decode, fun ⟨hwf, hword⟩ => hword ▸ decode_encode hwf⟩

/-- Settles O2: the ILLEGAL words are those of R97, and executing one records the code alone. -/
theorem illegalWordOnlyReports : Obligations.IllegalWordOnlyReports := by
  intro w s es hp
  refine ⟨decode_error_iff w, fun hillegal => ?_⟩
  obtain ⟨x, hx⟩ := (decode_error_iff w).2 hillegal
  rw [step_of_cmdWrite hp, executeWord_of_error hx, State.illegal, State.report, Status.record_illegal]
  rfl

/-- Settles O3: each command word is the encoding of its command, and WAVE = 6 is reserved. -/
theorem sampleWordsDecode : Obligations.SampleWordsDecode :=
  ⟨decode_encode (i := .step) rfl, decode_encode (i := .fftInv) rfl, decode_encode (i := .rbUpdate) rfl,
    decode_encode (i := .envTick) rfl, decode_encode (i := .oscInit 5 true) rfl,
    decode_encode (i := .oscTick true) rfl, decode_formatW (by decide)⟩

end Sys2Proof.Machine
end

section
/-! PROOFS. The statements of 40_control.md: what a host write changes (R110), that a CMD write runs its command
(R112), that a command writes no unit but its own (R113), NOP (R115) and STEP (R116, R117). First the service of
a write, then what each command can write, then the obligations. -/

namespace Sys2Proof.Machine

open Host

/-! ### The registers a host write changes (R110) -/

/-- The registers a host write leaves as they are (10_state.md R38). CMD is not among them: a write of it runs a
command. -/
def Reg.readOnly : Reg → Bool
  | .cmd | .status | .arg0 | .arg1 | .arg2 | .arg3 => false
  | .envAttack | .envDecay | .envSustain | .envRelease | .envIn _ | .oscLfoInt => false
  | .dmemRe _ | .dmemIm _ => false
  | _ => true

theorem writeReg_of_readOnly (s : State) (v : Word) {r : Reg} (h : r.readOnly = true) : writeReg s v r = s := by
  cases r with
  | status | arg0 | arg1 | arg2 | arg3 | envAttack | envDecay | envSustain | envRelease | envIn _ | oscLfoInt
  | dmemRe _ | dmemIm _ => cases h
  | _ => rfl

theorem Reg.ne_cmd_of_readOnly {r : Reg} (h : r.readOnly = true) : r ≠ .cmd := by
  rintro rfl
  cases h

/-- The offsets of the read-only fixed rows. -/
def readOnlyOffsets : List Nat := (registerMap.filter fun row => row.2.readOnly).map Prod.fst

theorem mem_readOnlyOffsets_iff {a : Nat} :
    a ∈ readOnlyOffsets ↔ ∃ r, (a, r) ∈ registerMap ∧ r.readOnly = true := by
  simp [readOnlyOffsets]

section Writes

variable {s : State} {off : Offset} {v : Word} {es : List HostEvent}

theorem step_of_write_fixed (hl : s.params.Legal) (hp : s.port.pending = .write off 4 v :: es) {r : Reg}
    (hrow : (off.toNat, r) ∈ registerMap) (hr : r ≠ .cmd) :
    step s = .next ((writeReg (s.setPending es) v r).respond .ack) :=
  step_of_write hp (accessTarget_fixed hl hrow) hr

/-- A write of a read-only register changes only the bus (10_state.md R38). -/
theorem step_of_write_readOnly {r : Reg} (hp : s.port.pending = .write off 4 v :: es)
    (hr : accessTarget s.params off 4 = some r) (hro : r.readOnly = true) :
    step s = .next { s with port := { pending := es, response := some .ack } } := by
  rw [step_of_write hp hr (Reg.ne_cmd_of_readOnly hro), writeReg_of_readOnly _ _ hro]
  rfl

/-- A write of either word of a DMEM element stores that word at the offset (20_memory.md R71). -/
theorem step_of_write_dmem (hl : s.params.Legal) (hp : s.port.pending = .write off 4 v :: es) {i : Nat}
    (hi : i < s.params.dmemSize) (hoff : off.toNat = 0x1000000 + 8 * i ∨ off.toNat = 0x1000004 + 8 * i) :
    step s = .next { s with
      dmem := Memory.writeWord s.dmem off.toNat v
      port := { pending := es, response := some .ack } } := by
  rcases hoff with hre | him
  · have hoffset : off.toNat = reOffset i := hre
    rw [step_of_write hp (accessTarget_dmemRe hi hl hre) nofun, hoffset]
    rfl
  · have hoffset : off.toNat = imOffset i := by unfold imOffset dmemBase; omega
    rw [step_of_write hp (accessTarget_dmemIm hi hl him) nofun, hoffset]
    rfl

end Writes

/-! ### The execution of a command word (R112) -/

theorem executeWord_of_ok {run : Runner} {w : Word} {i : Instr} (h : decode w = .ok i) (s : State) :
    executeWord run w s = run i s := by
  simp only [executeWord, h]

/-- A result code below 3 leaves ERR as it is (60_exceptions.md R262). -/
theorem State.report_of_not_setsErr (s : State) {c : ResultCode} (h : c.setsErr = false) :
    s.report c = { s with status := { code := c, err := s.status.err } } := by
  simp only [State.report, Status.record, h, Bool.or_false]

/-! ### What each command can do -/

section Commands

variable {s t : State}

/-- A command that checks its operands goes on in either case. -/
theorem next_ite {c : Prop} [Decidable c] {a b : State}
    (h : (if c then .next a else .next b : Outcome State Fault Refusal) = .next t) :
    (c ∧ t = a) ∨ (¬ c ∧ t = b) := by
  split at h
  · next hc => exact .inl ⟨hc, (Outcome.next.inj h).symm⟩
  · next hc => exact .inr ⟨hc, (Outcome.next.inj h).symm⟩

theorem execFftConfig_next (h : execFftConfig s = .next t) :
    (2 ^ s.params.log2Pmax < padded s.arg0.toNat ∧ t = s.report .badArg) ∨
      (¬ 2 ^ s.params.log2Pmax < padded s.arg0.toNat ∧
        t = ((s.setContext (fftContext (ilog (padded s.arg0.toNat)))).setRes
          (BitVec.ofNat 32 (padded s.arg0.toNat))).report .ok) :=
  next_ite h

theorem execRbInit_next (h : execRbInit s = .next t) :
    ((s.arg0.toNat = 0 ∨ s.params.rbMax < s.arg0.toNat) ∧ t = s.report .badArg) ∨
      (¬ (s.arg0.toNat = 0 ∨ s.params.rbMax < s.arg0.toNat) ∧
        t = (s.setRing (s.ring.init s.arg0)).report .ok) :=
  next_ite h

theorem execRbPush_next (h : execRbPush s = .next t) :
    s.ring.endT.toNat + 1 ≠ 2 ^ 64 ∧ t = (s.setRing (s.ring.push s.arg0)).report .ok := by
  unfold execRbPush at h
  split at h
  · cases h
  · next hroom => exact ⟨hroom, (Outcome.next.inj h).symm⟩

theorem execRbGet_next (h : execRbGet s = .next t) :
    (s.ring.inWindow s.timeOperand = true ∧
        t = (s.setRes (s.ring.readSlot (s.ring.slot s.timeOperand))).report .ok) ∨
      (¬ s.ring.inWindow s.timeOperand = true ∧ t = s.report .notAvailable) :=
  next_ite h

theorem execRbUpdate_next (h : execRbUpdate s = .next t) :
    (s.ring.inWindow s.timeOperand = true ∧
        t = (s.setRing (s.ring.writeSlot (s.ring.slot s.timeOperand) s.arg2)).report .ok) ∨
      (¬ s.ring.inWindow s.timeOperand = true ∧ t = s.report .notFound) :=
  next_ite h

theorem execOscInit_next {wave : BitVec 3} {aa : Bool} (h : execOscInit wave aa s = .next t) :
    (∃ w, waveformOfCode wave = some w ∧ t = (s.setOsc (s.osc.init w aa)).report .ok) ∨
      (waveformOfCode wave = none ∧ t = s.report .illegal) := by
  unfold execOscInit at h
  split at h
  · next w hw => exact .inl ⟨w, hw, (Outcome.next.inj h).symm⟩
  · next hw => exact .inr ⟨hw, (Outcome.next.inj h).symm⟩

/-! ### What a command writes besides STATUS (R113) -/

/-- The writes R113 leaves to the command `i` before it reports: nothing, TIME by STEP, the context and RES0 by
FFT_CONFIG, WB and DMEM by the transforms, RES0 by RB_GET, and otherwise the command's own unit. -/
inductive OwnWrite (s : State) : Instr → State → Prop where
  | nothing (i : Instr) : OwnWrite s i s
  | time : OwnWrite s .step s.advanceTime
  | context (c : FftContext) (v : Word) : OwnWrite s .fftConfig ((s.setContext c).setRes v)
  | output {i : Instr} (hi : i = .fftFwd ∨ i = .fftInv) (dst : Nat) (work out : List Complex32) :
      OwnWrite s i (s.writeOutput dst work out)
  | sample (v : Word) : OwnWrite s .rbGet (s.setRes v)
  | ring {i : Instr} (hi : i = .rbInit ∨ i = .rbPush ∨ i = .rbUpdate) (r : RingBuffer) : OwnWrite s i (s.setRing r)
  | env {i : Instr} (hi : i = .envNoteDown ∨ i = .envNoteUp ∨ i = .envTick) (e : Envelope) : OwnWrite s i (s.setEnv e)
  | osc {i : Instr}
      (hi : (∃ w b, i = .oscInit w b) ∨ i = .oscSetFreq ∨ i = .oscSetTranspose ∨ i = .oscSetBend) (o : Oscillator) :
      OwnWrite s i (s.setOsc o)
  | oscTick (lfo : Bool) (o : Oscillator) : OwnWrite s (.oscTick lfo) (s.setOsc o).drawFor

/-- A transform command reports at once, or writes its output first. -/
theorem transform_ownWrite {inverse : Bool} {out : FftContext → Complex32 → Complex32} {i : Instr}
    (hi : i = .fftFwd ∨ i = .fftInv) (h : transform inverse out s = .next t) :
    ∃ u c, OwnWrite s i u ∧ t = u.report c := by
  rcases transform_next h with ⟨code, -, rfl⟩ | ⟨c, ys, -, -, rfl⟩
  · exact ⟨_, _, .nothing i, rfl⟩
  · exact ⟨_, _, .output hi _ _ _, rfl⟩

/-- A command that goes on writes what is its own and then reports one result code (R112, R113). -/
theorem exec_ownWrite {i : Instr} (h : exec i s = .next t) : ∃ u c, OwnWrite s i u ∧ t = u.report c := by
  cases i with
  | nop => cases h; exact ⟨_, _, .nothing _, rfl⟩
  | step => cases h; exact ⟨_, _, .time, rfl⟩
  | fftConfig =>
    rcases execFftConfig_next h with ⟨-, rfl⟩ | ⟨-, rfl⟩
    · exact ⟨_, _, .nothing _, rfl⟩
    · exact ⟨_, _, .context _ _, rfl⟩
  | fftFwd => exact transform_ownWrite (.inl rfl) h
  | fftInv => exact transform_ownWrite (.inr rfl) h
  | rbInit =>
    rcases execRbInit_next h with ⟨-, rfl⟩ | ⟨-, rfl⟩
    · exact ⟨_, _, .nothing _, rfl⟩
    · exact ⟨_, _, .ring (.inl rfl) _, rfl⟩
  | rbPush =>
    obtain ⟨-, rfl⟩ := execRbPush_next h
    exact ⟨_, _, .ring (.inr (.inl rfl)) _, rfl⟩
  | rbGet =>
    rcases execRbGet_next h with ⟨-, rfl⟩ | ⟨-, rfl⟩
    · exact ⟨_, _, .sample _, rfl⟩
    · exact ⟨_, _, .nothing _, rfl⟩
  | rbUpdate =>
    rcases execRbUpdate_next h with ⟨-, rfl⟩ | ⟨-, rfl⟩
    · exact ⟨_, _, .ring (.inr (.inr rfl)) _, rfl⟩
    · exact ⟨_, _, .nothing _, rfl⟩
  | envNoteDown => cases h; exact ⟨_, _, .env (.inl rfl) _, rfl⟩
  | envNoteUp => cases h; exact ⟨_, _, .env (.inr (.inl rfl)) _, rfl⟩
  | envTick => cases h; exact ⟨_, _, .env (.inr (.inr rfl)) _, rfl⟩
  | oscInit wave aa =>
    rcases execOscInit_next h with ⟨w, -, rfl⟩ | ⟨-, rfl⟩
    · exact ⟨_, _, .osc (.inl ⟨wave, aa, rfl⟩) _, rfl⟩
    · exact ⟨_, _, .nothing _, rfl⟩
  | oscSetFreq => cases h; exact ⟨_, _, .osc (.inr (.inl rfl)) _, rfl⟩
  | oscSetTranspose => cases h; exact ⟨_, _, .osc (.inr (.inr (.inl rfl))) _, rfl⟩
  | oscSetBend => cases h; exact ⟨_, _, .osc (.inr (.inr (.inr rfl))) _, rfl⟩
  | oscTick lfo => cases h; exact ⟨_, _, .oscTick lfo _, rfl⟩

end Commands

/-! ### The obligations -/

/-- Settles O50: the report writes STATUS alone, and each write before it leaves the other units' fields. -/
theorem commandsWriteOnlyTheirUnit : Obligations.CommandsWriteOnlyTheirUnit := by
  intro i s t h
  obtain ⟨u, c, hu, rfl⟩ := exec_ownWrite h
  cases hu with
  | nothing => simp
  | time => simp
  | context => simp
  | output hi => rcases hi with rfl | rfl <;> simp
  | sample => simp
  | ring hi => rcases hi with rfl | rfl | rfl <;> simp
  | env hi => rcases hi with rfl | rfl | rfl <;> simp
  | osc hi => rcases hi with ⟨w, b, rfl⟩ | rfl | rfl | rfl <;> simp
  | oscTick => simp

/-- Settles O55: the register at each offset, and what `writeReg` does to it. -/
theorem hostWriteChangesOnlyItsRegister : Obligations.HostWriteChangesOnlyItsRegister := by
  intro s off v es hl hp q
  obtain ⟨-, -, -, ⟨-, hnch⟩, -, -⟩ := id hl
  have hfixed (r : Reg) (hr : r ≠ .cmd) (n : Offset) (hrow : (n.toNat, r) ∈ registerMap) (hoff : off = n) :
      step s = .next ((writeReg (s.setPending es) v r).respond .ack) :=
    step_of_write_fixed hl hp (hoff ▸ hrow) hr
  refine ⟨hfixed .arg0 nofun _ (by decide), hfixed .arg1 nofun _ (by decide), hfixed .arg2 nofun _ (by decide),
    hfixed .arg3 nofun _ (by decide), hfixed .envAttack nofun _ (by decide), hfixed .envDecay nofun _ (by decide),
    fun hoff => ⟨_, hfixed .envSustain nofun _ (by decide) hoff⟩, hfixed .envRelease nofun _ (by decide),
    hfixed .oscLfoInt nofun _ (by decide), fun c hc hoff => ?_, fun i hi hoff => ?_, ?_⟩
  · refine ⟨_, step_of_write hp (accessTarget_envIn hc hoff) nofun, fun d => ?_⟩
    have hc8 : c < 8 := by omega
    simp [frameGet_frameSet, hc8]
  · exact ⟨_, step_of_write_dmem hl hp hi hoff, Memory.readByte_writeWord s.dmem off.toNat v⟩
  · rintro (hlisted | ⟨c, hc, hoff⟩)
    · obtain ⟨r, hrow, hro⟩ := mem_readOnlyOffsets_iff.1 hlisted
      exact step_of_write_readOnly hp (accessTarget_fixed hl hrow) hro
    · exact step_of_write_readOnly hp (accessTarget_envOut hl hc hoff) rfl

/-- Settles O4: the word decodes, so `executeWord` is the command. -/
theorem stepRunsDecodedCommand : Obligations.StepRunsDecodedCommand := by
  intro s w i es hp hi
  rw [step_of_cmdWrite hp, executeWord_of_ok hi]
  rfl

/-- Settles O5: NOP is the report of OK alone. -/
theorem nopOnlyReportsOk : Obligations.NopOnlyReportsOk :=
  fun s => congrArg Outcome.next (s.report_of_not_setsErr rfl)

/-- Settles O6: STEP advances TIME, a 64-bit addition, and reports OK. -/
theorem stepAddsOneToTime : Obligations.StepAddsOneToTime :=
  fun s => ⟨s.time + 1, BitVec.toNat_add s.time 1, congrArg Outcome.next (s.advanceTime.report_of_not_setsErr rfl)⟩

end Sys2Proof.Machine
end

section
/-! PROOFS. The statements of 41_ring_buffer.md: the slots of a window (R131), RB_INIT (R140), RB_PUSH (R141),
RB_GET (R142), RB_UPDATE (R143), and the window after many pushes (R145). First the window and its slots, then
each command by the branch it takes, then what a buffer holds of the values pushed, then the obligations. -/

namespace Sys2Proof.Machine

/-! ### The window and its slots (R130, R131) -/

/-- Two times less than the capacity apart have slots of their own. -/
theorem RingBuffer.slot_ne_of_inWindow {r : RingBuffer} (hlen : r.endT.toNat ≤ r.startT.toNat + r.cap.toNat)
    {t₁ t₂ : Time} (h₁ : r.inWindow t₁ = true) (h₂ : r.inWindow t₂ = true) (hne : t₁ ≠ t₂) :
    r.slot t₁ ≠ r.slot t₂ := by
  rw [RingBuffer.inWindow_iff] at h₁ h₂
  intro (hslot : t₁.toNat ≡ t₂.toNat [MOD r.cap.toNat])
  have hnear : |(t₂.toNat : ℤ) - t₁.toNat| < r.cap.toNat := by rw [abs_lt]; omega
  exact hne (BitVec.eq_of_toNat_eq (hslot.eq_of_abs_lt hnear))

theorem RingBuffer.not_inWindow_iff (r : RingBuffer) (t : Time) :
    ¬ r.inWindow t = true ↔ t.toNat < r.startT.toNat ∨ r.endT.toNat ≤ t.toNat := by
  rw [RingBuffer.inWindow_iff, not_and_or, not_le, not_lt]

theorem RingBuffer.full_iff (r : RingBuffer) :
    r.full = true ↔ r.endT.toNat = r.startT.toNat + r.cap.toNat :=
  decide_eq_true_iff

@[simp] theorem RingBuffer.push_slot (r : RingBuffer) (v : Word) (t : Time) : (r.push v).slot t = r.slot t := rfl

/-- A time of the window after a push is the one just pushed or was in the window before. -/
theorem RingBuffer.inWindow_of_push {r : RingBuffer} (horder : r.startT.toNat ≤ r.endT.toNat)
    (hend : r.endT.toNat + 1 < 2 ^ 64) {v : Word} {t : Time} (h : (r.push v).inWindow t = true) :
    t = r.endT ∨ r.inWindow t = true := by
  obtain ⟨hendT, hstartT⟩ := RingBuffer.push_window horder hend v
  rw [RingBuffer.inWindow_iff, hendT, hstartT] at h
  have hstart : r.startT.toNat ≤ t.toNat := le_trans (by split <;> omega) h.1
  rcases (Nat.lt_succ_iff.1 h.2).eq_or_lt with hnew | hold
  · exact .inl (BitVec.eq_of_toNat_eq hnew)
  · exact .inr ((r.inWindow_iff t).2 ⟨hstart, hold⟩)

/-! ### Each command by the branch it takes -/

/-- A result code from 3 on sets ERR (60_exceptions.md R262). -/
theorem State.report_of_setsErr (s : State) {c : ResultCode} (h : c.setsErr = true) :
    s.report c = { s with status := { code := c, err := true } } := by
  simp only [State.report, Status.record, h, Bool.or_true]

section Commands

variable {s : State}

theorem State.timeOperand_toNat (s : State) : s.timeOperand.toNat = s.arg0.toNat + 2 ^ 32 * s.arg1.toNat :=
  operandT64_toNat s.arg0 s.arg1

theorem exec_rbInit_of_bad (h : s.arg0.toNat = 0 ∨ s.params.rbMax < s.arg0.toNat) :
    exec .rbInit s = .next (s.report .badArg) :=
  if_pos h

theorem exec_rbInit_of_legal (h : ¬ (s.arg0.toNat = 0 ∨ s.params.rbMax < s.arg0.toNat)) :
    exec .rbInit s = .next ((s.setRing (s.ring.init s.arg0)).report .ok) :=
  if_neg h

theorem exec_rbPush_of_last (h : s.ring.endT.toNat + 1 = 2 ^ 64) :
    exec .rbPush s = .refused .pushCountExhausted :=
  if_pos h

theorem exec_rbPush_of_room (h : s.ring.endT.toNat + 1 < 2 ^ 64) :
    exec .rbPush s = .next ((s.setRing (s.ring.push s.arg0)).report .ok) :=
  if_neg h.ne

theorem exec_rbGet_of_inWindow (h : s.ring.inWindow s.timeOperand = true) :
    exec .rbGet s = .next ((s.setRes (s.ring.readSlot (s.ring.slot s.timeOperand))).report .ok) :=
  if_pos h

theorem exec_rbGet_of_not_inWindow (h : ¬ s.ring.inWindow s.timeOperand = true) :
    exec .rbGet s = .next (s.report .notAvailable) :=
  if_neg h

theorem exec_rbUpdate_of_inWindow (h : s.ring.inWindow s.timeOperand = true) :
    exec .rbUpdate s = .next ((s.setRing (s.ring.writeSlot (s.ring.slot s.timeOperand) s.arg2)).report .ok) :=
  if_pos h

theorem exec_rbUpdate_of_not_inWindow (h : ¬ s.ring.inWindow s.timeOperand = true) :
    exec .rbUpdate s = .next (s.report .notFound) :=
  if_neg h

end Commands

/-! ### What a buffer holds of the values pushed (R145) -/

/-- The buffer after the values of `pushed` went into an empty one: it has counted them all, its window starts
`C` before the end (at 0 until the buffer is full), and the slot of an in-window time `t` is the `t`-th value. -/
structure RingBuffer.Holds (r : RingBuffer) (pushed : List Word) : Prop where
  endT : r.endT.toNat = pushed.length
  startT : r.startT.toNat = pushed.length - r.cap.toNat
  sample : ∀ t, r.inWindow t = true → pushed[t.toNat]? = some (r.readSlot (r.slot t))

theorem RingBuffer.holds_nil {r : RingBuffer} (hstart : r.startT = 0) (hend : r.endT = 0) : r.Holds [] where
  endT := by rw [hend]; rfl
  startT := by rw [hstart, List.length_nil, Nat.zero_sub]; rfl
  sample t ht := by
    have hlt := ((r.inWindow_iff t).1 ht).2
    rw [hend] at hlt
    exact absurd hlt (Nat.not_lt_zero _)

/-- A push adds its value at the end: the new time reads it, and every other time still in the window keeps its
value, for its slot is another one. -/
theorem RingBuffer.Holds.push {r : RingBuffer} {pushed : List Word} (h : r.Holds pushed)
    (hroom : pushed.length + 1 < 2 ^ 64) (v : Word) : (r.push v).Holds (pushed ++ [v]) := by
  obtain ⟨hend, hstart, hsample⟩ := h
  have horder : r.startT.toNat ≤ r.endT.toNat := by omega
  have hendRoom : r.endT.toNat + 1 < 2 ^ 64 := by omega
  obtain ⟨hend', hstart'⟩ := RingBuffer.push_window horder hendRoom v
  have hlen : (pushed ++ [v]).length = pushed.length + 1 := List.length_append
  have hstartT : (r.push v).startT.toNat = (pushed ++ [v]).length - (r.push v).cap.toNat := by
    rw [hstart', hlen, RingBuffer.push_cap]
    split <;> omega
  refine ⟨by omega, hstartT, fun t ht => ?_⟩
  rw [RingBuffer.push_slot, RingBuffer.readSlot_push]
  by_cases hnew : t = r.endT
  · rw [hnew, if_pos rfl, hend, List.getElem?_concat_length]
  · have hold : r.inWindow t = true := (RingBuffer.inWindow_of_push horder hendRoom ht).resolve_left hnew
    have hlt : t.toNat < r.endT.toNat := ((r.inWindow_iff t).1 hold).2
    have hstarted : (r.push v).startT.toNat ≤ t.toNat := (((r.push v).inWindow_iff t).1 ht).1
    have hendIn : (r.push v).inWindow r.endT = true :=
      ((r.push v).inWindow_iff _).2 ⟨hstarted.trans hlt.le, by omega⟩
    have hne : r.slot t ≠ r.slot r.endT :=
      RingBuffer.slot_ne_of_inWindow (r := r.push v) (by omega) ht hendIn hnew
    rw [if_neg hne, List.getElem?_append_left (hend ▸ hlt), hsample t hold]

/-- Pushing a list of values completes, keeps the capacity, and adds the list to what the buffer holds. -/
theorem pushAll_holds {vs pushed : List Word} {s : State} (h : s.ring.Holds pushed)
    (hroom : pushed.length + vs.length < 2 ^ 64) :
    ∃ u, pushAll vs s = .next u ∧ u.ring.cap = s.ring.cap ∧ u.ring.Holds (pushed ++ vs) := by
  induction vs generalizing pushed s with
  | nil => exact ⟨s, rfl, rfl, by rwa [List.append_nil]⟩
  | cons v vs ih =>
    rw [List.length_cons] at hroom
    have hend : s.ring.endT.toNat = pushed.length := h.endT
    have hpush : exec .rbPush { s with arg0 := v } =
        .next (({ s with arg0 := v }.setRing (s.ring.push v)).report .ok) :=
      exec_rbPush_of_room (s := { s with arg0 := v }) (by dsimp only; omega)
    have hrest : (pushed ++ [v]).length + vs.length < 2 ^ 64 := by
      rw [List.length_append, List.length_singleton]
      omega
    obtain ⟨u, hrun, hcap, hu⟩ := ih (s := ({ s with arg0 := v }.setRing (s.ring.push v)).report .ok)
      (h.push (by omega) v) hrest
    rw [List.append_assoc] at hu
    exact ⟨u, by rw [pushAll, hpush]; exact hrun, hcap, hu⟩

/-! ### The obligations -/

/-- Settles O22: times with one slot are congruent modulo the capacity, and those of a window differ by less. -/
theorem windowSlotsDiffer : Obligations.WindowSlotsDiffer :=
  ⟨fun _ _ => rfl, fun _ _ _ hlen h₁ h₂ hne => RingBuffer.slot_ne_of_inWindow hlen h₁ h₂ hne⟩

/-- Settles O23: the pushes leave a buffer that holds the list, by induction on it, and RB_GET reads its window. -/
theorem windowAfterPushes : Obligations.WindowAfterPushes := by
  intro s k vs hstart hend _ _ hlen hroom
  obtain ⟨u, hrun, hucap, hendT, hstartT, hsample⟩ :=
    pushAll_holds (RingBuffer.holds_nil hstart hend) (vs := vs) (by rwa [List.length_nil, Nat.zero_add])
  rw [List.nil_append] at hendT hstartT hsample
  rw [hucap] at hstartT
  refine ⟨u, hrun, by omega, by omega, fun lo hi => ?_⟩
  have ht : (operandT64 lo hi).toNat = lo.toNat + 2 ^ 32 * hi.toNat := operandT64_toNat lo hi
  have hout (h : (operandT64 lo hi).toNat < u.ring.startT.toNat ∨ u.ring.endT.toNat ≤ (operandT64 lo hi).toNat) :
      exec .rbGet { u with arg0 := lo, arg1 := hi } = .next { u with
        arg0 := lo, arg1 := hi, status := { code := .notAvailable, err := u.status.err } } := by
    rw [exec_rbGet_of_not_inWindow (s := { u with arg0 := lo, arg1 := hi }) ((u.ring.not_inWindow_iff _).2 h),
      State.report_of_not_setsErr _ rfl]
  refine ⟨fun hbelow => hout (by omega), fun habove => hout (by omega), fun hfrom v hv => ?_⟩
  have hlt : lo.toNat + 2 ^ 32 * hi.toNat < vs.length := (List.getElem?_eq_some_iff.1 hv).1
  have hin : u.ring.inWindow (operandT64 lo hi) = true := (u.ring.inWindow_iff _).2 (by omega)
  have hread : u.ring.readSlot (u.ring.slot (operandT64 lo hi)) = v :=
    Option.some.inj ((hsample _ hin).symm.trans (ht ▸ hv))
  rw [exec_rbGet_of_inWindow (s := { u with arg0 := lo, arg1 := hi }) hin, State.report_of_not_setsErr _ rfl, ← hread]
  rfl

/-- Settles O18: the check of the capacity, then the emptied buffer. -/
theorem rbInitSetsCapacity : Obligations.RbInitSetsCapacity := by
  refine fun s => ⟨fun hlo hhi => ?_, fun hbad => ?_⟩
  · rw [exec_rbInit_of_legal (by omega), State.report_of_not_setsErr _ rfl]
    rfl
  · rw [exec_rbInit_of_bad hbad, State.report_of_setsErr _ rfl]

/-- Settles O19: the buffer after one push, counter by counter and slot by slot. -/
theorem rbPushAppends : Obligations.RbPushAppends := by
  refine fun s => ⟨fun hroom => ⟨s.ring.push s.arg0, ?_, rfl, ?_, ?_, ?_, ?_⟩, exec_rbPush_of_last⟩
  · rw [exec_rbPush_of_room hroom, State.report_of_not_setsErr _ rfl]
    rfl
  · exact BitVec.toNat_add_of_lt hroom
  · exact fun hfull => if_pos (s.ring.full_iff.2 hfull)
  · exact fun hspace => if_neg (s.ring.full_iff.not.2 hspace)
  · exact s.ring.readSlot_push s.arg0

/-- Settles O20: both answers of RB_GET, at the time its two operands spell. -/
theorem rbGetReadsWindow : Obligations.RbGetReadsWindow := by
  intro s
  simp only [← State.timeOperand_toNat]
  refine ⟨fun hlo hhi => ?_, fun hout => ?_⟩
  · rw [exec_rbGet_of_inWindow ((s.ring.inWindow_iff _).2 ⟨hlo, hhi⟩), State.report_of_not_setsErr _ rfl]
    rfl
  · rw [exec_rbGet_of_not_inWindow ((s.ring.not_inWindow_iff _).2 hout), State.report_of_not_setsErr _ rfl]

/-- Settles O21: both answers of RB_UPDATE, and the slots after the write. -/
theorem rbUpdateOverwritesWindow : Obligations.RbUpdateOverwritesWindow := by
  intro s
  simp only [← State.timeOperand_toNat]
  refine ⟨fun hlo hhi => ⟨s.ring.writeSlot (s.ring.slot s.timeOperand) s.arg2, ?_, rfl, rfl, rfl,
    s.ring.readSlot_writeSlot _ _⟩, fun hout => ?_⟩
  · rw [exec_rbUpdate_of_inWindow ((s.ring.inWindow_iff _).2 ⟨hlo, hhi⟩), State.report_of_not_setsErr _ rfl]
    rfl
  · rw [exec_rbUpdate_of_not_inWindow ((s.ring.not_inWindow_iff _).2 hout), State.report_of_not_setsErr _ rfl]

end Sys2Proof.Machine
end

section
/-! PROOFS. The statements of 42_fft.md: the padded size (R150, R151), bit reversal (R159), the twiddle table (R160,
R161), FFT_CONFIG (R163), the network (R165), the transforms and their checks (R166 to R171), the unit impulse (R172)
and the inverse transform's scale (R169). First the helpers and the tables, then the butterflies of a stage, then a
transform as a whole, then the obligations. -/

namespace Sys2Proof.Machine

/-! ### The padded size (R150) -/

/-- `paddedLog n` is the least exponent whose power of two reaches `n`. -/
theorem paddedLog_le_iff (n c : Nat) : paddedLog n ≤ c ↔ n ≤ 2 ^ c := by
  unfold paddedLog
  have hpos : 0 < 2 ^ c := Nat.two_pow_pos c
  split
  · omega
  · rw [Nat.succ_le_iff, Nat.log2_lt (by omega)]
    omega

/-! ### Bit reversal (R159) -/

theorem bitrev_eq_sum (b v : Nat) :
    bitrev b v = ∑ j ∈ Finset.range b, (v / 2 ^ j % 2) * 2 ^ (b - 1 - j) := by
  induction b generalizing v with
  | zero => rfl
  | succ b ih =>
    have hshift (j : Nat) : v / 2 ^ (j + 1) = v / 2 / 2 ^ j := by rw [Nat.pow_succ', Nat.div_div_eq_div_mul]
    rw [bitrev, ih, Finset.sum_range_succ', Nat.add_comm]
    simp only [hshift, Nat.add_sub_cancel, Nat.pow_zero, Nat.div_one, Nat.sub_zero, ← Nat.sub_sub,
      Nat.sub_right_comm b _ 1]

theorem bitrev_lt (b v : Nat) : bitrev b v < 2 ^ b := by
  induction b generalizing v with
  | zero => exact Nat.one_pos
  | succ b ih =>
    have hlow := ih (v / 2)
    have hbit : v % 2 * 2 ^ b ≤ 1 * 2 ^ b := Nat.mul_le_mul_right _ (by omega)
    rw [bitrev, Nat.pow_succ]
    omega

/-- Bit `i` of the reversal is bit `b - 1 - i` of the value. -/
theorem testBit_bitrev (b v i : Nat) : (bitrev b v).testBit i = (decide (i < b) && v.testBit (b - 1 - i)) := by
  induction b generalizing v i with
  | zero => simp [bitrev]
  | succ b ih =>
    rw [bitrev, Nat.mul_comm, Nat.testBit_two_pow_mul_add _ (bitrev_lt b _)]
    split
    · next hlow =>
      rw [ih, Nat.testBit_div_two, show b - 1 - i + 1 = b + 1 - 1 - i by omega, decide_eq_true hlow,
        decide_eq_true (Nat.lt_succ_of_lt hlow)]
    · next hhigh =>
      rcases (Nat.not_lt.1 hhigh).eq_or_lt with rfl | habove
      · simp [Nat.testBit_zero]
      · have hbit : v % 2 < 2 ^ (i - b) :=
          (Nat.mod_lt v Nat.two_pos).trans_le (Nat.le_self_pow (by omega) 2)
        simp [Nat.testBit_lt_two_pow hbit, Nat.not_lt.2 habove]

theorem bitrev_bitrev {b v : Nat} (hv : v < 2 ^ b) : bitrev b (bitrev b v) = v := by
  refine Nat.eq_of_testBit_eq fun i => ?_
  rw [testBit_bitrev, testBit_bitrev]
  by_cases hi : i < b
  · rw [show b - 1 - (b - 1 - i) = i by omega]
    simp [hi, show b - 1 - i < b by omega]
  · have hhigh : v < 2 ^ i := hv.trans_le (Nat.pow_le_pow_right Nat.two_pos (Nat.not_lt.1 hi))
    simp [hi, Nat.testBit_lt_two_pow hhigh]

theorem revTable_getElem? {b i : Nat} (hi : i < 2 ^ b) : (revTable b)[i]? = some (bitrev b i) := by
  simp [revTable, hi]

theorem twTable_getElem? {b k : Nat} (hk : k < 2 ^ b) : (twTable b)[k]? = some (twiddle (2 ^ b) k) := by
  simp [twTable, hk]

/-! ### Twiddle factors (R160, R161) -/

/-- At a quarter turn the angle is a multiple of a right angle, below a whole turn. -/
theorem angle_of_quarter {b k : Nat} (hk : k < 2 ^ b) (h : 4 * k % 2 ^ b = 0) :
    ∃ m < 4, 4 * k / 2 ^ b = m ∧ 2 * Real.pi * k / 2 ^ b = m * (Real.pi / 2) := by
  obtain ⟨m, hm⟩ := Nat.dvd_of_mod_eq_zero h
  have hpos : 0 < 2 ^ b := Nat.two_pow_pos b
  refine ⟨m, by nlinarith, by rw [hm, Nat.mul_div_cancel_left m hpos], ?_⟩
  have hm' : (4 * k : ℝ) = 2 ^ b * m := by exact_mod_cast hm
  field_simp
  linarith

/-- The exact parts at the quarter turns are the cosine and the negated sine there. -/
theorem twiddle_quarter_roundsTo {b k : Nat} (hk : k < 2 ^ b) (h : 4 * k % 2 ^ b = 0) :
    RoundsTo (Real.cos (2 * Real.pi * k / 2 ^ b)) (twiddle (2 ^ b) k).re ∧
      RoundsTo (-Real.sin (2 * Real.pi * k / 2 ^ b)) (twiddle (2 ^ b) k).im := by
  obtain ⟨m, hm, hquot, hangle⟩ := angle_of_quarter hk h
  have hneg : RoundsTo (-1) (neg32 one32) := roundsTo_one.neg one_ne_zero
  rw [twiddle, if_pos h, hquot, hangle]
  have h2 : ((2 : Nat) : ℝ) * (Real.pi / 2) = Real.pi := by push_cast; ring
  have h3 : ((3 : Nat) : ℝ) * (Real.pi / 2) = Real.pi + Real.pi / 2 := by push_cast; ring
  match m, hm with
  | 0, _ => simpa using ⟨roundsTo_one, roundsTo_zero⟩
  | 1, _ => simpa using ⟨roundsTo_zero, hneg⟩
  | 2, _ => rw [h2]; simpa using ⟨hneg, roundsTo_zero⟩
  | 3, _ => rw [h3]; simpa [Real.cos_add, Real.sin_add] using ⟨roundsTo_zero, roundsTo_one⟩

/-- The enclosures a twiddle off the quarter turns is rounded from. -/
def twiddleEnclosure (b k : Nat) : Enclosure × Enclosure :=
  doubleAngles 3 (encCis (encDivNat (encMul (encInt k) encPi) (4 * 2 ^ b)))

theorem twiddle_off_quarter {b k : Nat} (h : 4 * k % 2 ^ b ≠ 0) :
    twiddle (2 ^ b) k = ⟨roundEnc (twiddleEnclosure b k).1 fun _ => turnFloor b k,
      roundEncNeg (twiddleEnclosure b k).2 fun _ => turnFloor b (k + 2 ^ b / 4)⟩ := by
  have hlog : twiddle (2 ^ b) k = ⟨roundEnc (twiddleEnclosure b k).1 fun _ => turnFloor (Nat.log2 (2 ^ b)) k,
      roundEncNeg (twiddleEnclosure b k).2 fun _ => turnFloor (Nat.log2 (2 ^ b)) (k + 2 ^ b / 4)⟩ := if_neg h
  rwa [Nat.log2_two_pow] at hlog

/-- They hold the cosine and the sine of its angle, an eighth of which is below 1. -/
theorem twiddleEnclosure_holds {b k : Nat} (hk : k < 2 ^ b) :
    CisHolds (twiddleEnclosure b k) (2 * Real.pi * k / 2 ^ b) := by
  have hp : (0 : ℝ) < 2 ^ b := by positivity
  have hk' : (k : ℝ) < 2 ^ b := by exact_mod_cast hk
  have heighth : (encDivNat (encMul (encInt k) encPi) (4 * 2 ^ b)).Holds (k * Real.pi / (4 * 2 ^ b)) := by
    have := encDivNat_holds (encMul_holds (encInt_holds k) encPi_holds) (d := 4 * 2 ^ b) (by positivity)
    simpa using this
  have hsmall : |k * Real.pi / (4 * 2 ^ b)| ≤ 1 := by
    rw [abs_of_nonneg (by positivity), div_le_one (by positivity)]
    nlinarith [Real.pi_pos, Real.pi_lt_four]
  have := doubleAngles_holds 3 (encCis_holds heighth hsmall)
  rwa [show (2 : ℝ) ^ 3 * (k * Real.pi / (4 * 2 ^ b)) = 2 * Real.pi * k / 2 ^ b by ring] at this

/-- The negated sine is the cosine a quarter of a turn on. -/
theorem cos_quarter_on {b : Nat} (hb : 2 ≤ b) (k : Nat) :
    Real.cos (2 * Real.pi * (k + 2 ^ b / 4 : Nat) / 2 ^ b) = -Real.sin (2 * Real.pi * k / 2 ^ b) := by
  obtain ⟨c, rfl⟩ := Nat.exists_eq_add_of_le' hb
  rw [← Real.cos_add_pi_div_two, show 2 ^ (c + 2) / 4 = 2 ^ c by rw [pow_add]; omega]
  congr 1
  push_cast
  field_simp
  ring

theorem twiddle_roundsTo {b k : Nat} (hk : k < 2 ^ b) :
    RoundsTo (Real.cos (2 * Real.pi * k / 2 ^ b)) (twiddle (2 ^ b) k).re ∧
      RoundsTo (-Real.sin (2 * Real.pi * k / 2 ^ b)) (twiddle (2 ^ b) k).im := by
  by_cases h : 4 * k % 2 ^ b = 0
  · exact twiddle_quarter_roundsTo hk h
  have hb : 2 ≤ b := by
    by_contra hlt
    exact h (Nat.mod_eq_zero_of_dvd ((Nat.pow_dvd_pow 2 (by omega : b ≤ 2)).mul_right k))
  have hshift : 4 * (k + 2 ^ b / 4) % 2 ^ b ≠ 0 := by
    obtain ⟨c, rfl⟩ := Nat.exists_eq_add_of_le' hb
    have : 4 * (k + 2 ^ (c + 2) / 4) = 4 * k + 2 ^ (c + 2) := by rw [pow_add]; omega
    rwa [this, Nat.add_mod_right]
  obtain ⟨hcos, hsin⟩ := twiddleEnclosure_holds hk
  have hfloorSin := turnFloor_spec hshift
  rw [cos_quarter_on hb] at hfloorSin
  have hre := roundEnc_roundsTo (floor := fun _ => turnFloor b k) hcos (turnFloor_spec h)
  have him := roundEncNeg_roundsTo (floor := fun _ => turnFloor b (k + 2 ^ b / 4)) hsin hfloorSin
  simp only [twiddle_off_quarter h]
  exact ⟨hre, him⟩

/-- Equal fractions of the turn have equal twiddles, whatever the padded sizes: a number rounds to one pattern
only. -/
theorem twiddle_eq_of_fraction {b c k m : Nat} (hm : m < 2 ^ c) (hc : c ≤ b) (h : k = m * 2 ^ (b - c)) :
    twiddle (2 ^ b) k = twiddle (2 ^ c) m := by
  obtain ⟨d, rfl⟩ := Nat.exists_eq_add_of_le hc
  rw [Nat.add_sub_cancel_left] at h
  have hk : k < 2 ^ (c + d) := by
    rw [h, pow_add]
    exact Nat.mul_lt_mul_of_pos_right hm (Nat.two_pow_pos d)
  have hangle : 2 * Real.pi * k / 2 ^ (c + d) = 2 * Real.pi * m / 2 ^ c := by
    rw [h, Nat.cast_mul, Nat.cast_pow, Nat.cast_ofNat, pow_add, ← mul_assoc, mul_div_mul_right _ _ (by positivity)]
  obtain ⟨hre, him⟩ := twiddle_roundsTo hk
  obtain ⟨hre', him'⟩ := twiddle_roundsTo hm
  rw [hangle] at hre him
  exact congrArg₂ Complex32.mk (hre.unique hre') (him.unique him')

theorem twiddle_whole : twiddle (2 ^ 0) 0 = ⟨0x3F800000, 0x00000000⟩ := by decide

theorem twiddle_half : twiddle (2 ^ 1) 1 = ⟨0xBF800000, 0x00000000⟩ := by decide

theorem twiddle_quarter : twiddle (2 ^ 2) 1 = ⟨0x00000000, 0xBF800000⟩ := by decide

theorem twiddle_three_quarters : twiddle (2 ^ 2) 3 = ⟨0x00000000, 0x3F800000⟩ := by decide

theorem twiddle_eighth : twiddle (2 ^ 3) 1 = ⟨0x3F3504F3, 0xBF3504F3⟩ := by decide +kernel

/-! ### FFT_CONFIG by the branch it takes (R163) -/

section Config

variable {s : State}

theorem exec_fftConfig_of_fits (h : paddedLog s.arg0.toNat ≤ s.params.log2Pmax) :
    exec .fftConfig s = .next (((s.setContext (fftContext (paddedLog s.arg0.toNat))).setRes
      (BitVec.ofNat 32 (padded s.arg0.toNat))).report .ok) := by
  rw [← ilog_padded]
  exact if_neg (Nat.not_lt.2 (Nat.pow_le_pow_right Nat.two_pos h))

theorem exec_fftConfig_of_large (h : s.params.log2Pmax < paddedLog s.arg0.toNat) :
    exec .fftConfig s = .next (s.report .badArg) :=
  if_pos (Nat.pow_lt_pow_right Nat.one_lt_two h)

end Config

/-! ### Butterflies on disjoint pairs (R165) -/

/-- `f` reads and writes the elements at the indices of `I` alone. -/
structure ActsOn (f : List Complex32 → List Complex32) (I : Set Nat) : Prop where
  keeps : ∀ wb, ∀ i ∉ I, (f wb)[i]? = wb[i]?
  reads : ∀ wb wb', (∀ i ∈ I, wb[i]? = wb'[i]?) → ∀ i ∈ I, (f wb)[i]? = (f wb')[i]?

theorem ActsOn.mono {f : List Complex32 → List Complex32} {I J : Set Nat} (h : ActsOn f I) (hIJ : I ⊆ J) :
    ActsOn f J := by
  refine ⟨fun wb i hi => h.keeps wb i fun hI => hi (hIJ hI), fun wb wb' heq i hi => ?_⟩
  by_cases hI : i ∈ I
  · exact h.reads wb wb' (fun j hj => heq j (hIJ hj)) i hI
  · rw [h.keeps wb i hI, h.keeps wb' i hI, heq i hi]

section Folds

variable {α : Type} {f : α → List Complex32 → List Complex32} {I : α → Set Nat} {J : Set Nat}

/-- A sequence of actions on `J` acts on `J`. -/
theorem ActsOn.foldl {as : List α} (h : ∀ a ∈ as, ActsOn (f a) J) :
    ActsOn (fun wb => as.foldl (fun acc a => f a acc) wb) J := by
  induction as with
  | nil => exact ⟨fun _ _ _ => rfl, fun _ _ heq => heq⟩
  | cons a as ih =>
    have hfirst := h a List.mem_cons_self
    have hrest := ih fun b hb => h b (List.mem_cons_of_mem a hb)
    exact ⟨fun wb i hi => (hrest.keeps _ i hi).trans (hfirst.keeps wb i hi),
      fun wb wb' heq => hrest.reads _ _ (hfirst.reads wb wb' heq)⟩

/-- In a sequence of actions on disjoint sets each leaves at its own indices what it makes of the list the
sequence began with. -/
theorem getElem?_foldl_of_disjoint {as : List α} (h : ∀ a ∈ as, ActsOn (f a) (I a))
    (hdisjoint : as.Pairwise fun a b => Disjoint (I a) (I b)) {a : α} (ha : a ∈ as) (wb : List Complex32)
    {i : Nat} (hi : i ∈ I a) :
    (as.foldl (fun acc a => f a acc) wb)[i]? = (f a wb)[i]? := by
  induction as generalizing wb with
  | nil => cases ha
  | cons b as ih =>
    obtain ⟨hfirst, hrest⟩ := List.pairwise_cons.1 hdisjoint
    have hrestActs (c : α) (hc : c ∈ as) : ActsOn (f c) (I c) := h c (List.mem_cons_of_mem b hc)
    rcases List.mem_cons.1 ha with rfl | hmem
    · have hoff : ActsOn (fun wb => as.foldl (fun acc a => f a acc) wb) (I a)ᶜ :=
        ActsOn.foldl fun c hc => (hrestActs c hc).mono (hfirst c hc).subset_compl_left
      exact hoff.keeps _ i (fun hc => hc hi)
    · have hsame : ∀ j ∈ I a, (f b wb)[j]? = wb[j]? := fun j hj =>
        (h b List.mem_cons_self).keeps wb j fun hb => Set.disjoint_left.1 (hfirst a hmem) hb hj
      exact (ih hrestActs hrest hmem (f b wb)).trans ((hrestActs a hmem).reads _ _ hsame i hi)

end Folds

section Stage

variable {tw : List Complex32} {half stride g k : Nat}

/-- A butterfly reads and writes its pair alone. -/
theorem butterflyAt_actsOn : ActsOn (butterflyAt tw half stride g k) {g + k, g + k + half} := by
  refine ⟨fun wb i hi => ?_, fun wb wb' heq i hi => ?_⟩
  · rw [Set.mem_insert_iff, Set.mem_singleton_iff, not_or] at hi
    obtain ⟨hlo, hhi⟩ := hi
    unfold butterflyAt
    dsimp only
    rw [List.getElem?_set_ne (Ne.symm hhi), List.getElem?_set_ne (Ne.symm hlo)]
  · have hlo := heq (g + k) (.inl rfl)
    have hhi := heq (g + k + half) (.inr rfl)
    simp only [butterflyAt, List.getD_eq_getElem?_getD, List.getElem?_set', hlo, hhi, heq i hi]

theorem butterflyAt_getElem? {wb : List Complex32} (hhalf : 0 < half) (hlen : g + k + half < wb.length) :
    let r := butterfly (wb.getD (g + k) czero) (wb.getD (g + k + half) czero) (tw.getD (k * stride) czero)
    (butterflyAt tw half stride g k wb)[g + k]? = some r.1 ∧
      (butterflyAt tw half stride g k wb)[g + k + half]? = some r.2 := by
  unfold butterflyAt
  dsimp only
  constructor
  · rw [List.getElem?_set_ne (by omega), List.getElem?_set_self (by omega)]
  · rw [List.getElem?_set_self (by simpa using hlen)]

/-- The pairs of a group are disjoint. -/
theorem pairs_disjoint (g half : Nat) : (List.range half).Pairwise fun k l =>
    Disjoint ({g + k, g + k + half} : Set Nat) {g + l, g + l + half} := by
  refine List.pairwise_lt_range.imp_of_mem fun hk hl hlt => ?_
  rw [List.mem_range] at hk hl
  simp only [Set.disjoint_left, Set.mem_insert_iff, Set.mem_singleton_iff]
  intro i hk' hl'
  omega

/-- A group reads and writes its own elements alone. -/
theorem groupPass_actsOn : ActsOn (groupPass tw half stride g) {i | g ≤ i ∧ i < g + 2 * half} := by
  refine ActsOn.foldl fun k hk => butterflyAt_actsOn.mono ?_
  rw [List.mem_range] at hk
  rintro i (rfl | rfl) <;> constructor <;> omega

/-- The groups of a stage are disjoint. -/
theorem groups_disjoint (half count : Nat) : (List.range count).Pairwise fun q r =>
    Disjoint {i | q * (2 * half) ≤ i ∧ i < q * (2 * half) + 2 * half}
      {i | r * (2 * half) ≤ i ∧ i < r * (2 * half) + 2 * half} := by
  refine List.pairwise_lt_range.imp fun {q r} hlt => ?_
  have hnext : (q + 1) * (2 * half) ≤ r * (2 * half) := Nat.mul_le_mul_right _ hlt
  rw [Nat.succ_mul] at hnext
  rw [Set.disjoint_left]
  rintro i ⟨-, hi⟩ ⟨hi', -⟩
  omega

/-- An element of a pair after a stage is the pair's own butterfly's, on what the stage began with. -/
theorem stagePass_getElem?_of_pair {p q : Nat} (hq : q < p / (2 * half)) (hk : k < half) (wb : List Complex32)
    {i : Nat} (hi : i = q * (2 * half) + k ∨ i = q * (2 * half) + k + half) :
    (stagePass tw p (2 * half) wb)[i]? = (butterflyAt tw half (p / (2 * half)) (q * (2 * half)) k wb)[i]? := by
  have hgroup : i ∈ {i | q * (2 * half) ≤ i ∧ i < q * (2 * half) + 2 * half} := by
    constructor <;> omega
  unfold stagePass
  rw [Nat.mul_div_cancel_left half Nat.two_pos]
  calc _ = (groupPass tw half (p / (2 * half)) (q * (2 * half)) wb)[i]? :=
        getElem?_foldl_of_disjoint (fun _ _ => groupPass_actsOn) (groups_disjoint half _) (List.mem_range.2 hq) wb
          hgroup
    _ = _ := getElem?_foldl_of_disjoint (fun _ _ => butterflyAt_actsOn) (pairs_disjoint _ half)
        (List.mem_range.2 hk) wb hi

/-- A stage replaces every pair by its butterfly. -/
theorem stagePass_pair {p q : Nat} {wb : List Complex32} (hdvd : 2 * half ∣ p) (hlen : wb.length = p)
    (hq : q * (2 * half) < p) (hk : k < half) :
    let lo := q * (2 * half) + k
    let r := butterfly (wb.getD lo czero) (wb.getD (lo + half) czero) (tw.getD (k * (p / (2 * half))) czero)
    (stagePass tw p (2 * half) wb)[lo]? = some r.1 ∧ (stagePass tw p (2 * half) wb)[lo + half]? = some r.2 := by
  obtain ⟨count, rfl⟩ := hdvd
  have hcount : q < count := Nat.lt_of_mul_lt_mul_left (by rwa [Nat.mul_comm q] at hq)
  have hgroup : q < 2 * half * count / (2 * half) := by rwa [Nat.mul_div_cancel_left _ (by omega)]
  have hend : q * (2 * half) + 2 * half ≤ 2 * half * count := by
    rw [← Nat.succ_mul, Nat.mul_comm _ count]
    exact Nat.mul_le_mul_right _ hcount
  obtain ⟨hlo, hhi⟩ := butterflyAt_getElem? (tw := tw) (stride := 2 * half * count / (2 * half))
    (g := q * (2 * half)) (k := k) (half := half) (wb := wb) (by omega) (by omega)
  exact ⟨(stagePass_getElem?_of_pair hgroup hk wb (.inl rfl)).trans hlo,
    (stagePass_getElem?_of_pair hgroup hk wb (.inr rfl)).trans hhi⟩

end Stage

/-- The network after its first `c` stages. -/
theorem foldl_stages {tw wb : List Complex32} {b : Nat} {stage : Nat → List Complex32} (h0 : stage 0 = wb)
    (hnext : ∀ j, j < b → stage (j + 1) = stagePass tw (2 ^ b) (2 ^ (j + 1)) (stage j)) {c : Nat} (hc : c ≤ b) :
    (List.range c).foldl (fun acc j => stagePass tw (2 ^ b) (2 ^ (j + 1)) acc) wb = stage c := by
  induction c with
  | zero => exact h0.symm
  | succ c ih => rw [List.range_succ, List.foldl_concat, ih (by omega), hnext c (by omega)]

/-! ### The checks and the load of a transform (R165, R166, R170) -/

section Checks

variable {p : Params} {u : FftUnit} {o : TransformOperands} {c : FftContext}

theorem transformChecks_of_no_context (h : u.context = none) : transformChecks p u o = .error .noContext := by
  simp only [transformChecks, h]

theorem transformChecks_of_context (h : u.context = some c) :
    transformChecks p u o =
      if o.outLen < c.size then .error .outTooShort
      else if p.dmemSize < o.src + min o.len c.size then .error .range
      else if p.dmemSize < o.dst + c.size then .error .range
      else .ok c := by
  simp only [transformChecks, h]

theorem transformChecks_of_short (h : u.context = some c) (hout : o.outLen < c.size) :
    transformChecks p u o = .error .outTooShort := by
  rw [transformChecks_of_context h, if_pos hout]

theorem transformChecks_of_src_range (h : u.context = some c) (hout : c.size ≤ o.outLen)
    (hsrc : p.dmemSize < o.src + min o.len c.size) : transformChecks p u o = .error .range := by
  rw [transformChecks_of_context h, if_neg hout.not_gt, if_pos hsrc]

theorem transformChecks_of_dst_range (h : u.context = some c) (hout : c.size ≤ o.outLen)
    (hsrc : o.src + min o.len c.size ≤ p.dmemSize) (hdst : p.dmemSize < o.dst + c.size) :
    transformChecks p u o = .error .range := by
  rw [transformChecks_of_context h, if_neg hout.not_gt, if_neg hsrc.not_gt, if_pos hdst]

theorem transformChecks_of_pass (h : u.context = some c) (hout : c.size ≤ o.outLen)
    (hsrc : o.src + min o.len c.size ≤ p.dmemSize) (hdst : o.dst + c.size ≤ p.dmemSize) :
    transformChecks p u o = .ok c := by
  rw [transformChecks_of_context h, if_neg hout.not_gt, if_neg hsrc.not_gt, if_neg hdst.not_gt]

end Checks

/-- A transform that fails a check reports its code. -/
theorem transform_of_failed_check {inverse : Bool} {out : FftContext → Complex32 → Complex32} {s : State}
    {code : ResultCode} (h : transformChecks s.params s.fft s.transformOperands = .error code) :
    transform inverse out s = .next (s.report code) := by
  simp only [transform, h]

theorem transform_of_core {inverse : Bool} {out : FftContext → Complex32 → Complex32} {s : State}
    {c : FftContext} {ys : List Complex32} (h : transformChecks s.params s.fft s.transformOperands = .ok c)
    (hcore : transformCore s.dmem c s.transformOperands.src s.transformOperands.len inverse = .ok ys) :
    transform inverse out s = .next ((s.writeOutput s.transformOperands.dst ys (ys.map (out c))).report .ok) := by
  simp only [transform, h, hcore]

/-- The two transform commands are one transform with different loads and outputs. -/
theorem exec_transform {i : Instr} (hi : i = .fftFwd ∨ i = .fftInv) :
    ∃ inverse out, exec i = transform inverse out := by
  rcases hi with rfl | rfl
  · exact ⟨false, fun _ y => y, rfl⟩
  · exact ⟨true, scaleInverse, rfl⟩

/-- Input element `j` as the load takes it: conjugated by the inverse transform, the padding from `lr` on not. -/
def inputPoint (inverse : Bool) (lr : Nat) (x : Nat → Complex32) (j : Nat) : Complex32 :=
  if j < lr then (if inverse then conj32 (x j) else x j) else czero

theorem loadPoint_of_readable {m : Memory} {src lr : Nat} {x : Nat → Complex32}
    (h : ∀ j, j < lr → m.loadElement (src + j) = .ok (x j)) (inverse : Bool) (j : Nat) :
    loadPoint m src lr inverse j = .ok (inputPoint inverse lr x j) := by
  unfold loadPoint inputPoint
  split
  · next hj => rw [h j hj]
  · rfl

/-- The core on readable input is the network on the bit-reversed, padded or truncated input. -/
theorem transformCore_of_readable {m : Memory} {b src len : Nat} {x : Nat → Complex32}
    (h : ∀ j, j < min len (2 ^ b) → m.loadElement (src + j) = .ok (x j)) (inverse : Bool) :
    transformCore m (fftContext b) src len inverse =
      .ok (network (twTable b) b
        ((List.range (2 ^ b)).map fun i => inputPoint inverse (min len (2 ^ b)) x (bitrev b i))) := by
  have hload : loadInput m src (min len (2 ^ b)) inverse (revTable b) =
      .ok ((revTable b).map (inputPoint inverse (min len (2 ^ b)) x)) := by
    rw [loadInput_ok, List.forall₂_map_right_iff, List.forall₂_same]
    exact fun j _ => loadPoint_of_readable h inverse j
  rw [revTable, List.map_map] at hload
  simp only [transformCore, fftContext_size, fftContext_rev, fftContext_tw, fftContext_log2p, revTable, hload]
  rfl

theorem reOffset_eq (i : Nat) : reOffset i = 0x1000000 + 8 * i := rfl

theorem imOffset_eq (i : Nat) : imOffset i = 0x1000004 + 8 * i := Nat.add_right_comm _ _ _

/-- A transform on readable input that passes the checks completes: WB holds the network's result, the output
elements of DMEM hold what `out` makes of it, and nothing else changes but STATUS. -/
theorem transform_writes (inverse : Bool) (out : FftContext → Complex32 → Complex32) {s : State} {b : Nat}
    {x : Nat → Complex32} (hcontext : s.fft.context = some (fftContext b)) (hout : 2 ^ b ≤ s.arg3.toNat)
    (hsrc : s.arg0.toNat + min s.arg1.toNat (2 ^ b) ≤ s.params.dmemSize)
    (hdst : s.arg2.toNat + 2 ^ b ≤ s.params.dmemSize)
    (hread : ∀ j, j < min s.arg1.toNat (2 ^ b) →
      Memory.readWord s.dmem (0x1000000 + 8 * (s.arg0.toNat + j)) = some (x j).re ∧
        Memory.readWord s.dmem (0x1000004 + 8 * (s.arg0.toNat + j)) = some (x j).im) :
    ∃ (t : State) (y : List Complex32), transform inverse out s = .next t ∧
      y = network (twTable b) b
        ((List.range (2 ^ b)).map fun i => inputPoint inverse (min s.arg1.toNat (2 ^ b)) x (bitrev b i)) ∧
      y.length = 2 ^ b ∧
      (∀ i, i < 2 ^ b → ∀ z, y[i]? = some z →
        Memory.readWord t.dmem (0x1000000 + 8 * (s.arg2.toNat + i)) = some (out (fftContext b) z).re ∧
          Memory.readWord t.dmem (0x1000004 + 8 * (s.arg2.toNat + i)) = some (out (fftContext b) z).im) ∧
      (∀ a, (a < 0x1000000 + 8 * s.arg2.toNat ∨ 0x1000000 + 8 * (s.arg2.toNat + 2 ^ b) ≤ a) →
        Memory.readByte t.dmem a = Memory.readByte s.dmem a) ∧
      t = { s with
        dmem := t.dmem
        fft := { s.fft with wb := y ++ s.fft.wb.drop (2 ^ b) }
        status := { code := .ok, err := s.status.err } } := by
  have hchecks : transformChecks s.params s.fft s.transformOperands = .ok (fftContext b) :=
    transformChecks_of_pass hcontext hout hsrc hdst
  have hcore := transformCore_of_readable (m := s.dmem) (src := s.arg0.toNat) (x := x)
    (fun j hj => (Memory.loadElement_ok _ _ _).2 (by rw [reOffset_eq, imOffset_eq]; exact hread j hj)) inverse
  generalize hy : network (twTable b) b _ = y at hcore
  have hlen : y.length = 2 ^ b := by rw [← hy, network_length, List.length_map, List.length_range]
  refine ⟨_, y, transform_of_core hchecks hcore, rfl, hlen, fun i hi z hz => ?_, fun a ha => ?_, ?_⟩
  · obtain ⟨hiy, rfl⟩ := List.getElem?_eq_some_iff.1 hz
    have := Memory.readWord_storeElements (y.map (out (fftContext b))) s.dmem s.arg2.toNat i (by simpa using hiy)
    rw [List.getElem_map, reOffset_eq, imOffset_eq] at this
    exact this
  · exact Memory.readByte_storeElements _ _ _ (by rw [List.length_map, hlen]; exact ha)
  · rw [State.report_of_not_setsErr _ rfl, ← hlen]
    rfl

/-! ### The impulse (R172) -/

theorem twTable_three : twTable 3 =
    [⟨0x3F800000, 0x00000000⟩, ⟨0x3F3504F3, 0xBF3504F3⟩, ⟨0x00000000, 0xBF800000⟩, ⟨0xBF3504F3, 0xBF3504F3⟩,
      ⟨0xBF800000, 0x00000000⟩, ⟨0xBF3504F3, 0x3F3504F3⟩, ⟨0x00000000, 0x3F800000⟩, ⟨0x3F3504F3, 0x3F3504F3⟩] := by
  decide +kernel

/-- The unit impulse. -/
def impulse (j : Nat) : Complex32 := ⟨if j = 0 then 0x3F800000 else 0, 0⟩

/-- The impulse's own zeros are the padding. -/
theorem inputPoint_impulse {lr : Nat} (hlr : 0 < lr) (j : Nat) : inputPoint false lr impulse j = impulse j := by
  unfold inputPoint
  split
  · rfl
  · have hj : j ≠ 0 := by omega
    simp [impulse, hj, czero, zero32]

/-- Bit reversal keeps the impulse in place, and every stage copies it to the other half of its group. -/
theorem network_impulse :
    network (twTable 3) 3 ((List.range (2 ^ 3)).map fun i => impulse (bitrev 3 i)) =
      List.replicate 8 ⟨0x3F800000, 0⟩ := by
  rw [twTable_three]
  decide +kernel

/-! ### Scaling by a power of two (R169) -/

theorem ValueOf.signBit_of_pos {v : Word} {x : ℝ} (h : ValueOf v x) (hx : 0 < x) : signBit v = false := by
  by_contra hs
  have hneg := h.eq_sign_mul
  rw [if_pos (Bool.eq_true_of_not_eq_false hs), neg_one_mul] at hneg
  have : 0 ≤ (units v : ℝ) / 2 ^ 149 := by positivity
  linarith

/-- A rational that is a power of two in the exponent range is kept by rounding. -/
theorem valueOf_f32OfRat_two_pow {n : Int} {d k : Nat} (hd : 0 < d) (hk : k ≤ 253)
    (h : (n : ℝ) / d = 2 ^ k / 2 ^ 149) : ValueOf (f32OfRat n d) ((n : ℝ) / d) := by
  obtain ⟨v, hv⟩ := exists_valueOf (z := 1) (by norm_num) hk
  rw [Int.cast_one, one_mul, ← h] at hv
  exact (roundsTo_f32OfRat_of_pos n hd).valueOf hv

theorem valueOf_size {b : Nat} (hb : b ≤ 21) : ValueOf (f32OfRat (2 ^ b) 1) (2 ^ b) := by
  have h := valueOf_f32OfRat_two_pow (n := 2 ^ b) (d := 1) (k := b + 149) one_pos (by omega)
    (by rw [pow_add, mul_div_cancel_right₀ _ (by positivity)]; simp)
  simpa using h

theorem valueOf_inverse_size {b : Nat} (hb : b ≤ 21) : ValueOf (f32OfRat 1 (2 ^ b)) (2 ^ b)⁻¹ := by
  have h := valueOf_f32OfRat_two_pow (n := 1) (d := 2 ^ b) (k := 149 - b) (by positivity) (by omega)
    (by rw [pow_sub₀ _ two_ne_zero (by omega)]; field_simp; simp)
  simpa using h

theorem isZero32_of_inf {v : Word} (h : isInf32 v = true) : isZero32 v = false := by
  unfold isInf32 at h
  unfold isZero32
  rw [of_decide_eq_true h]
  rfl

/-- Multiplication by the inverse of a positive number and division by the number agree at every pattern: a NaN,
an infinity, a zero, and a nonzero number, whose product and quotient are one real number. -/
theorem mul32_inv_eq_div32 {x v w : Word} {r : ℝ} (hr : 0 < r) (hv : ValueOf v r⁻¹) (hw : ValueOf w r) :
    mul32 x v = div32 x w := by
  have hpos : 0 < r⁻¹ := inv_pos.2 hr
  have hv0 := hv.not_zero hpos.ne'
  obtain ⟨hvn, hvi⟩ := isFinite_flags hv.1
  obtain ⟨hwn, hwi⟩ := isFinite_flags hw.1
  have hsv := hv.signBit_of_pos hpos
  have hsw := hw.signBit_of_pos hr
  rcases nan_or_inf_or_finite x with hn | hi | hf
  · rw [mul32_of_nan (.inl hn), div32_of_nan (.inl hn)]
  · rw [mul32_inf (inf_not_nan hi) hvn (.inl hi), div32_inf_left hi hwn, hsv, hsw]
    simp [isZero32_of_inf hi, hv0, hwi]
  · have hx : ValueOf x ((signedUnits x : ℝ) / 2 ^ 149) := ⟨hf, rfl⟩
    by_cases h0 : (signedUnits x : ℝ) / 2 ^ 149 = 0
    · rw [mul32_of_product_zero hx hv (by rw [h0, zero_mul]), div32_of_zero_left hx hw hr.ne' h0, hsv, hsw]
    · have hmul := mul32_roundsTo hx hv (mul_ne_zero h0 hpos.ne')
      rw [← div_eq_mul_inv] at hmul
      exact hmul.unique (div32_roundsTo hx hw hr.ne' (div_ne_zero h0 hr.ne'))

/-! ### The obligations -/

/-- Settles O7: `paddedLog n` is the least exponent whose power of two reaches `n`. -/
theorem paddedIsLeastPowerOfTwo : Obligations.PaddedIsLeastPowerOfTwo := by
  refine ⟨fun n => ⟨paddedLog n, rfl, (paddedLog_le_iff n _).1 le_rfl, fun c hc => ?_⟩, by decide,
    fun _ => Nat.log2_two_pow, rfl⟩
  exact Nat.pow_le_pow_right Nat.two_pos ((paddedLog_le_iff n c).2 hc)

/-- Settles O8: the sum by the recursion of `bitrev`, the involution bit by bit. -/
theorem bitReversalReversesBits : Obligations.BitReversalReversesBits :=
  ⟨fun b v hv => ⟨bitrev_eq_sum b v, bitrev_lt b v, bitrev_bitrev hv⟩, rfl, fun _ _ => revTable_getElem?,
    revTable_length, by decide⟩

/-- Settles O9: each entry has the angle of one of a padded size at most 8, which evaluates. -/
theorem twiddleExactEntries : Obligations.TwiddleExactEntries := by
  refine fun b => ⟨?_, fun hb => ?_, fun hb => ⟨?_, ?_⟩, fun hb => ?_⟩
  · rw [twiddle_eq_of_fraction (by decide : 0 < 2 ^ 0) b.zero_le (Nat.zero_mul _).symm, twiddle_whole]
  · rw [twiddle_eq_of_fraction (by decide : 1 < 2 ^ 1) hb (Nat.one_mul _).symm, twiddle_half]
  · rw [twiddle_eq_of_fraction (by decide : 1 < 2 ^ 2) hb (Nat.one_mul _).symm, twiddle_quarter]
  · rw [twiddle_eq_of_fraction (by decide : 3 < 2 ^ 2) hb rfl, twiddle_three_quarters]
  · rw [twiddle_eq_of_fraction (by decide : 1 < 2 ^ 3) hb (Nat.one_mul _).symm, twiddle_eighth]

/-- Settles O10: exactly at the quarter turns, and by the enclosures and the exact floors elsewhere. -/
theorem twiddleIsRoundedRoot : Obligations.TwiddleIsRoundedRoot :=
  fun _ _ hk => ⟨twTable_getElem? hk, twiddle_roundsTo hk⟩

/-- Settles O11: the exponent given is `paddedLog` of the operand, on which the command branches. -/
theorem fftConfigBuildsContext : Obligations.FftConfigBuildsContext := by
  intro s b hb hleast
  obtain rfl : b = paddedLog s.arg0.toNat :=
    le_antisymm (hleast _ ((paddedLog_le_iff _ _).1 le_rfl)) ((paddedLog_le_iff _ _).2 hb)
  refine ⟨fun hfits => ?_, fun hlarge => ?_⟩
  · rw [exec_fftConfig_of_fits hfits, State.report_of_not_setsErr _ rfl]
    rfl
  · rw [exec_fftConfig_of_large hlarge, State.report_of_setsErr _ rfl]

/-- Settles O12: each check by the branch it takes, for both commands. -/
theorem transformChecksInOrder : Obligations.TransformChecksInOrder := by
  intro s i hi
  obtain ⟨inverse, out, hexec⟩ := exec_transform hi
  have hfails {code : ResultCode} (hcode : code.setsErr = true)
      (h : transformChecks s.params s.fft s.transformOperands = .error code) :
      exec i s = .next { s with status := { code := code, err := true } } := by
    rw [hexec, transform_of_failed_check h, State.report_of_setsErr _ hcode]
  refine ⟨fun hc => hfails rfl (transformChecks_of_no_context hc), fun c hc => ⟨?_, ?_, ?_, ?_⟩⟩
  · exact fun hout => hfails rfl (transformChecks_of_short hc hout)
  · exact fun hout hsrc => hfails rfl (transformChecks_of_src_range hc hout hsrc)
  · exact fun hout hsrc hdst => hfails rfl (transformChecks_of_dst_range hc hout hsrc hdst)
  · intro hout hsrc hdst t ht
    have hpass := transformChecks_of_pass (p := s.params) (o := s.transformOperands) hc hout hsrc hdst
    rw [hexec] at ht
    rcases transform_next ht with ⟨code, hcode, -⟩ | ⟨_, _, -, -, rfl⟩
    · rw [hpass] at hcode
      cases hcode
    · rw [State.report_of_not_setsErr _ rfl]
      rfl

/-- Settles O13: the transform with the plain load and output. -/
theorem fftFwdWritesTransform : Obligations.FftFwdWritesTransform :=
  fun _ _ _ hcontext hout hsrc hdst hread =>
    transform_writes false (fun _ y => y) hcontext hout hsrc hdst hread

/-- Settles O14: the transform with the conjugating load and the scaling output. -/
theorem fftInvWritesTransform : Obligations.FftInvWritesTransform :=
  fun _ _ _ hcontext hout hsrc hdst hread =>
    transform_writes true scaleInverse hcontext hout hsrc hdst hread

/-- Settles O15: the network by induction on its stages; a stage by the disjointness of its groups and pairs. -/
theorem stageIsButterflies : Obligations.StageIsButterflies := by
  refine ⟨fun b tw wb stage h0 hnext => foldl_stages h0 hnext le_rfl, fun b j tw wb hj hlen => ?_⟩
  refine ⟨(stagePass_length _ _ _ _).trans hlen, fun q k hq hk => ?_⟩
  have hn : 2 ^ (j + 1) = 2 * 2 ^ j := pow_succ' 2 j
  have hdvd : 2 * 2 ^ j ∣ 2 ^ b := hn ▸ pow_dvd_pow 2 hj
  rw [hn] at hq
  rw [hn, Nat.mul_div_cancel_left _ Nat.two_pos] at hk ⊢
  exact stagePass_pair hdvd hlen hq hk

/-- Settles O16: with either length the load answers the whole impulse, on which the network of size 8 evaluates. -/
theorem impulseHasFlatSpectrum : Obligations.ImpulseHasFlatSpectrum := by
  intro s hcontext hout hsrc hdst hlen hread
  obtain ⟨hpos, hle⟩ : 0 < s.arg1.toNat ∧ s.arg1.toNat ≤ 2 ^ 3 := by
    rcases hlen with h | h <;> rw [h] <;> decide
  have hmin : min s.arg1.toNat (2 ^ 3) = s.arg1.toNat := min_eq_left hle
  obtain ⟨t, y, hexec, hy, -, hwords, -, -⟩ := transform_writes false (fun _ y => y) (x := impulse) hcontext hout
    (by rwa [hmin]) hdst (by rwa [hmin])
  simp only [hmin, inputPoint_impulse hpos, network_impulse] at hy
  refine ⟨t, hexec, fun i hi => hwords i hi ⟨0x3F800000, 0⟩ ?_⟩
  rw [hy, List.getElem?_replicate, if_pos hi]

/-- Settles O17: both constants are exact, and `f32(1/P)` has the value inverse to that of `P`. -/
theorem inverseScaleIsDivision : Obligations.InverseScaleIsDivision :=
  fun _ _ hb => mul32_inv_eq_div32 (by positivity) (valueOf_inverse_size hb) (valueOf_size hb)

end Sys2Proof.Machine
end

section
/-! PROOFS. The statements of 43_envelope.md: ramps (R193, R194), state entry and its successors (R195, R196), the
note events (R198, R199), ENV_TICK (R200 to R202), the level range (R203) and the ramp's shape (R204). First the
arithmetic of a ramp, then state entry and the tick, then the schedule over one tick, then the commands and the pass
discipline, then a whole ramp, then the obligations. -/

namespace Sys2Proof.Machine

open Host

/-! ### Ramps (R193, R194) -/

/-- Saturation never moves a number away from 0. -/
theorem saturate32_bounds (v : Int) :
    (0 ≤ v → 0 ≤ (saturate32 v).toInt ∧ (saturate32 v).toInt ≤ v) ∧
      (v ≤ 0 → v ≤ (saturate32 v).toInt ∧ (saturate32 v).toInt ≤ 0) := by
  rw [saturate32_toInt]
  omega

/-- In the range of the levels the saturation does nothing. -/
theorem saturate32_of_inRange {v : Int} (h : 0 ≤ v ∧ v ≤ 0x40000000) : (saturate32 v).toInt = v := by
  rw [saturate32_toInt]
  omega

/-- `d` additions of a ramp's delta stay between 0 and the distance to the target. -/
theorem mul_rampDelta_bounds (target level : Word) {d : Nat} (hd : 1 ≤ d) :
    (level.toInt ≤ target.toInt → 0 ≤ (d : Int) * (rampDelta target level d).toInt ∧
        (d : Int) * (rampDelta target level d).toInt ≤ target.toInt - level.toInt) ∧
      (target.toInt ≤ level.toInt → target.toInt - level.toInt ≤ (d : Int) * (rampDelta target level d).toInt ∧
        (d : Int) * (rampDelta target level d).toInt ≤ 0) := by
  obtain ⟨hquotUp, hquotDown⟩ := truncDiv_bounds (s32 target - s32 level) hd
  obtain ⟨hsatUp, hsatDown⟩ := saturate32_bounds (truncDiv (s32 target - s32 level) d)
  have hd0 : (0 : Int) ≤ d := Int.natCast_nonneg d
  constructor
  · intro hup
    obtain ⟨hq, hle⟩ := hquotUp (sub_nonneg.2 hup)
    obtain ⟨hδ, hδq⟩ := hsatUp hq
    exact ⟨mul_nonneg hd0 hδ, (mul_le_mul_of_nonneg_left hδq hd0).trans hle⟩
  · intro hdown
    obtain ⟨hq, hle⟩ := hquotDown (sub_nonpos.2 hdown)
    obtain ⟨hqδ, hδ⟩ := hsatDown hq
    exact ⟨hle.trans (mul_le_mul_of_nonneg_left hqδ hd0), mul_nonpos_of_nonneg_of_nonpos hd0 hδ⟩

theorem effDuration_pos (d : Word) : 1 ≤ effDuration d := le_max_left 1 d.toNat

theorem effDuration_lt (d : Word) : effDuration d < 2 ^ 32 := max_lt (by decide) d.isLt

/-- A pattern up to that of 1.0 is a level in range. -/
theorem levelInRange_of_toNat_le {v : Word} (h : v.toNat ≤ 0x40000000) : levelInRange v := by
  unfold levelInRange s32
  rw [BitVec.toInt_eq_toNat_of_lt (by omega)]
  omega

/-- Every ramp's target is a level in range (R193). -/
theorem Envelope.ramp_target_inRange {e : Envelope} (hsustain : e.sustain.toNat ≤ 0x40000000) {p : EnvPhase}
    {target duration : Word} (h : e.ramp p = some (target, duration)) : levelInRange target := by
  cases p with
  | attack => cases h; exact levelInRange_of_toNat_le (by decide)
  | decay => cases h; exact levelInRange_of_toNat_le hsustain
  | release => cases h; exact levelInRange_of_toNat_le (by decide)
  | sustain => cases h
  | silent => cases h

/-- The level is in range now and after each of the next `k` additions of DELTA. -/
def Envelope.StaysInRange (e : Envelope) (k : Nat) : Prop :=
  ∀ j : Nat, j ≤ k → 0 ≤ s32 e.level + j * s32 e.delta ∧ s32 e.level + j * s32 e.delta ≤ 0x40000000

/-- The level moves on a line, so it is in range where both ends of the line are. -/
theorem Envelope.staysInRange_of_ends {e : Envelope} {k : Nat} (hstart : levelInRange e.level)
    (hend : 0 ≤ s32 e.level + k * s32 e.delta ∧ s32 e.level + k * s32 e.delta ≤ 0x40000000) : e.StaysInRange k := by
  intro j hj
  obtain ⟨hlo, hhi⟩ := hstart
  have hjk : (j : Int) ≤ k := by exact_mod_cast hj
  have hj0 : (0 : Int) ≤ j := Int.natCast_nonneg j
  rcases le_total 0 (s32 e.delta) with hup | hdown
  · have h0 := mul_nonneg hj0 hup
    have hk := mul_le_mul_of_nonneg_right hjk hup
    omega
  · have h0 := mul_nonpos_of_nonneg_of_nonpos hj0 hdown
    have hk := mul_le_mul_of_nonpos_right hjk hdown
    omega

/-! ### State entry (R195) -/

theorem Envelope.enter_of_ramp {e : Envelope} {p : EnvPhase} {target duration : Word}
    (h : e.ramp p = some (target, duration)) (t : Time) :
    e.enter p t = { e with
      phase := p
      sched := true
      delta := rampDelta target e.level (effDuration duration)
      nextT := scheduleAt t (effDuration duration) } := by
  simp only [Envelope.enter, h]

theorem Envelope.enter_of_no_ramp {e : Envelope} {p : EnvPhase} (h : e.ramp p = none) (t : Time) :
    e.enter p t = { e with phase := p, sched := false, delta := 0, nextT := 0 } := by
  simp only [Envelope.enter, h]

/-- A ramp entered in range stays in range for its whole duration: its delta never passes the target. -/
theorem Envelope.enter_staysInRange {e : Envelope} (hlevel : levelInRange e.level)
    (hsustain : e.sustain.toNat ≤ 0x40000000) {p : EnvPhase} {target duration : Word}
    (h : e.ramp p = some (target, duration)) (t : Time) : (e.enter p t).StaysInRange (effDuration duration) := by
  obtain ⟨htlo, hthi⟩ := Envelope.ramp_target_inRange hsustain h
  obtain ⟨hup, hdown⟩ := mul_rampDelta_bounds target e.level (effDuration_pos duration)
  rw [Envelope.enter_of_ramp h]
  refine Envelope.staysInRange_of_ends hlevel ?_
  obtain ⟨hlo, hhi⟩ := hlevel
  unfold s32 at *
  dsimp only
  rcases le_total e.level.toInt target.toInt with hle | hle
  · have := hup hle
    omega
  · have := hdown hle
    omega

/-! ### The tick (R200 to R202) -/

theorem Envelope.transition_of_due {e : Envelope} {t : Time} (hsched : e.sched = true) (ht : t = e.nextT) :
    e.transition t = e.enter e.phase.succ t := by
  simp [Envelope.transition, hsched, ht]

theorem Envelope.transition_of_undue {e : Envelope} {t : Time} (h : e.sched = true → t ≠ e.nextT) :
    e.transition t = e :=
  if_neg fun hdue =>
    have ⟨hsched, ht⟩ := Bool.and_eq_true_iff.1 hdue
    h hsched (of_decide_eq_true ht)

/-- The addition is exact where the sum is a level in range. -/
theorem Envelope.addDelta_level_toInt {e : Envelope} (h : e.StaysInRange 1) :
    e.addDelta.level.toInt = e.level.toInt + e.delta.toInt :=
  saturate32_of_inRange (by simpa using h 1 le_rfl)

theorem Envelope.StaysInRange.mono {e : Envelope} {j k : Nat} (h : e.StaysInRange k) (hjk : j ≤ k) :
    e.StaysInRange j :=
  fun i hi => h i (hi.trans hjk)

/-- Each addition leaves one addition less to come. -/
theorem Envelope.StaysInRange.addDelta {e : Envelope} {k : Nat} (h : e.StaysInRange (k + 1)) :
    e.addDelta.StaysInRange k := by
  intro j hj
  have hnext := h (j + 1) (by omega)
  have hlevel : s32 e.addDelta.level = s32 e.level + s32 e.delta := Envelope.addDelta_level_toInt (h.mono (by omega))
  rw [Envelope.addDelta_delta, hlevel]
  push_cast at hnext
  rw [add_mul, one_mul] at hnext
  omega

/-- With no DELTA the level is held. -/
theorem Envelope.staysInRange_of_delta_zero {e : Envelope} (hlevel : levelInRange e.level) (h : e.delta = 0) (k : Nat) :
    e.StaysInRange k := by
  refine Envelope.staysInRange_of_ends hlevel ?_
  have hδ : s32 e.delta = 0 := by rw [h]; rfl
  rw [hδ, mul_zero, add_zero]
  exact hlevel

/-! ### The schedule over one tick (R203) -/

/-- On schedule at the tick `t` with no transition due at it: what an envelope is before the addition of `t`. -/
def Envelope.ReadyToAdd (e : Envelope) (t : Time) : Prop :=
  levelInRange e.level ∧
    (e.sched = true → ∃ k : Nat, k + 1 < 2 ^ 32 ∧ e.nextT = scheduleAt t (k + 1) ∧ e.StaysInRange (k + 1)) ∧
    (e.sched = false → e.delta = 0)

/-- State entry in range puts the envelope on schedule, its own transition at least one tick away. -/
theorem Envelope.enter_readyToAdd {e : Envelope} (hlevel : levelInRange e.level)
    (hsustain : e.sustain.toNat ≤ 0x40000000) (p : EnvPhase) (t : Time) : (e.enter p t).ReadyToAdd t := by
  refine ⟨by rwa [Envelope.enter_level], fun hsched => ?_, fun hsched => (Envelope.enter_of_unscheduled hsched).2⟩
  rw [Envelope.enter_sched, Option.isSome_iff_exists] at hsched
  obtain ⟨⟨target, duration⟩, hramp⟩ := hsched
  obtain ⟨k, hk⟩ := Nat.exists_eq_add_of_le' (effDuration_pos duration)
  refine ⟨k, hk ▸ effDuration_lt duration, ?_, hk ▸ Envelope.enter_staysInRange hlevel hsustain hramp t⟩
  rw [Envelope.enter_of_ramp hramp, hk]

theorem Envelope.ReadyToAdd.onSchedule {e : Envelope} {t : Time} (h : e.ReadyToAdd t) : e.OnSchedule t := by
  obtain ⟨hlevel, hsched, hunsched⟩ := h
  refine ⟨hlevel, fun hs => ?_, hunsched⟩
  obtain ⟨k, hk, hnext, hstays⟩ := hsched hs
  exact ⟨k + 1, hk, hnext, hstays⟩

/-- The envelope may skip the addition of `t`: a note event after the ENV_TICK of `t` enters its state at `t` and
adds from `t + 1` on. -/
theorem Envelope.ReadyToAdd.onSchedule_succ {e : Envelope} {t : Time} (h : e.ReadyToAdd t) : e.OnSchedule (t + 1) := by
  obtain ⟨hlevel, hsched, hunsched⟩ := h
  refine ⟨hlevel, fun hs => ?_, hunsched⟩
  obtain ⟨k, hk, hnext, hstays⟩ := hsched hs
  exact ⟨k, by omega, hnext.trans (scheduleAt_succ t k), hstays.mono (by omega)⟩

theorem Envelope.ReadyToAdd.staysInRange {e : Envelope} {t : Time} (h : e.ReadyToAdd t) : e.StaysInRange 1 := by
  obtain ⟨hlevel, hsched, hunsched⟩ := h
  cases hs : e.sched with
  | true =>
    obtain ⟨k, -, -, hstays⟩ := hsched hs
    exact hstays.mono (by omega)
  | false => exact Envelope.staysInRange_of_delta_zero hlevel (hunsched hs) 1

/-- The addition of `t` leaves the envelope on schedule for the next tick. -/
theorem Envelope.ReadyToAdd.addDelta {e : Envelope} {t : Time} (h : e.ReadyToAdd t) :
    e.addDelta.OnSchedule (t + 1) := by
  have hlevel : levelInRange e.addDelta.level := by
    simpa [levelInRange] using h.staysInRange.addDelta 0 le_rfl
  obtain ⟨-, hsched, hunsched⟩ := h
  refine ⟨hlevel, fun hs => ?_, hunsched⟩
  obtain ⟨k, hk, hnext, hstays⟩ := hsched hs
  exact ⟨k, by omega, hnext.trans (scheduleAt_succ t k), hstays.addDelta⟩

/-- The transition of a tick, due or not, leaves the envelope ready for the tick's addition. -/
theorem Envelope.OnSchedule.transition {e : Envelope} {t : Time} (h : e.OnSchedule t)
    (hsustain : e.sustain.toNat ≤ 0x40000000) : (e.transition t).ReadyToAdd t := by
  obtain ⟨hlevel, hsched, hunsched⟩ := h
  by_cases hdue : e.sched = true ∧ t = e.nextT
  · rw [Envelope.transition_of_due hdue.1 hdue.2]
    exact Envelope.enter_readyToAdd hlevel hsustain _ t
  · rw [not_and] at hdue
    rw [Envelope.transition_of_undue hdue]
    refine ⟨hlevel, fun hs => ?_, hunsched⟩
    obtain ⟨k, hk, hnext, hstays⟩ := hsched hs
    have hk0 : k ≠ 0 := fun h0 => hdue hs (hnext ▸ (eq_scheduleAt_iff t (by omega)).2 h0)
    obtain ⟨k, rfl⟩ := Nat.exists_eq_succ_of_ne_zero hk0
    exact ⟨k, hk, hnext, hstays⟩

/-- One ENV_TICK on schedule: the envelope is on schedule for the next tick, and the addition did not saturate. -/
theorem Envelope.OnSchedule.tick {e : Envelope} {t : Time} (h : e.OnSchedule t)
    (hsustain : e.sustain.toNat ≤ 0x40000000) (n : Nat) :
    (e.tick n t).OnSchedule (t + 1) ∧ (e.tick n t).level.toInt = e.level.toInt + (e.tick n t).delta.toInt := by
  have hready := h.transition hsustain
  refine ⟨hready.addDelta, (Envelope.addDelta_level_toInt hready.staysInRange).trans ?_⟩
  rw [Envelope.transition_level]
  rfl

theorem Envelope.onSchedule_reset (t : Time) : Envelope.reset.OnSchedule t :=
  ⟨levelInRange_of_toNat_le (by decide), nofun, fun _ => rfl⟩

/-! ### The commands -/

theorem exec_envNoteDown (s : State) : exec .envNoteDown s =
    .next { s with env := s.env.enter .attack s.time, status := { code := .ok, err := s.status.err } } :=
  congrArg Outcome.next ((s.setEnv _).report_of_not_setsErr rfl)

theorem exec_envNoteUp (s : State) : exec .envNoteUp s =
    .next { s with env := s.env.enter .release s.time, status := { code := .ok, err := s.status.err } } :=
  congrArg Outcome.next ((s.setEnv _).report_of_not_setsErr rfl)

theorem exec_envTick (s : State) : exec .envTick s =
    .next { s with
      env := s.env.tick s.params.envNch s.time, status := { code := .ok, err := s.status.err } } :=
  congrArg Outcome.next ((s.setEnv _).report_of_not_setsErr rfl)

/-- A note event enters a state at the current tick and leaves TIME and the parameters. -/
theorem exec_note {i : Instr} (hi : i = .envNoteDown ∨ i = .envNoteUp) (s : State) :
    ∃ p t, exec i s = .next t ∧ t.env = s.env.enter p s.time ∧ t.time = s.time ∧ t.params = s.params := by
  rcases hi with rfl | rfl
  · exact ⟨.attack, _, exec_envNoteDown s, rfl, rfl, rfl⟩
  · exact ⟨.release, _, exec_envNoteUp s, rfl, rfl, rfl⟩

/-- With nothing scheduled ENV_TICK keeps the state. -/
theorem Envelope.tick_of_unscheduled {e : Envelope} (h : e.sched = false) (n : Nat) (t : Time) :
    (e.tick n t).phase = e.phase ∧ (e.tick n t).sched = false := by
  rw [Envelope.tick, Envelope.transition_of_undue fun hs => absurd (hs.symm.trans h) (by decide)]
  exact ⟨rfl, h⟩

/-! ### The pass discipline (R203) -/

/-- What `InPass` asks of the block without its queue. -/
def State.EnvInPass (ticked : Bool) (s : State) : Prop :=
  s.params.Legal ∧ s.env.sustain.toNat ≤ 0x40000000 ∧ s.env.OnSchedule (if ticked then s.time + 1 else s.time)

theorem State.inPass_iff (ticked : Bool) (s : State) :
    s.InPass ticked ↔ s.EnvInPass ticked ∧ oneTickPerPass ticked s.port.pending = true := by
  simp only [State.InPass, State.EnvInPass, and_assoc]

/-- A word that decodes is the word of a well-formed command only if it decodes to it. -/
theorem eq_encode_iff {w : Word} {i j : Instr} (hi : decode w = .ok i) (hj : j.wellFormed = true) :
    w = encode j ↔ i = j := by
  constructor
  · rintro rfl
    exact Except.ok.inj (hi.symm.trans (decode_encode hj))
  · rintro rfl
    exact (encode_of_decode hi).2.symm

section Queue

variable {ticked : Bool} {w : Word} {es : List HostEvent}

/-- What the discipline asks of a command. -/
theorem oneTickPerPass_of_decode {i : Instr} (hi : decode w = .ok i) :
    oneTickPerPass ticked (cmdWrite w :: es) =
      if i = .envTick then !ticked && oneTickPerPass true es
      else if i = .step then ticked && oneTickPerPass false es
      else oneTickPerPass ticked es := by
  simp only [← eq_encode_iff hi (show Instr.envTick.wellFormed = true from rfl),
    ← eq_encode_iff hi (show Instr.step.wellFormed = true from rfl)]
  rfl

theorem oneTickPerPass_of_illegal {x : IllegalWord} (hx : decode w = .error x) :
    oneTickPerPass ticked (cmdWrite w :: es) = oneTickPerPass ticked es := by
  have hne {i : Instr} (hi : i.wellFormed = true) : w ≠ encode i := by
    rintro rfl
    cases hx.symm.trans (decode_encode hi)
  exact (if_neg (hne (i := .envTick) rfl)).trans (if_neg (hne (i := .step) rfl))

/-- The discipline asks nothing of a write that is no CMD write. -/
theorem oneTickPerPass_of_write {off : Offset} {n : Nat} (h : off ≠ 0) :
    oneTickPerPass ticked (.write off n w :: es) = oneTickPerPass ticked es := by
  rw [oneTickPerPass]
  exact fun hoff => absurd hoff h

/-- Only a 32-bit write at offset 0 is a CMD write. -/
theorem write_eq_cmdWrite {p : Params} {off : Offset} {n : Nat} (h : accessTarget p off n = some .cmd) :
    HostEvent.write off n w = cmdWrite w := by
  have hoff : off = 0 := by
    by_contra hne
    exact accessTarget_ne_cmd h hne rfl
  obtain ⟨⟨rfl, -⟩, -⟩ := accessTarget_eq_some_iff.1 h
  rw [hoff, cmdWrite]

end Queue

section Commands

variable {s t : State} {ticked : Bool} {i : Instr}

theorem State.EnvInPass.envTick (h : s.EnvInPass false) (ht : exec .envTick s = .next t) : t.EnvInPass true := by
  obtain ⟨hlegal, hsustain, hsched⟩ := h
  cases (exec_envTick s).symm.trans ht
  exact ⟨hlegal, by simpa [Envelope.tick] using hsustain, (hsched.tick hsustain s.params.envNch).1⟩

theorem State.EnvInPass.step (h : s.EnvInPass true) (ht : exec .step s = .next t) : t.EnvInPass false := by
  cases ht
  exact h

/-- A note event may come before or after the ENV_TICK of its pass (43_envelope.md R205). -/
theorem State.EnvInPass.note (h : s.EnvInPass ticked) (hi : i = .envNoteDown ∨ i = .envNoteUp)
    (ht : exec i s = .next t) : t.EnvInPass ticked := by
  obtain ⟨hlegal, hsustain, hsched⟩ := h
  obtain ⟨p, t', ht', henv, htime, hparams⟩ := exec_note hi s
  cases ht'.symm.trans ht
  have hready := Envelope.enter_readyToAdd hsched.1 hsustain p s.time
  rw [State.EnvInPass, hparams, henv, htime, Envelope.enter_sustain]
  cases ticked with
  | true => exact ⟨hlegal, hsustain, hready.onSchedule_succ⟩
  | false => exact ⟨hlegal, hsustain, hready.onSchedule⟩

/-- Every other command leaves the envelope and TIME. -/
theorem State.EnvInPass.other (h : s.EnvInPass ticked) (hnote : ¬ (i = .envNoteDown ∨ i = .envNoteUp))
    (htick : i ≠ .envTick) (hstep : i ≠ .step) (ht : exec i s = .next t) : t.EnvInPass ticked := by
  obtain ⟨hdown, hup⟩ := not_or.1 hnote
  obtain ⟨⟨hparams, -⟩, htime, -, -, -, -, henv, -⟩ := commandsWriteOnlyTheirUnit i s t ht
  rw [State.EnvInPass, hparams, henv hdown hup htick, htime hstep]
  exact h

/-- A command the discipline allows keeps it. -/
theorem exec_keeps_inPass {w : Word} (h : s.EnvInPass ticked) (hi : decode w = .ok i)
    (hd : oneTickPerPass ticked (cmdWrite w :: s.port.pending) = true) (ht : exec i s = .next t) :
    ∃ u, t.InPass u := by
  obtain ⟨⟨-, -, -, -, -, hport⟩, -⟩ := commandsWriteOnlyTheirUnit i s t ht
  simp only [State.inPass_iff, hport]
  rw [oneTickPerPass_of_decode hi] at hd
  by_cases htick : i = .envTick
  · subst htick
    rw [if_pos rfl, Bool.and_eq_true, Bool.not_eq_true'] at hd
    obtain ⟨rfl, hd⟩ := hd
    exact ⟨true, h.envTick ht, hd⟩
  rw [if_neg htick] at hd
  by_cases hstep : i = .step
  · subst hstep
    rw [if_pos rfl, Bool.and_eq_true] at hd
    obtain ⟨rfl, hd⟩ := hd
    exact ⟨false, h.step ht, hd⟩
  rw [if_neg hstep] at hd
  by_cases hnote : i = .envNoteDown ∨ i = .envNoteUp
  · exact ⟨ticked, h.note hnote ht, hd⟩
  · exact ⟨ticked, h.other hnote htick hstep ht, hd⟩

end Commands

/-- A register write leaves the schedule: ENV_SUSTAIN keeps a legal level, and no other register it writes counts. -/
theorem State.EnvInPass.writeReg {s : State} {ticked : Bool} (h : s.EnvInPass ticked) (v : Word) (r : Reg) :
    (writeReg s v r).EnvInPass ticked := by
  obtain ⟨hlegal, -, hsched⟩ := id h
  cases r with
  | envSustain => exact ⟨hlegal, clampSustain_toNat_le v, hsched⟩
  | _ => exact h

theorem State.EnvInPass.afterReset {s : State} {ticked : Bool} (h : s.EnvInPass ticked) :
    s.afterReset.EnvInPass false :=
  ⟨h.1, Nat.zero_le _, Envelope.onSchedule_reset _⟩

/-- Every step keeps the discipline, command by command and access by access. -/
theorem step_keeps_inPass {s t : State} {ticked : Bool} (h : s.InPass ticked) (ht : step s = .next t) :
    ∃ u, t.InPass u := by
  obtain ⟨hpass, hd⟩ := (s.inPass_iff ticked).1 h
  rcases step_next ht with ⟨-, rfl⟩ | ⟨e, es, hp, hserved⟩
  · exact ⟨ticked, h⟩
  rw [hp] at hd
  have hpending : (s.setPending es).EnvInPass ticked := hpass
  rcases hserved with ⟨_, _, _, _, rfl, -, -, rfl⟩ | ⟨_, _, _, rfl, hcmd, ⟨i, hi, hexec⟩ | ⟨⟨x, hx⟩, rfl⟩⟩ |
    ⟨off, _, w, r, rfl, hr, htarget, rfl⟩ | ⟨rfl, rfl⟩ | ⟨_, rfl, rfl⟩
  · exact ⟨ticked, (State.inPass_iff _ _).2 ⟨hpending, hd⟩⟩
  · rw [write_eq_cmdWrite hcmd] at hd
    exact exec_keeps_inPass (s := (s.setPending es).respond .ack) hpending hi hd hexec
  · rw [write_eq_cmdWrite hcmd, oneTickPerPass_of_illegal hx] at hd
    exact ⟨ticked, (State.inPass_iff _ _).2 ⟨hpending, hd⟩⟩
  · have hoff : off ≠ 0 := by
      rintro rfl
      obtain ⟨⟨rfl, -⟩, -⟩ := accessTarget_eq_some_iff.1 htarget
      exact hr (Option.some.inj (htarget.symm.trans (accessTarget_cmd _)))
    rw [oneTickPerPass_of_write hoff] at hd
    refine ⟨ticked, (State.inPass_iff _ _).2 ⟨hpending.writeReg w r, ?_⟩⟩
    rw [State.respond_port, writeReg_port]
    exact hd
  · exact ⟨false, (State.inPass_iff _ _).2 ⟨hpending.afterReset, hd⟩⟩
  · exact ⟨false, (State.inPass_iff _ _).2 ⟨hpending.afterReset, hd⟩⟩

theorem inPass_resetWith {p : Params} (hp : p.Legal) {es : List HostEvent} (hd : oneTickPerPass false es = true) :
    ((State.resetWith p).setPending es).InPass false :=
  ⟨hp, Nat.zero_le _, Envelope.onSchedule_reset _, hd⟩

/-- What every step keeps holds after every run. -/
theorem run_keeps {M : Core} {P : M.State → Prop} (hstep : ∀ s t, P s → M.step s = .next t → P t) {n : Nat}
    {s t : M.State} (h : P s) (ht : M.run n s = .next t) : P t := by
  induction n generalizing s with
  | zero => cases ht; exact h
  | succ n ih =>
    rw [Core.run] at ht
    split at ht
    · next s' hs' => exact ih (hstep s s' h hs') ht
    · cases ht
    · cases ht

/-! ### A whole ramp (R204) -/

theorem scheduleAt_add_one (t : Time) (k : Nat) : scheduleAt t k + 1 = scheduleAt t (k + 1) := by
  apply BitVec.eq_of_toNat_eq
  simp [scheduleAt, BitVec.toNat_add]
  omega

theorem scheduleAt_zero (t : Time) : scheduleAt t 0 = t :=
  ((eq_scheduleAt_iff t (by decide)).2 rfl).symm

/-- Two ticks less than a wrap of TIME ahead of `t` differ. -/
theorem scheduleAt_ne {t : Time} {j k : Nat} (hjk : j < k) (hk : k < 2 ^ 64) : scheduleAt t j ≠ scheduleAt t k := by
  have hto (n : Nat) : (scheduleAt t n).toNat = (t.toNat + n) % 2 ^ 64 := BitVec.toNat_ofNat _ _
  intro h
  have := congrArg BitVec.toNat h
  rw [hto, hto] at this
  omega

/-- `f` is `e` after `j` exact additions of DELTA, in all that the ticks to come depend on. -/
structure Envelope.AfterAdditions (e : Envelope) (j : Nat) (f : Envelope) : Prop where
  phase : f.phase = e.phase
  sched : f.sched = e.sched
  nextT : f.nextT = e.nextT
  delta : f.delta = e.delta
  sustain : f.sustain = e.sustain
  level : f.level.toInt = e.level.toInt + j * e.delta.toInt

theorem Envelope.afterAdditions_zero (e : Envelope) : e.AfterAdditions 0 e :=
  ⟨rfl, rfl, rfl, rfl, rfl, by simp⟩

/-- One more addition, as long as the ramp stays in range. -/
theorem Envelope.AfterAdditions.addDelta {e f : Envelope} {j : Nat} (h : e.AfterAdditions j f)
    (hrange : e.StaysInRange (j + 1)) (n : Nat) : e.AfterAdditions (j + 1) (f.addDelta.applyLevel n) := by
  have hsum : s32 f.level + s32 f.delta = e.level.toInt + (j + 1 : Nat) * e.delta.toInt := by
    unfold s32
    rw [h.level, h.delta]
    push_cast
    ring
  refine ⟨h.phase, h.sched, h.nextT, h.delta, h.sustain, ?_⟩
  rw [Envelope.applyLevel_level, Envelope.addDelta_level, hsum]
  exact saturate32_of_inRange (hrange (j + 1) le_rfl)

theorem envPasses_succ_of_tick {s t : State} {j : Nat} (h : andThen (envPasses j s) .envTick = .next t) :
    envPasses (j + 1) s = .next (t.advanceTime.report .ok) := by
  rw [envPasses, h]
  rfl

section Ramp

variable {s : State} {e : Envelope} {d : Nat} (hstart : s.env.transition s.time = e)
  (hnext : e.nextT = scheduleAt s.time d) (hd : d < 2 ^ 64) (hrange : e.StaysInRange d)
include hstart hnext hd hrange

/-- The ticks of a ramp: where the ENV_TICK of `T0` adds to `e`, whose transition is `d` ticks away, the one of
`T0 + j` leaves `e` after `j + 1` additions. -/
theorem envTick_of_ramp {j : Nat} (hj : j < d) :
    ∃ t, andThen (envPasses j s) .envTick = .next t ∧ t.time = scheduleAt s.time j ∧
      e.AfterAdditions (j + 1) t.env := by
  induction j with
  | zero =>
    refine ⟨_, exec_envTick s, (scheduleAt_zero _).symm, ?_⟩
    rw [Envelope.tick, hstart]
    exact e.afterAdditions_zero.addDelta (hrange.mono hj) _
  | succ j ih =>
    obtain ⟨t, ht, htime, hadded⟩ := ih (by omega)
    rw [envPasses_succ_of_tick ht]
    have hnow : t.time + 1 = scheduleAt s.time (j + 1) := by rw [htime, scheduleAt_add_one]
    have hundue : t.env.transition (t.time + 1) = t.env :=
      Envelope.transition_of_undue fun _ => by
        rw [hnow, hadded.nextT, hnext]
        exact scheduleAt_ne hj hd
    refine ⟨_, exec_envTick _, hnow, ?_⟩
    rw [Envelope.tick, State.report_env, State.advanceTime_env, State.report_time, State.advanceTime_time, hundue]
    exact hadded.addDelta (hrange.mono hj) _

/-- The tick after the ramp: the ENV_TICK of `T0 + d` enters the successor and adds its delta exactly. -/
theorem envTick_after_ramp (hpos : 1 ≤ d) (hsched : e.sched = true) (hsustain : e.sustain.toNat ≤ 0x40000000) :
    ∃ u t, envPasses d s = .next u ∧ exec .envTick u = .next t ∧ e.AfterAdditions d u.env ∧
      t.env.phase = e.phase.succ ∧ t.env.delta = (u.env.enter e.phase.succ u.time).delta ∧
      t.env.level.toInt = u.env.level.toInt + t.env.delta.toInt := by
  obtain ⟨k, rfl⟩ := Nat.exists_eq_add_of_le' hpos
  obtain ⟨t, ht, htime, hadded⟩ := envTick_of_ramp hstart hnext hd hrange k.lt_succ_self
  have hnow : t.time + 1 = t.env.nextT := by rw [hadded.nextT, hnext, htime, scheduleAt_add_one]
  have hdue : t.env.transition (t.time + 1) = t.env.enter e.phase.succ (t.time + 1) := by
    rw [Envelope.transition_of_due (hadded.sched.trans hsched) hnow, hadded.phase]
  have hlevel : levelInRange t.env.level := by
    rw [levelInRange, s32, hadded.level]
    exact hrange (k + 1) le_rfl
  have hready := Envelope.enter_readyToAdd hlevel (hadded.sustain ▸ hsustain) e.phase.succ (t.time + 1)
  have hlast := Envelope.addDelta_level_toInt hready.staysInRange
  rw [Envelope.enter_level] at hlast
  refine ⟨_, _, envPasses_succ_of_tick ht, exec_envTick _, hadded, ?_⟩
  simp only [State.report_env, State.advanceTime_env, State.report_time, State.advanceTime_time, Envelope.tick, hdue]
  exact ⟨Envelope.enter_phase .., rfl, hlast⟩

end Ramp

/-- Either way of entry, the ENV_TICK of `T0` adds to the envelope that has entered its ramp. -/
theorem EntersAt.transition_eq {e₀ e : Envelope} {p : EnvPhase} {t : Time} (h : EntersAt e₀ e p t)
    {target duration : Word} (hramp : e₀.ramp p = some (target, duration)) : e.transition t = e₀.enter p t := by
  rcases h with rfl | ⟨rfl, hsched, hnext, hsucc⟩
  · refine Envelope.transition_of_undue fun _ hdue => ?_
    rw [Envelope.enter_of_ramp hramp, eq_scheduleAt_iff t ((effDuration_lt duration).trans (by decide))] at hdue
    exact absurd hdue (Nat.one_le_iff_ne_zero.1 (effDuration_pos duration))
  · rw [Envelope.transition_of_due hsched hnext.symm, hsucc]

/-! ### The obligations -/

/-- Settles O24: the rows of R193 for the ramps, and no row for Sustain and Silent. -/
theorem enterWritesState : Obligations.EnterWritesState := by
  intro e t ramp due
  have hramp (target duration : Word) :
      rampDelta target e.level (effDuration duration) = ramp target.toInt duration := rfl
  have hone : oneQ30.toInt = 2 ^ 30 := by decide
  have hzero : (0 : Word).toInt = 0 := by decide
  refine ⟨(Envelope.enter_of_ramp rfl t).trans ?_, (Envelope.enter_of_ramp rfl t).trans ?_,
    (Envelope.enter_of_ramp rfl t).trans ?_, Envelope.enter_of_no_ramp rfl t, Envelope.enter_of_no_ramp rfl t⟩
  · rw [hramp, hone]
    rfl
  · rw [hramp]
    rfl
  · rw [hramp, hzero]
    rfl

/-- Settles O25: a note event is a state entry at the current tick and a report of OK. -/
theorem noteEventsEnterRamps : Obligations.NoteEventsEnterRamps := by
  intro s ramp due
  obtain ⟨hattack, -, hrelease, -, -⟩ := enterWritesState s.env s.time
  exact ⟨hattack ▸ exec_envNoteDown s, hrelease ▸ exec_envNoteUp s⟩

/-- Settles O26: the transition as R201 says it, then the addition, then the channels below ENV_NCH filled. -/
theorem envTickProcessesFrame : Obligations.EnvTickProcessesFrame := by
  intro s hnch e level
  have he : s.env.transition s.time = e := by simp [e, Envelope.transition]
  have hlevel : e.addDelta.level = level := by
    rw [Envelope.addDelta_level, ← he, Envelope.transition_level]
    simp only [level, ← he]
    rfl
  refine ⟨(e.addDelta.applyLevel s.params.envNch).output, (exec_envTick s).trans ?_, fun c => ?_⟩
  · rw [Envelope.tick, he, ← hlevel]
    rfl
  · rw [Envelope.applyLevel_output, frameGet_frameFill _ _ _ _ hnch, hlevel, Envelope.addDelta_input,
      Envelope.addDelta_output, ← he, Envelope.transition_input, Envelope.transition_output]
    rfl

/-- Settles O27: truncation and saturation both stop short. -/
theorem rampNeverPassesTarget : Obligations.RampNeverPassesTarget :=
  fun target level _ hd => mul_rampDelta_bounds target level hd

/-- Settles O28: the ramp's ticks by induction, and at `T0 + d` the transition out of the ramp is due. -/
theorem rampShape : Obligations.RampShape := by
  intro s e₀ p hp henters hlevel hsustain duration d δ
  obtain ⟨target, hramp⟩ : ∃ target, e₀.ramp p = some (target, duration) := by
    rcases hp with rfl | rfl | rfl <;> exact ⟨_, rfl⟩
  have hrange : (e₀.enter p s.time).StaysInRange d := Envelope.enter_staysInRange hlevel hsustain hramp s.time
  have hentered := Envelope.enter_of_ramp hramp s.time
  have hnext : (e₀.enter p s.time).nextT = scheduleAt s.time d := congrArg Envelope.nextT hentered
  have hsched : (e₀.enter p s.time).sched = true := congrArg Envelope.sched hentered
  have hd : d < 2 ^ 64 := (effDuration_lt duration).trans (by decide)
  have hstart := henters.transition_eq hramp
  refine ⟨fun j hj => ?_, ?_⟩
  · obtain ⟨t, ht, -, hadded⟩ := envTick_of_ramp hstart hnext hd hrange hj
    refine ⟨t, ht, hadded.phase.trans (Envelope.enter_phase ..), hadded.delta, ?_⟩
    simpa using hadded.level
  · obtain ⟨u, t, hu, ht, hadded, hphase, hdelta, hlast⟩ := envTick_after_ramp hstart hnext hd hrange
      (effDuration_pos duration) hsched (by rwa [Envelope.enter_sustain])
    rw [Envelope.enter_phase] at hphase hdelta
    exact ⟨u, t, hu, ht, hphase, hdelta, by rw [hadded.level, Envelope.enter_level], hlast⟩

/-- Settles O29: a note event enters a ramp in range, and ENV_TICK adds it exactly. -/
theorem passKeepsSchedule : Obligations.PassKeepsSchedule := by
  intro s hsched hsustain
  obtain ⟨hnext, hlevel⟩ := hsched.tick hsustain s.params.envNch
  refine ⟨fun i hi => ?_, _, exec_envTick s, hnext, hlevel, ⟨_, rfl, hnext⟩, fun i hi => ?_⟩
  · obtain ⟨p, t, ht, henv, htime, -⟩ := exec_note hi s
    refine ⟨t, ht, ?_⟩
    rw [henv, htime]
    exact (Envelope.enter_readyToAdd hsched.1 hsustain p s.time).onSchedule
  · obtain ⟨p, v, hv, henv, htime, -⟩ := exec_note hi { s with
      env := s.env.tick s.params.envNch s.time, status := { code := .ok, err := s.status.err } }
    refine ⟨v, _, hv, rfl, ?_⟩
    rw [State.report_env, State.advanceTime_env, State.report_time, State.advanceTime_time, henv, htime]
    exact (Envelope.enter_readyToAdd hnext.1 (by simpa [Envelope.tick] using hsustain) p s.time).onSchedule_succ

/-- Settles O30: every step keeps the discipline, reset has it, and so every run keeps it. -/
theorem levelStaysInRange : Obligations.LevelStaysInRange := by
  refine ⟨fun _ _ _ h ht => step_keeps_inPass h ht, fun _ _ hp hd => inPass_resetWith hp hd,
    fun p es n t hp hd ht => ?_⟩
  obtain ⟨u, -, hsustain, ⟨hlevel, -, -⟩, -⟩ : ∃ u, State.InPass u t :=
    run_keeps (M := core) (P := fun s => ∃ u, State.InPass u s) (fun _ _ ⟨_, h⟩ hs => step_keeps_inPass h hs)
      ⟨false, inPass_resetWith hp hd⟩ ht
  exact ⟨hlevel, hsustain⟩

/-- Settles O31: with nothing scheduled ENV_TICK keeps the state, and the other commands leave the envelope. -/
theorem sustainLeftOnlyByNotes : Obligations.SustainLeftOnlyByNotes := by
  refine ⟨⟨rfl, rfl, rfl, rfl, rfl⟩, fun _ _ => rfl, fun i s t hphase hsched ht hdown hup => ?_⟩
  by_cases htick : i = .envTick
  · subst htick
    cases (exec_envTick s).symm.trans ht
    obtain ⟨hp, hs⟩ := Envelope.tick_of_unscheduled hsched s.params.envNch s.time
    exact ⟨hp.trans hphase, hs⟩
  · obtain ⟨-, -, -, -, -, -, henv, -⟩ := commandsWriteOnlyTheirUnit i s t ht
    rw [henv hdown hup htick]
    exact ⟨hphase, hsched⟩

end Sys2Proof.Machine
end

section
/-! PROOFS. The statements of 44_oscillator.md: the set commands (R221 to R224), the tick (R225 to R238), the
PolyBLEP correction (R233), the range of the phase (R229), the effective increment with unit multipliers (R226)
and the AA bit (R239). First rounding between two patterns and products by 1.0, then the phase, then the commands'
states, then the waveforms, then the obligations. -/

namespace Sys2Proof.Machine

/-! ### Values that rounding keeps or cannot pass (R17) -/

theorem ValueOf.signBit_of_neg {v : Word} {x : ℝ} (h : ValueOf v x) (hx : x < 0) : signBit v = true := by
  have hpos := h.neg.signBit_of_pos (neg_pos.2 hx)
  rwa [signBit_neg32, Bool.not_eq_false'] at hpos

/-- The number of a pattern rounds to that pattern, unless it is a zero, of which there are two. -/
theorem ValueOf.roundsTo {v : Word} {x : ℝ} (h : ValueOf v x) (hx : x ≠ 0) : RoundsTo x v := by
  refine ⟨fun h0 => absurd h0 hx, fun _ => ?_, fun hbig => absurd h.abs_lt (not_lt.2 hbig),
    fun _ => ⟨h.1, fun w _ => ?_⟩⟩
  · rcases lt_or_gt_of_ne hx with hneg | hpos
    · rw [h.signBit_of_neg hneg, decide_eq_true hneg]
    · rw [h.signBit_of_pos hpos, decide_eq_false (not_lt.2 hpos.le)]
  · rw [h.abs_eq, sub_self, abs_zero]
    refine ⟨abs_nonneg _, fun hne htie => absurd ?_ hne⟩
    exact_mod_cast (sub_eq_zero.1 (abs_eq_zero.1 htie.symm)).symm

/-- Rounding a nonnegative number does not pass a pattern above it. -/
theorem RoundsTo.le_of_le {x y : ℝ} {v w : Word} (h : RoundsTo x v) (hw : ValueOf w y) (hx : 0 ≤ x) (hxy : x ≤ y) :
    ∃ z, ValueOf v z ∧ 0 ≤ z ∧ z ≤ y := by
  rcases hx.eq_or_lt with rfl | hpos
  · exact ⟨0, h.1 rfl ▸ valueOf_zero32, le_rfl, hxy⟩
  have habs : |x| ≤ |y| := by rwa [abs_of_pos hpos, abs_of_pos (hpos.trans_le hxy)]
  obtain ⟨hfin, near⟩ := h.2.2.2 (habs.trans_lt hw.abs_lt)
  have hsign : signBit v = false := by rw [h.2.1 hpos.ne', decide_eq_false (not_lt.2 hx)]
  have hval : ValueOf v ((units v : ℝ) / 2 ^ 149) := ⟨hfin, by simp [signedUnits, hsign]⟩
  have hxw : |x| * 2 ^ 149 ≤ units w := by
    rw [← hw.abs_eq]
    exact mul_le_mul_of_nonneg_right habs (by positivity)
  have hvw : (units v : ℝ) ≤ units w := by
    have hnear := (abs_le.1 ((near w hw.1).1.trans_eq (abs_of_nonpos (by linarith)))).1
    linarith
  refine ⟨_, hval, by positivity, (div_le_iff₀ (by positivity)).2 ?_⟩
  rwa [← hw.abs_eq, abs_of_pos (hpos.trans_le hxy)] at hvw

theorem valueOf_packSign_zero (s : Bool) : ValueOf (packSign s 0) 0 := by
  cases s
  · exact valueOf_zero32
  · rw [← neg_zero]
    exact valueOf_zero32.neg

section Values

variable {a b w : Word} {x y z : ℝ}

/-- A nonnegative sum does not pass a pattern above it. -/
theorem add32_le_of_le (ha : ValueOf a x) (hb : ValueOf b y) (hw : ValueOf w z) (h0 : 0 ≤ x + y) (hz : x + y ≤ z) :
    ∃ r, ValueOf (add32 a b) r ∧ 0 ≤ r ∧ r ≤ z := by
  by_cases h : x + y = 0
  · rw [add32_of_sum_zero ha hb h]
    exact ⟨0, valueOf_packSign_zero _, le_rfl, h ▸ hz⟩
  · exact (add32_roundsTo ha hb h).le_of_le hw h0 hz

/-- A nonnegative difference does not pass a pattern above it. -/
theorem sub32_le_of_le (ha : ValueOf a x) (hb : ValueOf b y) (hw : ValueOf w z) (h0 : 0 ≤ x - y) (hz : x - y ≤ z) :
    ∃ r, ValueOf (sub32 a b) r ∧ 0 ≤ r ∧ r ≤ z := by
  rw [sub32_eq_add32 ha.not_nan hb.not_nan]
  rw [sub_eq_add_neg] at h0 hz
  exact add32_le_of_le ha hb.neg hw h0 hz

end Values

theorem valueOf_one32 : ValueOf one32 1 := by
  refine ⟨by unfold isFinite32; decide, ?_⟩
  rw [show signedUnits one32 = 2 ^ 149 by decide, Int.cast_pow, Int.cast_ofNat, div_self (by positivity)]

theorem inf32_signBit {v : Word} (h : isInf32 v = true) : inf32 (signBit v) = v :=
  eq_of_sign_magnitude (signBit_packSign _ _ (by norm_num))
    ((magnitude_packSign _ _ (by norm_num)).trans (of_decide_eq_true h).symm)

theorem packSign_signBit_zero {v : Word} (h : isZero32 v = true) : packSign (signBit v) 0 = v :=
  eq_of_sign_magnitude (signBit_packSign _ _ (by norm_num))
    ((magnitude_packSign _ _ (by norm_num)).trans (of_decide_eq_true h).symm)

/-- The product by 1.0 is the operand, bit for bit: an infinity, a zero of either sign, or a nonzero number. -/
theorem mul32_one32 {a : Word} (h : isNaN32 a = false) : mul32 a one32 = a := by
  have hsign : (signBit a != signBit one32) = signBit a := Bool.xor_false _
  rcases nan_or_inf_or_finite a with hn | hi | hf
  · simp [h] at hn
  · rw [mul32_inf h valueOf_one32.not_nan (.inl hi), hsign, isZero32_of_inf hi,
      valueOf_one32.not_zero one_ne_zero, inf32_signBit hi]
    simp
  · have ha : ValueOf a ((signedUnits a : ℝ) / 2 ^ 149) := ⟨hf, rfl⟩
    generalize (signedUnits a : ℝ) / 2 ^ 149 = x at ha
    by_cases hx : x = 0
    · rw [mul32_of_product_zero ha valueOf_one32 (by rw [hx, zero_mul]), hsign,
        packSign_signBit_zero (ha.isZero32_iff.2 hx)]
    · have hmul := mul32_roundsTo ha valueOf_one32 (by rwa [mul_one])
      rw [mul_one] at hmul
      exact hmul.unique (ha.roundsTo hx)

/-! ### The phase (R228, R229)

In units of 2^-21, the spacing of the patterns just below 8, TWO_PI_F32 is the integer 0xC90FDB. -/

theorem valueOf_of_signedUnits {v : Word} {x : ℝ} {n : Int} (hfin : magnitude v < 0x7F800000)
    (h : signedUnits v = n * 2 ^ 128) (hx : x = n / 2 ^ 21) : ValueOf v x := by
  refine ⟨hfin, ?_⟩
  rw [hx, h, Int.cast_mul, Int.cast_pow, Int.cast_ofNat, show (2 : ℝ) ^ 149 = 2 ^ 21 * 2 ^ 128 by rw [← pow_add],
    mul_div_mul_right _ _ (by positivity)]

theorem valueOf_twoPi32 : ValueOf twoPi32 (0xC90FDB / 2 ^ 21) :=
  valueOf_of_signedUnits (n := 0xC90FDB) (by decide) (by decide) (by norm_num)

/-- The pattern before TWO_PI_F32. -/
theorem valueOf_belowTwoPi : ValueOf 0x40C90FDA (0xC90FDA / 2 ^ 21) :=
  valueOf_of_signedUnits (n := 0xC90FDA) (by decide) (by decide) (by norm_num)

/-- Twice the pattern before TWO_PI_F32. -/
theorem valueOf_twiceBelowTwoPi : ValueOf 0x41490FDA (2 * 0xC90FDA / 2 ^ 21) :=
  valueOf_of_signedUnits (n := 2 * 0xC90FDA) (by decide) (by decide) (by norm_num)

theorem lt32_eq_true_iff (a b : Word) :
    lt32 a b = true ↔ isNaN32 a = false ∧ isNaN32 b = false ∧ orderKey a < orderKey b := by
  simp [lt32, and_assoc]

/-- Lying in [0, 2π) is being a number from 0 to the one before TWO_PI_F32. -/
theorem in_phase_range_iff (v : Word) :
    (ge32 v 0 = true ∧ lt32 v 0x40C90FDB = true) ↔ ∃ x, ValueOf v x ∧ 0 ≤ x ∧ x ≤ 0xC90FDA / 2 ^ 21 := by
  constructor
  · rintro ⟨hge, hlt⟩
    obtain ⟨hn, -, hkey0⟩ := (ge32_eq_true_iff v 0).1 hge
    obtain ⟨-, -, hkey⟩ := (lt32_eq_true_iff v _).1 hlt
    rw [show orderKey 0 = 0 by decide] at hkey0
    rw [show orderKey 0x40C90FDB = 0x40C90FDB by decide] at hkey
    have hv : ValueOf v ((signedUnits v : ℝ) / 2 ^ 149) := by
      refine ⟨?_, rfl⟩
      rw [isFinite32, ← natAbs_orderKey]
      omega
    refine ⟨_, hv, (ge32_iff hv valueOf_zero32).1 hge, (ge32_iff valueOf_belowTwoPi hv).1 ?_⟩
    rw [ge32_eq_true_iff, show orderKey 0x40C90FDA = 0x40C90FDA by decide]
    exact ⟨by decide, hn, by omega⟩
  · rintro ⟨x, hv, h0, hx⟩
    exact ⟨(ge32_iff hv valueOf_zero32).2 h0,
      (lt32_iff hv valueOf_twoPi32).2 (hx.trans_lt (by norm_num))⟩

/-- One subtraction brings a phase up to twice the largest one back into [0, 2π). -/
theorem wrapPhase_in_range {q : Word} {z : ℝ} (hq : ValueOf q z) (h0 : 0 ≤ z) (hz : z ≤ 2 * 0xC90FDA / 2 ^ 21) :
    ge32 (wrapPhase q) 0 = true ∧ lt32 (wrapPhase q) 0x40C90FDB = true := by
  unfold wrapPhase
  split
  · next hge =>
    have hle := (ge32_iff hq valueOf_twoPi32).1 hge
    exact (in_phase_range_iff _).2
      (sub32_le_of_le hq valueOf_twoPi32 valueOf_belowTwoPi (sub_nonneg.2 hle) (by linarith))
  · next hlt =>
    have hlt' := not_le.1 (mt (ge32_iff hq valueOf_twoPi32).2 hlt)
    exact ⟨(ge32_iff hq valueOf_zero32).2 h0, (lt32_iff hq valueOf_twoPi32).2 hlt'⟩

/-- The sum of a phase and an increment in [0, 2π) rounds to at most twice the largest phase, and then wraps. -/
theorem Oscillator.advance_in_range {o : Oscillator} {e : Word}
    (hphase : ge32 o.phase 0 = true ∧ lt32 o.phase 0x40C90FDB = true)
    (hinc : ge32 e 0 = true ∧ lt32 e 0x40C90FDB = true) :
    ge32 (o.advance e) 0 = true ∧ lt32 (o.advance e) 0x40C90FDB = true := by
  obtain ⟨x, hx, hx0, hx1⟩ := (in_phase_range_iff _).1 hphase
  obtain ⟨y, hy, hy0, hy1⟩ := (in_phase_range_iff _).1 hinc
  obtain ⟨z, hz, hz0, hz1⟩ :=
    add32_le_of_le hx hy valueOf_twiceBelowTwoPi (add_nonneg hx0 hy0) (by linarith)
  exact wrapPhase_in_range hz hz0 hz1

/-! ### The states the commands leave (R221 to R225) -/

/-- A set command's state: the oscillator replaced and OK reported. -/
theorem State.setOsc_report_ok (s : State) (o : Oscillator) :
    (s.setOsc o).report .ok = { s with osc := o, status := { code := .ok, err := s.status.err } } :=
  (s.setOsc o).report_of_not_setsErr rfl

/-- A tick's state: the oscillator replaced, the draw counted on white noise, and OK reported. -/
theorem State.setOsc_drawFor_report_ok (s : State) (o : Oscillator) :
    (s.setOsc o).drawFor.report .ok = { s with
      osc := o
      draws := if o.wave = .whiteNoise then s.draws + 1 else s.draws
      status := { code := .ok, err := s.status.err } } := by
  rw [State.report_of_not_setsErr _ rfl, State.drawFor, State.setOsc_osc]
  split <;> rfl

theorem exec_oscInit {code : BitVec 3} {w : Waveform} (h : waveformOfCode code = some w) (aa : Bool) (s : State) :
    exec (.oscInit code aa) s = .next ((s.setOsc (s.osc.init w aa)).report .ok) := by
  rw [exec, execOscInit, h]

/-- The codes of R56. -/
theorem waveformOfCode_eq_some : ∀ c ∈ [((0 : BitVec 3), Waveform.sine), (1, .saw), (2, .square), (3, .triangle),
    (4, .whiteNoise), (5, .pulseTrain)], waveformOfCode c.1 = some c.2 := by
  decide

/-! ### Increment and waveforms (R226, R230 to R239) -/

/-- With no modulation input the factor is not multiplied. -/
theorem Oscillator.effInc_none (o : Oscillator) : o.effInc none = mul32 (mul32 o.inc o.bend) o.transpose := rfl

/-- The effective increment of a tick, with its modulation operand written out (R226, R227). -/
theorem effInc_lfoOperand (s : State) (lfo : Bool) :
    s.osc.effInc (s.lfoOperand lfo) =
      mul32 (mul32 (if lfo then mul32 s.osc.inc (exp2_32 (mul32 s.arg0 s.osc.lfoInt)) else s.osc.inc) s.osc.bend)
        s.osc.transpose := by
  cases lfo <;> rfl

theorem neg32_one32 : neg32 one32 = 0xBF800000 := by decide

/-- The three waveforms without a corrected variant do not read AA. -/
theorem Oscillator.sample_withAa {o : Oscillator}
    (h : o.wave = .sine ∨ o.wave = .whiteNoise ∨ o.wave = .pulseTrain) (b : Bool) (p e noise : Word) :
    ({ o with aa := b } : Oscillator).sample p e noise = o.sample p e noise := by
  rcases h with h | h | h <;> simp [Oscillator.sample, h]

/-- Then the tick carries AA along: increment and phase do not read it either. -/
theorem Oscillator.tick_withAa {o : Oscillator}
    (h : o.wave = .sine ∨ o.wave = .whiteNoise ∨ o.wave = .pulseTrain) (b : Bool) (x : Option Word) (noise : Word) :
    ({ o with aa := b } : Oscillator).tick x noise = { o.tick x noise with aa := b } := by
  have hinc : ({ o with aa := b } : Oscillator).effInc x = o.effInc x := rfl
  have hadv (e : Word) : ({ o with aa := b } : Oscillator).advance e = o.advance e := rfl
  simp only [Oscillator.tick, hinc, hadv, Oscillator.sample_withAa h]

/-! ### The obligations -/

/-- Settles O37: the rounded sum is at most twice the largest phase, so one subtraction suffices. -/
theorem phaseStaysBelowTwoPi : Obligations.PhaseStaysBelowTwoPi := by
  intro s lfo e hp0 hp1 he0 he1
  refine ⟨_, exec_oscTick lfo s, ?_⟩
  rw [State.report_osc, State.drawFor_osc, State.setOsc_osc, Oscillator.tick_phase]
  exact Oscillator.advance_in_range ⟨hp0, hp1⟩ ⟨he0, he1⟩

/-- Settles O39: both products are by 1.0. -/
theorem unitMultipliersKeepIncrement : Obligations.UnitMultipliersKeepIncrement := by
  intro o hbend htranspose hinc
  have hone : mul32 o.inc 0x3F800000 = o.inc := mul32_one32 hinc
  rw [Oscillator.effInc_none, hbend, htranspose, hone, hone]

/-- Settles O32: the code selects its waveform, and the restart is reported OK. -/
theorem oscInitRestarts : Obligations.OscInitRestarts := by
  intro s code aa w hmem
  rw [exec_oscInit (waveformOfCode_eq_some _ hmem), State.setOsc_report_ok]
  rfl

/-- Settles O33: each set command replaces one field of the oscillator. -/
theorem oscSetCommandsWriteOneRegister : Obligations.OscSetCommandsWriteOneRegister :=
  fun s => ⟨congrArg Host.Outcome.next (s.setOsc_report_ok _), congrArg Host.Outcome.next (s.setOsc_report_ok _),
    congrArg Host.Outcome.next (s.setOsc_report_ok _)⟩

/-- Settles O34: the state of a tick, its increment written out, and the sample of each waveform. -/
theorem oscTickProducesSample : Obligations.OscTickProducesSample := by
  intro s lfo o e₁ e p₁ p t dt naive u₁ u square ramp y
  have he : s.osc.effInc (s.lfoOperand lfo) = e := effInc_lfoOperand s lfo
  have hp : s.osc.advance e = p := rfl
  have hsquare : squareWave o.aa p t dt = square := by rw [squareWave, neg32_one32]; rfl
  have hy : s.osc.sample p e (noiseSample s.draws) = y := by
    cases hw : s.osc.wave with
    | sine => simp only [Oscillator.sample, y, o, hw]
    | saw => simp only [Oscillator.sample, y, o, hw]; rfl
    | square => simp only [Oscillator.sample, y, o, hw]; exact hsquare
    | triangle => simp only [Oscillator.sample, y, o, hw, triangleWave]; rw [← hsquare]; rfl
    | whiteNoise => simp only [Oscillator.sample, y, o, hw]
    | pulseTrain => simp only [Oscillator.sample, y, o, hw]; rfl
  rw [exec_oscTick, State.setOsc_drawFor_report_ok, Oscillator.tick_wave, Oscillator.tick, he, hp, hy]

/-- Settles O35: the tests in the order of R233. -/
theorem blepIsTwoSamplePolynomial : Obligations.BlepIsTwoSamplePolynomial := by
  intro t dt x z
  refine ⟨fun hafter => if_pos hafter, fun hafter hbefore => ?_, fun hafter hbefore => ?_⟩
  · exact (if_neg (by simp [hafter])).trans (if_pos hbefore)
  · exact (if_neg (by simp [hafter])).trans (if_neg (ne_true_of_eq_false hbefore))

/-- Settles O38: the tick of such a waveform carries AA along, and so does the rest of the command. -/
theorem aaIgnoredBySmoothWaves : Obligations.AaIgnoredBySmoothWaves := by
  intro s t u lfo b hwave ht hu
  rw [exec_oscTick, State.setOsc_drawFor_report_ok] at ht hu
  cases ht
  cases hu
  have hoperand : ({ s with osc := { s.osc with aa := b } } : State).lfoOperand lfo = s.lfoOperand lfo := rfl
  rw [hoperand, Oscillator.tick_withAa hwave]

end Sys2Proof.Machine
end

section
/-! PROOFS. The statements of 60_exceptions.md: the sticky ERR bit (R262), the codes each command may write (R261) and
that a failure changes STATUS alone (R263). First the report of a code, then the codes a command reports, then the
host's write of STATUS, then what keeps ERR set, then the obligations. -/

namespace Sys2Proof.Machine

open Host

/-! ### The report of a code (R262) -/

theorem State.report_eq (s : State) (c : ResultCode) : s.report c = { s with
    status := { code := c, err := if 3 ≤ c.number then true else s.status.err } } := by
  by_cases h : 3 ≤ c.number
  · rw [if_pos h, s.report_of_setsErr (decide_eq_true h)]
  · rw [if_neg h, s.report_of_not_setsErr (decide_eq_false h)]

/-- What a command writes before it reports is not STATUS. -/
theorem OwnWrite.status_eq {s u : State} {i : Instr} (h : OwnWrite s i u) : u.status = s.status := by
  cases h with
  | oscTick lfo o => exact (s.setOsc o).drawFor_status
  | _ => rfl

/-- A command sets ERR by a code from 3 on and else keeps it. -/
theorem exec_err {i : Instr} {s t : State} (h : exec i s = .next t) :
    t.status.err = if 3 ≤ t.status.code.number then true else s.status.err := by
  obtain ⟨u, c, hu, rfl⟩ := exec_ownWrite h
  rw [u.report_eq, hu.status_eq]

/-! ### The codes a command reports (R261, R263) -/

/-- The codes other than OK that R261 lists for a command. OSC_INIT with WAVE = 6 or 7 stands for an ILLEGAL word
(30_encoding.md R97). -/
def failureCodes : Instr → List ResultCode
  | .fftConfig => [.badArg]
  | .fftFwd => [.outTooShort, .noContext, .range]
  | .fftInv => [.outTooShort, .noContext, .range]
  | .rbInit => [.badArg]
  | .rbGet => [.notAvailable]
  | .rbUpdate => [.notFound]
  | .oscInit wave _ => if wave.toNat ≤ 5 then [] else [.illegal]
  | _ => []

/-- Every WAVE a well-formed OSC_INIT can have selects a waveform (10_state.md R56). -/
theorem waveformOfCode_ne_none {wave : BitVec 3} (h : wave.toNat ≤ 5) : waveformOfCode wave ≠ none := by
  revert wave
  decide

/-- A transform reports OK after its writes, or the code of a failed check alone. -/
theorem transform_reports {inverse : Bool} {out : FftContext → Complex32 → Complex32} {s t : State}
    (h : transform inverse out s = .next t) :
    (∃ u : State, t = u.report .ok) ∨
      ∃ c ∈ [ResultCode.outTooShort, .noContext, .range], t = s.report c := by
  rcases transform_next h with ⟨c, hc, rfl⟩ | ⟨_, _, -, -, rfl⟩
  · refine .inr ⟨c, ?_, rfl⟩
    rcases transformChecks_error hc with rfl | rfl | rfl <;> decide
  · exact .inl ⟨_, rfl⟩

/-- A command that goes on reports OK after its writes, or one of its failure codes in the state it found. -/
theorem exec_reports {i : Instr} {s t : State} (h : exec i s = .next t) :
    (∃ u : State, t = u.report .ok) ∨ ∃ c ∈ failureCodes i, t = s.report c := by
  cases i with
  | fftConfig =>
    rcases execFftConfig_next h with ⟨-, ht⟩ | ⟨-, ht⟩
    · exact .inr ⟨_, List.mem_singleton_self _, ht⟩
    · exact .inl ⟨_, ht⟩
  | fftFwd => exact transform_reports h
  | fftInv => exact transform_reports h
  | rbInit =>
    rcases execRbInit_next h with ⟨-, ht⟩ | ⟨-, ht⟩
    · exact .inr ⟨_, List.mem_singleton_self _, ht⟩
    · exact .inl ⟨_, ht⟩
  | rbPush =>
    obtain ⟨-, ht⟩ := execRbPush_next h
    exact .inl ⟨_, ht⟩
  | rbGet =>
    rcases execRbGet_next h with ⟨-, ht⟩ | ⟨-, ht⟩
    · exact .inl ⟨_, ht⟩
    · exact .inr ⟨_, List.mem_singleton_self _, ht⟩
  | rbUpdate =>
    rcases execRbUpdate_next h with ⟨-, ht⟩ | ⟨-, ht⟩
    · exact .inl ⟨_, ht⟩
    · exact .inr ⟨_, List.mem_singleton_self _, ht⟩
  | oscInit wave aa =>
    rcases execOscInit_next h with ⟨_, -, ht⟩ | ⟨hnone, ht⟩
    · exact .inl ⟨_, ht⟩
    · have hwave : ¬ wave.toNat ≤ 5 := fun hle => waveformOfCode_ne_none hle hnone
      exact .inr ⟨.illegal, by simp [failureCodes, hwave], ht⟩
  | nop | step | envNoteDown | envNoteUp | envTick | oscSetFreq | oscSetTranspose | oscSetBend | oscTick lfo =>
    exact .inl ⟨_, (Outcome.next.inj h).symm⟩

theorem exec_code_mem {i : Instr} {s t : State} (h : exec i s = .next t) :
    t.status.code ∈ .ok :: failureCodes i := by
  rcases exec_reports h with ⟨u, rfl⟩ | ⟨c, hc, rfl⟩
  · exact List.mem_cons_self
  · exact List.mem_cons_of_mem _ hc

/-- A command that fails changes STATUS alone (R263). -/
theorem exec_of_failure {i : Instr} {s t : State} (h : exec i s = .next t) (hcode : 1 ≤ t.status.code.number) :
    t = { s with status := t.status } := by
  rcases exec_reports h with ⟨u, rfl⟩ | ⟨c, -, rfl⟩
  · cases hcode
  · rfl

/-! ### The host's write of STATUS (10_state.md R32) -/

/-- STATUS stands at offset 0x004 alone, under any parameters. -/
theorem accessTarget_status_iff {p : Params} {off : Offset} {n : Nat} :
    accessTarget p off n = some .status ↔ n = 4 ∧ off = 0x004 := by
  constructor
  · intro h
    obtain ⟨⟨hn, -⟩, hreg⟩ := accessTarget_eq_some_iff.1 h
    have hrow : (off.toNat, Reg.status) ∈ registerMap := by
      rcases regAt_cases hreg with ⟨_, hr, -⟩ | ⟨_, hr, -⟩ | ⟨_, ⟨hr, -⟩ | ⟨hr, -⟩, -⟩ | hrow
      iterate 4 cases hr
      exact hrow
    have hoffset : ∀ row ∈ registerMap, row.2 = .status → row.1 = 0x004 := by decide
    exact ⟨hn, BitVec.eq_of_toNat_eq (hoffset _ hrow rfl)⟩
  · rintro ⟨rfl, rfl⟩
    simp [accessTarget, regAt, dmemBase, registerMap, findKey]

theorem Status.hostWrite_eq (st : Status) (v : Word) :
    st.hostWrite v = { code := st.code, err := if v.getLsbD 8 then false else st.err } := by
  unfold Status.hostWrite
  cases v.getLsbD 8 <;> simp

/-- No other register a host writes holds STATUS. -/
theorem writeReg_status_of_ne (s : State) (v : Word) {r : Reg} (h : r ≠ .status) :
    (writeReg s v r).status = s.status := by
  cases r with
  | status => exact absurd rfl h
  | _ => rfl

/-! ### What keeps ERR set (R262) -/

/-- A command never clears ERR. -/
theorem exec_keeps_err {i : Instr} {s t : State} (h : exec i s = .next t) (herr : s.status.err = true) :
    t.status.err = true := by
  rw [exec_err h, herr, ite_self]

/-- Only a write of STATUS with bit 8 = 1 clears ERR. -/
theorem clearsErr_of_writeReg {s : State} {off : Offset} {n : Nat} {v : Word} {r : Reg}
    (hr : accessTarget s.params off n = some r) (herr : s.status.err = true)
    (hclear : (writeReg s v r).status.err = false) :
    n = 4 ∧ off = 0x004 ∧ v.getLsbD 8 = true := by
  by_cases hstatus : r = .status
  · subst hstatus
    obtain ⟨hn, hoff⟩ := accessTarget_status_iff.1 hr
    have hbit : (s.status.hostWrite v).err = false := hclear
    rw [Status.hostWrite_err, herr, Bool.true_and, Bool.not_eq_false'] at hbit
    exact ⟨hn, hoff, hbit⟩
  · rw [writeReg_status_of_ne s v hstatus, herr] at hclear
    cases hclear

/-- A step that clears ERR serves a write of STATUS with bit 8 = 1 or a reset. -/
theorem event_of_clearsErr {s t : State} {e : HostEvent} {es : List HostEvent} (hp : s.port.pending = e :: es)
    (ht : step s = .next t) (herr : s.status.err = true) (hclear : t.status.err = false) :
    (∃ v, e = .write 0x004 4 v ∧ v.getLsbD 8 = true) ∨ e = .reset ∨ ∃ v, e = .resetDuring v := by
  have hset : t.status.err ≠ true := ne_true_of_eq_false hclear
  rcases step_next ht with ⟨hidle, -⟩ | ⟨e', es', hp', hserved⟩
  · cases hp.symm.trans hidle
  cases hp.symm.trans hp'
  rcases hserved with ⟨_, _, _, _, -, -, -, rfl⟩ | ⟨_, _, _, -, -, ⟨i, -, hexec⟩ | ⟨-, rfl⟩⟩ |
    ⟨off, n, w, r, rfl, -, hr, rfl⟩ | ⟨rfl, -⟩ | ⟨w, rfl, -⟩
  · exact absurd herr hset
  · exact absurd (exec_keeps_err hexec herr) hset
  · rw [State.illegal_status, Status.record_illegal] at hclear
    cases hclear
  · obtain ⟨rfl, rfl, hbit⟩ := clearsErr_of_writeReg (s := s.setPending es) hr herr hclear
    exact .inl ⟨w, rfl, hbit⟩
  · exact .inr (.inl rfl)
  · exact .inr (.inr ⟨w, rfl⟩)

/-! ### The obligations -/

/-- Settles O47: the report and the host's write of STATUS written out, and the converse over every kind of step. -/
theorem errIsSticky : Obligations.ErrIsSticky := by
  refine ⟨State.report_eq, fun s es v hp => ?_, fun i s t h => ?_, fun s v es hp => ?_,
    fun s t e es hp ht => event_of_clearsErr hp ht⟩
  · rcases hp with hp | hp
    · exact ⟨_, step_of_pending hp, rfl⟩
    · exact ⟨_, step_of_pending hp, rfl⟩
  · rw [exec_err h]
    exact ⟨fun hfail => if_pos hfail, fun hlow => if_neg hlow.not_ge⟩
  · rw [step_of_write hp (accessTarget_status_iff.2 ⟨rfl, rfl⟩) nofun, ← Status.hostWrite_eq]
    rfl

/-- Settles O48: a well-formed OSC_INIT has no failure code, and the other commands' lists are those of R261. -/
theorem commandsWriteListedCodes : Obligations.CommandsWriteListedCodes := by
  intro i s t hi h
  have hcode := List.mem_map_of_mem (f := ResultCode.number) (exec_code_mem h)
  cases i with
  | oscInit wave aa => rwa [failureCodes, if_pos (of_decide_eq_true hi)] at hcode
  | _ => exact hcode

/-- Settles O49: a word that decodes runs its command, and any other reports ILLEGAL alone. -/
theorem failureChangesOnlyStatus : Obligations.FailureChangesOnlyStatus := by
  refine ⟨fun i s t => exec_of_failure, fun w s t h hcode => ?_⟩
  rcases executeWord_next h with ⟨i, -, hexec⟩ | ⟨-, rfl⟩
  · exact exec_of_failure hexec hcode
  · rfl

end Sys2Proof.Machine
end

section
/-! PROOFS. The statement of 70_reset_and_hazards.md: a read of DMEM, by the host or by a transform, answers the word
last stored there and faults where nothing was stored (R283, log entry 2). First the faults of the memory reads, then
the fault of a transform's load, then the obligation. -/

namespace Sys2Proof.Machine

/-! ### Reads of an unwritten word -/

theorem Memory.loadWord_of_some {m : Memory} {a : Nat} {v : Word} (h : m.readWord a = some v) :
    m.loadWord a = .ok v := by
  simp only [Memory.loadWord, h]

theorem Memory.loadWord_of_none {m : Memory} {a : Nat} (h : m.readWord a = none) :
    m.loadWord a = .error (.unwrittenDmem a) := by
  simp only [Memory.loadWord, h]

/-- A read of an element faults at one of its two words, and that word is unwritten. -/
theorem Memory.loadElement_error {m : Memory} {i : Nat} {f : Fault} (h : m.loadElement i = .error f) :
    ∃ a, (a = reOffset i ∨ a = imOffset i) ∧ m.readWord a = none ∧ f = .unwrittenDmem a := by
  rcases hre : m.readWord (reOffset i) with _ | re
  · simp only [Memory.loadElement, Memory.loadWord_of_none hre] at h
    exact ⟨_, .inl rfl, hre, (Except.error.inj h).symm⟩
  · rcases him : m.readWord (imOffset i) with _ | im
    · simp only [Memory.loadElement, Memory.loadWord_of_some hre, Memory.loadWord_of_none him] at h
      exact ⟨_, .inr rfl, him, (Except.error.inj h).symm⟩
    · have hok := (Memory.loadElement_ok m i ⟨re, im⟩).2 ⟨hre, him⟩
      cases hok.symm.trans h

/-- A host read of a register that faults. -/
theorem step_of_read_fault {s : State} {off : Offset} {es : List HostEvent} {r : Reg} {f : Fault}
    (hp : s.port.pending = .read off 4 :: es) (ht : accessTarget s.params off 4 = some r)
    (hr : readReg s r = .error f) : step s = .fault f := by
  have hpending : readReg (s.setPending es) r = .error f := by cases r <;> exact hr
  rw [step_of_pending hp]
  simp only [serve, hostRead, State.setPending_params, ht, hpending]

/-- A DMEM word's offset reaches the register that reads that word. -/
theorem exists_accessTarget_dmem {s : State} {off : Offset} {i : Nat} (hi : i < s.params.dmemSize)
    (hl : s.params.Legal) (h : off.toNat = 0x1000000 + 8 * i ∨ off.toNat = 0x1000004 + 8 * i) :
    ∃ r, accessTarget s.params off 4 = some r ∧ readReg s r = Memory.loadWord s.dmem off.toNat := by
  rcases h with hre | him
  · exact ⟨_, accessTarget_dmemRe hi hl hre, by rw [hre]; rfl⟩
  · exact ⟨_, accessTarget_dmemIm hi hl him, by rw [him, ← imOffset_eq]; rfl⟩

/-! ### The load of a transform (R165) -/

/-- The offset of a word of one of the `lr` input elements from `src` on. -/
def InputOffset (src lr a : Nat) : Prop :=
  ∃ k, k < lr ∧ (a = 0x1000000 + 8 * (src + k) ∨ a = 0x1000004 + 8 * (src + k))

theorem loadPoint_error {m : Memory} {src lr : Nat} {inverse : Bool} {j : Nat} {f : Fault}
    (h : loadPoint m src lr inverse j = .error f) :
    ∃ a, InputOffset src lr a ∧ m.readWord a = none ∧ f = .unwrittenDmem a := by
  unfold loadPoint at h
  split at h
  · next hj =>
    split at h
    · next g hg =>
      cases h
      obtain ⟨a, ha, hnone, hfault⟩ := Memory.loadElement_error hg
      rw [reOffset_eq, imOffset_eq] at ha
      exact ⟨a, ⟨j, hj, ha⟩, hnone, hfault⟩
    · cases h
  · cases h

theorem loadPoint_ok_of_lt {m : Memory} {src lr : Nat} {inverse : Bool} {j : Nat} {y : Complex32} (hj : j < lr)
    (h : loadPoint m src lr inverse j = .ok y) : ∃ x, m.loadElement (src + j) = .ok x := by
  rw [loadPoint, if_pos hj] at h
  split at h
  · cases h
  · next x hx => exact ⟨x, hx⟩

/-- The load faults where one of its points does. -/
theorem loadInput_error {m : Memory} {src lr : Nat} {inverse : Bool} {js : List Nat} {f : Fault}
    (h : loadInput m src lr inverse js = .error f) : ∃ j ∈ js, loadPoint m src lr inverse j = .error f := by
  induction js with
  | nil => cases h
  | cons j js ih =>
    rw [loadInput] at h
    split at h
    · next g hg =>
      cases h
      exact ⟨j, List.mem_cons_self, hg⟩
    · split at h
      · next g hg =>
        cases h
        obtain ⟨k, hk, hpoint⟩ := ih hg
        exact ⟨k, List.mem_cons_of_mem _ hk, hpoint⟩
      · cases h

/-- A load that completes has read both words of every input element its table names. -/
theorem readWord_ne_none_of_loadInput {m : Memory} {src lr : Nat} {inverse : Bool} {js : List Nat}
    {ys : List Complex32} (h : loadInput m src lr inverse js = .ok ys) (hjs : ∀ k, k < lr → k ∈ js) {a : Nat}
    (ha : InputOffset src lr a) : m.readWord a ≠ none := by
  obtain ⟨k, hk, hoff⟩ := ha
  obtain ⟨n, hn, hget⟩ := List.mem_iff_getElem.1 (hjs k hk)
  have hpoint := ((loadInput_ok _ _ _ _ _ _).1 h).get hn (loadInput_length h ▸ hn)
  rw [List.get_eq_getElem, hget] at hpoint
  obtain ⟨x, hx⟩ := loadPoint_ok_of_lt hk hpoint
  obtain ⟨hre, him⟩ := (Memory.loadElement_ok _ _ _).1 hx
  rw [reOffset_eq] at hre
  rw [imOffset_eq] at him
  rcases hoff with rfl | rfl
  · simp [hre]
  · simp [him]

/-- REV is a permutation: it names every index below the padded size. -/
theorem mem_revTable {b k : Nat} (hk : k < 2 ^ b) : k ∈ revTable b :=
  List.mem_map.2 ⟨bitrev b k, List.mem_range.2 (bitrev_lt b k), bitrev_bitrev hk⟩

/-- The core faults on an input with an unwritten word, at a word of that kind. -/
theorem transformCore_of_unwritten {m : Memory} {b src len off : Nat} (inverse : Bool)
    (hoff : InputOffset src (min len (2 ^ b)) off) (hnone : m.readWord off = none) :
    ∃ a, InputOffset src (min len (2 ^ b)) a ∧ m.readWord a = none ∧
      transformCore m (fftContext b) src len inverse = .error (.unwrittenDmem a) := by
  rcases hload : loadInput m src (min len (2 ^ b)) inverse (revTable b) with f | ys
  · obtain ⟨j, -, hj⟩ := loadInput_error hload
    obtain ⟨a, ha, hunwritten, rfl⟩ := loadPoint_error hj
    exact ⟨a, ha, hunwritten, by simp only [transformCore, fftContext_size, fftContext_rev, hload]⟩
  · have hjs : ∀ k, k < min len (2 ^ b) → k ∈ revTable b := fun k hk => mem_revTable (by omega)
    exact absurd hnone (readWord_ne_none_of_loadInput hload hjs hoff)

theorem transform_of_core_error {inverse : Bool} {out : FftContext → Complex32 → Complex32} {s : State}
    {c : FftContext} {f : Fault} (h : transformChecks s.params s.fft s.transformOperands = .ok c)
    (hcore : transformCore s.dmem c s.transformOperands.src s.transformOperands.len inverse = .error f) :
    transform inverse out s = .fault f := by
  simp only [transform, h, hcore]

/-! ### The obligation -/

/-- Settles O52: the host's read through the register of the word, the transform's through the first point of its
load that faults. -/
theorem dmemReadReturnsStoredWord : Obligations.DmemReadReturnsStoredWord := by
  refine ⟨fun s off es i hi hl hoff hp => ?_, fun s i b off hi hc hout hsrc hdst hoff hnone => ?_⟩
  · obtain ⟨r, htarget, hread⟩ := exists_accessTarget_dmem hi hl hoff
    exact ⟨fun v hv => step_of_read hp htarget (hread.trans (Memory.loadWord_of_some hv)),
      fun hnone => step_of_read_fault hp htarget (hread.trans (Memory.loadWord_of_none hnone))⟩
  · obtain ⟨inverse, out, hexec⟩ := exec_transform hi
    have hchecks : transformChecks s.params s.fft s.transformOperands = .ok (fftContext b) :=
      transformChecks_of_pass hc hout hsrc hdst
    obtain ⟨a, ha, hunwritten, hcore⟩ := transformCore_of_unwritten inverse hoff hnone
    exact ⟨a, ha, hunwritten, by rw [hexec, transform_of_core_error hchecks hcore]⟩

end Sys2Proof.Machine
end
